-- ==== Sys2Proof/Word.lean ====
section
/-! DEFINITION. The widths of the block (spec R10): a byte is 8 bits, a nibble 4, a word 32; a level is
one bit, `High = 1`, `Low = 0`; a pin function is one of two names. -/

namespace Sys2Proof

/-- A 32-bit register word (R10, R36). -/
abbrev Word := BitVec 32

/-- An 8-bit byte (R10). -/
abbrev Byte := BitVec 8

/-- A 4-bit nibble (R10). -/
abbrev Nibble := BitVec 4

/-- A logic level, `High` is `true` and `Low` is `false` (R10). -/
abbrev Level := Bool

/-- The two pin functions (R10, R21). -/
inductive PinFn where
  | input
  | output
deriving DecidableEq, Repr

end Sys2Proof
end

