-- ==== Sys2Proof/Config.lean ====
section
/-! DEFINITION. The constants of spec/00_scope.md (R5 to R9), the configuration record `CFG` (R5, R6), and the
one free value of the model. What varies between two chips of this kind is plain data of the state
(`Cfg`, `Codes`, `Params`); what the spec fixes is a constant here. -/

namespace Sys2Proof

/-- The display configuration `CFG` (R5). A configuration need not be admitted (R6): `INIT` checks it. -/
structure Cfg where
  bits : Nat
  rows : Nat
  cols : Nat
  /-- the register-select line, the source's "reset-pin" (90_conflicts.md C3) -/
  rs   : Nat
  strb : Nat
  d0   : Nat
  d1   : Nat
  d2   : Nat
  d3   : Nat
deriving DecidableEq, Repr

/-- The command codes, their flags and the DDRAM geometry of R8: the configuration record a claim can name
(D6, D7; log 12, log 14). -/
structure Codes where
  /-- `LCD_CLEAR`, fixed code -/
  clear      : Byte
  /-- `LCD_HOME`, fixed code -/
  home       : Byte
  /-- `LCD_ENTRY`, base code, with its flags `LCD_ENTRY_ID` and `LCD_ENTRY_SH` -/
  entry      : Byte
  entryId    : Byte
  entrySh    : Byte
  /-- `LCD_CTRL`, base code, with its flags `LCD_CTRL_D`, `LCD_CTRL_C` and `LCD_CTRL_B` -/
  ctrl       : Byte
  ctrlD      : Byte
  ctrlC      : Byte
  ctrlB      : Byte
  /-- `LCD_CDSHIFT`, base code, with its flags `LCD_CDSHIFT_RL` and `LCD_CDSHIFT_SC` -/
  cdshift    : Byte
  cdshiftRl  : Byte
  cdshiftSc  : Byte
  /-- `LCD_FUNC`, base code, with its flags `LCD_FUNC_DL`, `LCD_FUNC_N` and `LCD_FUNC_F` -/
  func       : Byte
  funcDl     : Byte
  funcN      : Byte
  funcF      : Byte
  /-- `LCD_DDRAM`, base code -/
  ddram      : Byte
  /-- `ROW0_BASE` -/
  row0Base   : Nat
  /-- `ROW_STRIDE` -/
  rowStride  : Nat
deriving DecidableEq, Repr

/-- The register-block parameters of R9 (D3; log 13): where the four kinds of register start, in words, and the
size of the span. `GPIO_BASE` is open and no rule reads it. -/
structure Offsets where
  fselW     : Nat
  setW      : Nat
  clrW      : Nat
  levW      : Nat
  spanWords : Nat
deriving DecidableEq, Repr

/-- The model arguments of U20 that the block's rules read beside `CFG`: the record of R8, the offsets of R9,
`CTL_RESET` and `INIT_TAIL` (R8) and `T_CLEAR_EXTRA_US` (R7). -/
structure Params where
  codes        : Codes
  offsets      : Offsets
  ctlReset     : BitVec 3
  initTail     : List Byte
  clearExtraUs : Nat
deriving DecidableEq, Repr

namespace Config

/-- `N_PINS` (R5). -/
def nPins : Nat := 54

/-- `T_INIT_US` (R7). -/
def tInitUs : Nat := 35000
/-- `T_CMD_US` (R7). -/
def tCmdUs : Nat := 2000
/-- `T_STROBE_US` (R7). -/
def tStrobeUs : Nat := 50
/-- `T_DEV_CLEARHOME_US` (R7), the receiver's requirement, never a driver delay. -/
def tDevClearHomeUs : Nat := 1600

/-- The values of R8's table, PRESUMED by the spec from the HD44780 family (D6, D7; log 12, log 14). -/
def codes : Codes :=
  { clear := 0x01
    home := 0x02
    entry := 0x04, entryId := 0x02, entrySh := 0x01
    ctrl := 0x08, ctrlD := 0x04, ctrlC := 0x02, ctrlB := 0x01
    cdshift := 0x10, cdshiftRl := 0x04, cdshiftSc := 0x08
    func := 0x20, funcDl := 0x10, funcN := 0x08, funcF := 0x04
    ddram := 0x80
    row0Base := 0x00
    rowStride := 0x40 }

/-- The blank character Clear display leaves (R146). PRESUMED by the spec (log 32). -/
def rxBlank : Byte := 0x20

/-- The values of R9's table, PRESUMED by the spec from the BCM2835 (D3; log 13). -/
def offsets : Offsets := { fselW := 0, setW := 7, clrW := 10, levW := 13, spanWords := 1024 }

/-- Function codes (R9, R21): Input all-zero, Output 0b001. -/
def fselInput : Word := 0b000
def fselOutput : Word := 0b001

/-- The defaults of the model arguments (R7 to R9): `CTL_RESET` (D8), and `INIT_TAIL` as R105 spells it (D14). -/
def defaultParams : Params :=
  { codes := codes
    offsets := offsets
    ctlReset := 0b000
    initTail := [codes.entry ||| codes.entryId, codes.cdshift ||| codes.cdshiftRl]
    clearExtraUs := 5000 }

/-- `CFG_EX` (R5), the spec's example: 16 columns, 2 rows. -/
def cfgEx : Cfg :=
  { bits := 4, rows := 2, cols := 16, rs := 25, strb := 24, d0 := 23, d1 := 10, d2 := 27, d3 := 22 }

/-- FREE VALUE (R23, R24, R43; log 8): at the `n`-th level read, the 64 bits that the level registers show
where no Output latch decides: `EXT` of Input pins, pins in other functions, bits of no pin. -/
opaque levelDraw : Nat → BitVec 64

end Config

/-- The six LCD pins in the order the set-up takes them (R99). -/
def Cfg.pins (c : Cfg) : List Nat := [c.rs, c.strb, c.d0, c.d1, c.d2, c.d3]

/-- `CFG.DATA[i]` (R5). -/
def Cfg.dataPin (c : Cfg) : Nat → Nat
  | 0 => c.d0
  | 1 => c.d1
  | 2 => c.d2
  | _ => c.d3

/-- An admitted configuration (R6 (a) to (e)), under the DDRAM geometry of `k`. -/
abbrev Cfg.Admitted (k : Codes) (c : Cfg) : Prop :=
  c.bits = 4 ∧ (c.rows = 1 ∨ c.rows = 2) ∧ (1 ≤ c.cols ∧ c.cols ≤ 40) ∧
  k.row0Base + (c.rows - 1) * k.rowStride + c.cols - 1 ≤ 0x7F ∧
  c.pins.Nodup ∧ ∀ p ∈ c.pins, p < Config.nPins

end Sys2Proof
end

