-- ==== Sys2Proof/Syntax.lean ====
section
/-! DEFINITION. The instructions: one constructor per row of spec/opcode_table.json. The first fourteen are
the host operations of level H (R57, R58), the rest the frames of level W that the receiver executes
(R65, R130 to R140, R100, R101). `writeString` has no row: it is a list of `putc` (R74). -/

namespace Sys2Proof

inductive Instr where
  /-- `INIT` (R97) -/
  | init
  /-- `CMD b` (R93) -/
  | cmd (b : Byte)
  /-- `NPAIR b` (R91) -/
  | npair (b : Byte)
  /-- `NIBC n` (R92) -/
  | nibc (n : Nibble)
  /-- `PUTC b` (R109) -/
  | putc (b : Byte)
  /-- `POS c, r` (R114) -/
  | pos (c : Byte) (r : BitVec 4)
  /-- `CLEAR` (R118) -/
  | clear
  /-- `HOME` (R120) -/
  | home
  /-- `DISP e` (R124) -/
  | disp (e : Bool)
  /-- `CURS e` (R125) -/
  | curs (e : Bool)
  /-- `BLINK e` (R126) -/
  | blink (e : Bool)
  /-- `PINF p, m` (R81) -/
  | pinf (p : BitVec 6) (m : PinFn)
  /-- `PINW p, l` (R82) -/
  | pinw (p : BitVec 6) (l : Level)
  /-- `PINR p` (R83) -/
  | pinr (p : BitVec 6)
  /-- `LCD_CLEAR` (R131, R146) -/
  | lcdClear
  /-- `LCD_HOME` (R132, R147) -/
  | lcdHome
  /-- `LCD_ENTRY ID SH` (R133, R148) -/
  | lcdEntry (id sh : Bool)
  /-- `LCD_CTRL D C B` (R134, R149) -/
  | lcdCtrl (d c b : Bool)
  /-- `LCD_CDSHIFT SC RL` (R135, R151) -/
  | lcdCdshift (sc rl : Bool)
  /-- `LCD_FUNC DL N F` (R136, R150) -/
  | lcdFunc (dl n f : Bool)
  /-- `LCD_DDRAM a` (R139) -/
  | lcdDdram (a : BitVec 7)
  /-- `LCD_DATA v` (R140, R143) -/
  | lcdData (v : Byte)
  /-- `LCD_FUNC8_NIBBLE` (R100): the handshake latch (Low, 0x3) -/
  | lcdFunc8Nibble
  /-- `LCD_FUNC4_NIBBLE` (R101): the handshake latch (Low, 0x2) -/
  | lcdFunc4Nibble
deriving DecidableEq, Repr

/-- `PUTS text` (R74): one `PUTC` per byte, first byte first. -/
def Instr.puts (text : List Byte) : List Instr := text.map Instr.putc

end Sys2Proof
end

