-- ==== Sys2Proof/WellFormed.lean ====
section
/-! DEFINITION. The one check on operands that the types do not make: a pin id is in `0 .. N_PINS - 1`
(R45, R59). An ill-formed instruction still decodes; running it is `refused(BadPin)` (R161). -/

namespace Sys2Proof

/-- A pin id names a pin (R45). -/
abbrev PinOk (p : BitVec 6) : Prop := p.toNat < Config.nPins

/-- The instruction's operands are all in range. -/
def Instr.wellFormed : Instr → Bool
  | .pinf p _ => decide (PinOk p)
  | .pinw p _ => decide (PinOk p)
  | .pinr p => decide (PinOk p)
  | .init => true
  | .cmd _ => true
  | .npair _ => true
  | .nibc _ => true
  | .putc _ => true
  | .pos _ _ => true
  | .clear => true
  | .home => true
  | .disp _ => true
  | .curs _ => true
  | .blink _ => true
  | .lcdClear => true
  | .lcdHome => true
  | .lcdEntry _ _ => true
  | .lcdCtrl _ _ _ => true
  | .lcdCdshift _ _ => true
  | .lcdFunc _ _ _ => true
  | .lcdDdram _ => true
  | .lcdData _ => true
  | .lcdFunc8Nibble => true
  | .lcdFunc4Nibble => true

end Sys2Proof
end

