-- ==== Sys2Proof/Decode.lean ====
section
/-! DEFINITION. Encodings (30_encoding.md). A code word is one of four formats of the opcode table: a 16-bit
host request (HOSTOP16, R56, R58), a command byte (RS Low, LCDCMD8, R65), a data byte (RS High, LCDDATA8,
R140) or one handshake nibble (RS Low, LCDNIB4, R100, R101). Decoding is total and rejects by name. -/

namespace Sys2Proof

/-- A code word with its format. Which format a word has is not written in its bits: the host port carries
requests, and on the wire RS and the receiver's mode decide (R55, R63, R64). -/
inductive Code where
  | request (w : BitVec 16)
  | command (v : Byte)
  | data (v : Byte)
  | nibble (n : Nibble)
deriving DecidableEq, Repr

/-- Why a code word is no instruction. -/
inductive Reject where
  /-- op 0xE, 0xF or a must-be-zero bit set (R59) -/
  | reservedRequest
  /-- a byte that matches no row of the command table (R72) -/
  | reservedCommand
  /-- a single nibble that is no handshake write (R100, R101) -/
  | notHandshake
deriving DecidableEq, Repr

/-- Bit 1 of a mode operand is Output (R58). -/
def PinFn.ofBit (b : Bool) : PinFn := if b then .output else .input

def PinFn.bit : PinFn → Bool
  | .input => false
  | .output => true

/-- A host request word (R58): `op = req[15:12]`; every bit of `req[11:0]` a row does not name is 0. -/
def decodeRequest (w : BitVec 16) : Option Instr :=
  let low := w.extractLsb' 0 12
  let mid := w.extractLsb' 8 4
  let b := w.extractLsb' 0 8
  let p := w.extractLsb' 0 6
  let pinZeros := w.extractLsb' 9 3 = 0#3 ∧ w.extractLsb' 6 2 = 0#2
  match (w.extractLsb' 12 4).toNat with
  | 0x0 => if low = 0 then some .init else none
  | 0x1 => if mid = 0 then some (.cmd b) else none
  | 0x2 => if mid = 0 then some (.npair b) else none
  | 0x3 => if w.extractLsb' 4 8 = 0#8 then some (.nibc (w.extractLsb' 0 4)) else none
  | 0x4 => if mid = 0 then some (.putc b) else none
  | 0x5 => some (.pos b mid)
  | 0x6 => if low = 0 then some .clear else none
  | 0x7 => if low = 0 then some .home else none
  | 0x8 => if w.extractLsb' 1 11 = 0#11 then some (.disp (w.getLsbD 0)) else none
  | 0x9 => if w.extractLsb' 1 11 = 0#11 then some (.curs (w.getLsbD 0)) else none
  | 0xA => if w.extractLsb' 1 11 = 0#11 then some (.blink (w.getLsbD 0)) else none
  | 0xB => if pinZeros then some (.pinf p (PinFn.ofBit (w.getLsbD 8))) else none
  | 0xC => if pinZeros then some (.pinw p (w.getLsbD 8)) else none
  | 0xD => if w.extractLsb' 6 6 = 0#6 then some (.pinr p) else none
  | _ => none

/-- A flag of a command byte is set. -/
def hasFlag (v flag : Byte) : Bool := v &&& flag != 0

/-- A command byte (R65): a fixed code is matched whole, a base code under the strict mask that leaves free exactly
its flag bits, a DDRAM address by its base code; the first row that matches. Under the codes of R8 these are the
matches and masks of R65's table. -/
def decodeCommandWith (k : Codes) (v : Byte) : Option Instr :=
  if v = k.clear then some .lcdClear
  else if v = k.home then some .lcdHome
  else if v &&& ~~~(k.entryId ||| k.entrySh) = k.entry then some (.lcdEntry (hasFlag v k.entryId) (hasFlag v k.entrySh))
  else if v &&& ~~~(k.ctrlD ||| k.ctrlC ||| k.ctrlB) = k.ctrl then
    some (.lcdCtrl (hasFlag v k.ctrlD) (hasFlag v k.ctrlC) (hasFlag v k.ctrlB))
  else if v &&& ~~~(k.cdshiftSc ||| k.cdshiftRl) = k.cdshift then
    some (.lcdCdshift (hasFlag v k.cdshiftSc) (hasFlag v k.cdshiftRl))
  else if v &&& ~~~(k.funcDl ||| k.funcN ||| k.funcF) = k.func then
    some (.lcdFunc (hasFlag v k.funcDl) (hasFlag v k.funcN) (hasFlag v k.funcF))
  else if v &&& k.ddram = k.ddram then some (.lcdDdram (v.extractLsb' 0 7))
  else none

/-- A command byte under the codes of R8. -/
def decodeCommand (v : Byte) : Option Instr := decodeCommandWith Config.codes v

/-- A single handshake nibble (R100, R101): "The count 3 and the value are therefore not parameters". -/
def decodeNibble (n : Nibble) : Option Instr :=
  if n = 0x3 then some .lcdFunc8Nibble
  else if n = 0x2 then some .lcdFunc4Nibble
  else none

def orReject (why : Reject) : Option Instr → Except Reject Instr
  | some i => .ok i
  | none => .error why

/-- The instruction a code word stands for under the codes `k`, or the name of the reason it stands for none. -/
def decodeWith (k : Codes) : Code → Except Reject Instr
  | .request w => orReject .reservedRequest (decodeRequest w)
  | .command v => orReject .reservedCommand (decodeCommandWith k v)
  | .data v => .ok (.lcdData v)
  | .nibble n => orReject .notHandshake (decodeNibble n)

/-- Decoding under the codes of R8, those of the opcode table. -/
def decode (c : Code) : Except Reject Instr := decodeWith Config.codes c

/-! The encoder, from the same tables (R58, R65, R69). -/

def bit1 (b : Bool) : BitVec 1 := BitVec.ofBool b

/-- A flag, or nothing. -/
def flagIf (b : Bool) (flag : Byte) : Byte := if b then flag else 0

/-- The code word of an instruction under the codes `k`. -/
def encodeWith (k : Codes) : Instr → Code
  | .init => .request 0x0000
  | .cmd b => .request (0x10#8 ++ b)
  | .npair b => .request (0x20#8 ++ b)
  | .nibc n => .request (0x300#12 ++ n)
  | .putc b => .request (0x40#8 ++ b)
  | .pos c r => .request (0x5#4 ++ r ++ c)
  | .clear => .request 0x6000
  | .home => .request 0x7000
  | .disp e => .request (0x4000#15 ++ bit1 e)
  | .curs e => .request (0x4800#15 ++ bit1 e)
  | .blink e => .request (0x5000#15 ++ bit1 e)
  | .pinf p m => .request (0x58#7 ++ bit1 m.bit ++ 0#2 ++ p)
  | .pinw p l => .request (0x60#7 ++ bit1 l ++ 0#2 ++ p)
  | .pinr p => .request (0x340#10 ++ p)
  | .lcdClear => .command k.clear
  | .lcdHome => .command k.home
  | .lcdEntry i h => .command (k.entry ||| flagIf i k.entryId ||| flagIf h k.entrySh)
  | .lcdCtrl d c b => .command (k.ctrl ||| flagIf d k.ctrlD ||| flagIf c k.ctrlC ||| flagIf b k.ctrlB)
  | .lcdCdshift sc rl => .command (k.cdshift ||| flagIf sc k.cdshiftSc ||| flagIf rl k.cdshiftRl)
  | .lcdFunc dl n f => .command (k.func ||| flagIf dl k.funcDl ||| flagIf n k.funcN ||| flagIf f k.funcF)
  | .lcdDdram a => .command (k.ddram ||| a.zeroExtend 8)
  | .lcdData v => .data v
  | .lcdFunc8Nibble => .nibble 0x3
  | .lcdFunc4Nibble => .nibble 0x2

/-- Encoding under the codes of R8, those of the opcode table. -/
def encode (i : Instr) : Code := encodeWith Config.codes i

/-! The rows of opcode_table.json: `match` and `mask` of each instruction, widened with zeros to 16 bits. -/

/-- One row's match and mask. -/
structure Row where
  pattern : BitVec 16
  mask    : BitVec 16
deriving DecidableEq, Repr

/-- The row of the opcode table that an instruction belongs to. -/
def Instr.row : Instr → Row
  | .init => ⟨0x0000, 0xFFFF⟩
  | .cmd _ => ⟨0x1000, 0xFF00⟩
  | .npair _ => ⟨0x2000, 0xFF00⟩
  | .nibc _ => ⟨0x3000, 0xFFF0⟩
  | .putc _ => ⟨0x4000, 0xFF00⟩
  | .pos _ _ => ⟨0x5000, 0xF000⟩
  | .clear => ⟨0x6000, 0xFFFF⟩
  | .home => ⟨0x7000, 0xFFFF⟩
  | .disp _ => ⟨0x8000, 0xFFFE⟩
  | .curs _ => ⟨0x9000, 0xFFFE⟩
  | .blink _ => ⟨0xA000, 0xFFFE⟩
  | .pinf _ _ => ⟨0xB000, 0xFEC0⟩
  | .pinw _ _ => ⟨0xC000, 0xFEC0⟩
  | .pinr _ => ⟨0xD000, 0xFFC0⟩
  | .lcdClear => ⟨0x01, 0xFF⟩
  | .lcdHome => ⟨0x02, 0xFF⟩
  | .lcdEntry _ _ => ⟨0x04, 0xFC⟩
  | .lcdCtrl _ _ _ => ⟨0x08, 0xF8⟩
  | .lcdCdshift _ _ => ⟨0x10, 0xF3⟩
  | .lcdFunc _ _ _ => ⟨0x20, 0xE3⟩
  | .lcdDdram _ => ⟨0x80, 0x80⟩
  | .lcdData _ => ⟨0x00, 0x00⟩
  | .lcdFunc8Nibble => ⟨0x03, 0x0F⟩
  | .lcdFunc4Nibble => ⟨0x02, 0x0F⟩

/-- The bits of a code word, widened with zeros to 16. -/
def Code.bits : Code → BitVec 16
  | .request w => w
  | .command v => v.zeroExtend 16
  | .data v => v.zeroExtend 16
  | .nibble n => n.zeroExtend 16

/-- The format the host's table word has. The table gives eight bits to command bytes, data bytes and (in
whole bytes) handshake nibbles alike, and the formats overlap: DESIGN CHOICE (log 21), a byte that is a
command is read as the command, the byte 0x03 as the handshake nibble, every other byte as data. -/
def tableCode (nbits w : Nat) : Option Code :=
  if nbits = 16 then some (.request (BitVec.ofNat 16 w))
  else if nbits = 8 then
    match decodeCommand (BitVec.ofNat 8 w) with
    | some _ => some (.command (BitVec.ofNat 8 w))
    | none => if BitVec.ofNat 8 w = 0x03 then some (.nibble 0x3) else some (.data (BitVec.ofNat 8 w))
  else if nbits = 4 then some (.nibble (BitVec.ofNat 4 w))
  else none

/-- The instruction the decoder reads from a word numbered as the opcode table numbers it. -/
def decodeTableWord (nbits w : Nat) : Option Instr :=
  match tableCode nbits w with
  | none => none
  | some c =>
    match decode c with
    | .ok i => some i
    | .error _ => none

end Sys2Proof
end

