-- ==== Sys2Proof/Machine/State.lean ====
section
/-! DEFINITION. The state of the machine as plain data (10_state.md, 45_lcd_commands.md R141) and its reset
value (R28). INVENTORY.md's State section names the rule of every field. -/

namespace Sys2Proof.Machine

/-- `PHASE` (R16). -/
inductive Phase where
  | uninitialized
  | ready
  | fatal
deriving DecidableEq, Repr

/-- The fatal conditions (R157). `mapFail` is the external collaborator's and no operation raises it. -/
inductive FatalCode where
  | mapFail
  | allocFail
deriving DecidableEq, Repr

/-- The reasons a request is refused (R161), a closed list. -/
inductive Reason where
  | reservedRequest
  | wrongPhase
  | badPin
  | badConfig
  | busy
deriving DecidableEq, Repr

/-- What the host gets back (R13, R56, R60): `done` carries a level for `PINR` and nothing otherwise. -/
inductive Reply where
  | done (level : Option Level)
  | fatal (code : FatalCode)
  | refused (why : Reason)
deriving DecidableEq, Repr

/-- An item of `QUEUE` (R20): the four micro-operations of R12, the state updates that the operation rules
place between them, and `finish`, with which the host's call returns. Log 2: an update is an item of its own. -/
inductive Action where
  | setFn (p : Nat) (m : PinFn)
  | writePin (p : Nat) (l : Level)
  | readPin (p : Nat)
  | delay (n : Nat)
  | record
  | cursor (x y : Nat)
  | control (c : BitVec 3)
  | phase (ph : Phase)
  | finish
deriving DecidableEq, Repr

/-- A pin-level event of the trace (R11). -/
inductive Event where
  | fsel (p : Nat) (m : PinFn)
  | pin (p : Nat) (l : Level)
  | read (p : Nat) (l : Level)
  | delay (n : Nat)
deriving DecidableEq, Repr

/-- A register-level event of the trace (R11): `RR(w, v)`, `RW(w, v)`, `DELAY(n)`. -/
inductive BusEvent where
  | rr (w : Nat) (v : Word)
  | rw (w : Nat) (v : Word)
  | delay (n : Nat)
deriving DecidableEq, Repr

/-- What the receiver has taken from the lines and not yet executed (R62, R95, R143; log 15): one latch, one
latch while some LCD pin was no Output (R193), or a completed byte with the RS level of its two latches. -/
inductive Frame where
  | latch (rs : Level) (n : Nibble)
  | garbled
  | byte (rs : Level) (v : Byte)
deriving DecidableEq, Repr

/-- Cells of the receiver's DDRAM that hold a known byte, addresses strictly rising; an unlisted address is
an unknown cell (R141; log 19). -/
abbrev Memory := List Host.Cell

/-- The canonical form of a memory over the 7-bit DDRAM space (R53): addresses below 128, strictly rising.
No entry can equal what an unlisted address reads as, since that is no byte. -/
abbrev Memory.wf (m : Memory) : Prop :=
  m.Pairwise (fun a b => a.1 < b.1) ∧ ∀ x ∈ m, x.1 < 128

/-- The fields of a `Synced` receiver (R141); `none` is the spec's `unknown` (for `half`, its `none`). -/
structure Synced where
  half  : Option (Level × Nibble)
  ac    : Option (BitVec 7)
  ddram : Memory
  inc   : Option Bool
  multi : Option Bool
  ctl   : Option (BitVec 3)
deriving DecidableEq, Repr

/-- The reference receiver (R141). `sync = none` is `Unknown`. The other fields are what R148, R153, R155,
R187 and R193 need to be remembered between two latches. -/
structure Receiver where
  sync     : Option Synced
  /-- consecutive handshake latches (Low, 0x3) with their settling time, 0 to 3 (R155; log 16) -/
  progress : Nat
  /-- sum of the `DELAY`s since the last latch (R186) -/
  elapsed  : Nat
  /-- the sum the last latch requires before the next (R153, R187; log 17) -/
  due      : Nat
  /-- an LCD pin has been made Input since the last latch (R193; log 18) -/
  loose    : Bool
  /-- a display shift has been commanded (R148, R151, R154; log 20) -/
  shifted  : Bool
deriving DecidableEq, Repr

structure State where
  /-- `PHASE` (R16) -/
  phase   : Phase
  /-- the Display record's configuration fields (R17); `none` while the record does not exist -/
  disp    : Option Cfg
  /-- `CX` (R18) -/
  cx      : Nat
  /-- `CY` (R18) -/
  cy      : Nat
  /-- `CTL` (R19): bit 2 display on, bit 1 cursor visible, bit 0 cursor blink -/
  ctl     : BitVec 3
  /-- `QUEUE` (R20); the driver is idle when it is empty -/
  queue   : List Action
  /-- the pin-level trace, oldest first (R11); ghost -/
  trace   : List Event
  /-- the register-level trace, oldest first (R11); ghost -/
  bus     : List BusEvent
  /-- `FSEL[0..5]` (R21) -/
  fsel    : Vector Word 6
  /-- `OUT[0..53]`, bit `p` the latch of pin `p` (R22) -/
  out     : BitVec 54
  /-- the LCD controller (R25, R141) -/
  rx      : Receiver
  /-- the frame the receiver executes next (R143; log 15) -/
  wire    : Option Frame
  /-- the request words the host will present, next first (R56; log 1) -/
  host    : List (BitVec 16)
  /-- the last reply to the host, `none` before the first and while an operation runs (R56; log 28) -/
  resp    : Option Reply
  /-- `CFG` (R5), constant -/
  cfg     : Cfg
  /-- the record of R8, the offsets of R9, `CTL_RESET`, `INIT_TAIL` and `T_CLEAR_EXTRA_US` (R7 to R9, U20),
  constant -/
  par     : Params
  /-- `alloc_ok` (R98), the environment's answer -/
  allocOk : Bool
  /-- the model's own: the number of level reads made, the index of the next free value (log 8) -/
  draws   : Nat
deriving DecidableEq, Repr

/-- What stops the machine. -/
inductive Fault where
  /-- Raised by `readReg`, `writeReg`, `regRead` and `regWrite` for an access that the register map does not have (R37, R44; U6): an
  offset other than the twelve, a read of SET or CLR, a write of LEV. Safe: the model stops. -/
  | noSuchRegister (w : Nat)
deriving DecidableEq, Repr

/-- What the model gives no meaning. -/
inductive Refusal where
  /-- An instruction with no meaning yet; raised by `exec` alone. Safe. -/
  | notModelled (mnemonic : String)
  /-- Raised by the three pin micro-operations for a pin past 53 (R45, R81 to R83). A request for such a pin is
  answered `refused(BadPin)` before any micro-operation; only a state whose QUEUE or CFG no run makes gets
  here. Safe: the model stops. -/
  | pinOutOfRange (p : Nat)
deriving DecidableEq, Repr

/-- The three outcomes of a step. -/
abbrev Outcome := Host.Outcome State Fault Refusal

/-- The receiver right after reset: `Unknown` (R142). The bookkeeping fields are at zero (log 30). -/
def Receiver.reset : Receiver :=
  { sync := none, progress := 0, elapsed := 0, due := 0, loose := false, shifted := false }

/-- Reset (R28, R176) of a block with configuration `cfg` and parameters `par`, whose allocation will succeed or not,
over function words and output latches of any value: the process has started and the register block is mapped. The
cursor (log 7) and the counters have values the log names. -/
def State.resetOf (cfg : Cfg) (par : Params) (allocOk : Bool) (fsel : Vector Word 6) (out : BitVec 54) : State :=
  { phase := .uninitialized
    disp := none
    cx := 0
    cy := 0
    ctl := par.ctlReset
    queue := []
    trace := []
    bus := []
    fsel := fsel
    out := out
    rx := Receiver.reset
    wire := none
    host := []
    resp := none
    cfg := cfg
    par := par
    allocOk := allocOk
    draws := 0 }

/-- Reset with the values the log names for what the spec leaves open: `CFG` (log 10), the parameters (log 11),
`alloc_ok` (log 9), `FSEL` and `OUT` (log 6). -/
def State.reset : State :=
  State.resetOf Config.cfgEx Config.defaultParams true (Vector.replicate 6 0) 0

end Sys2Proof.Machine
end

