-- ==== Sys2Proof/Machine/Flags.lean ====
section
/-! DEFINITION. The block has no status flags (R27). Its one control mask is `CTL` (R19); here is how a toggle
changes it (R123), the command byte it makes (R68), and the numbers of the fatal conditions (R157). -/

namespace Sys2Proof.Machine

/-- `CTL` with the bits of `mask` set or cleared (R123); the bit takes the operand, it is not inverted (C2). -/
def setCtlBit (mask : BitVec 3) (e : Bool) (ctl : BitVec 3) : BitVec 3 :=
  if e then ctl ||| mask else ctl &&& ~~~mask

/-- The Display control command of a mask (R68). -/
def controlByte (k : Codes) (ctl : BitVec 3) : Byte := k.ctrl ||| ctl.zeroExtend 8

/-- A Display control flag as a mask of `CTL`, whose bits stand where the flags do (R19, R123). -/
def ctlMask (flag : Byte) : BitVec 3 := flag.truncate 3

/-- The three flags of a Display control command as a mask (R149). -/
def ctlOfFlags (d c b : Bool) : BitVec 3 := BitVec.ofBool d ++ BitVec.ofBool c ++ BitVec.ofBool b

/-- The code of a fatal condition (R157; D24). -/
def FatalCode.number : FatalCode → Nat
  | .mapFail => 1
  | .allocFail => 2

end Sys2Proof.Machine
end

