-- ==== Sys2Proof/Machine/Memory.lean ====
section
/-! DEFINITION. The operations on DDRAM (R53, R141): the one place where a cell is looked up or stored. -/

namespace Sys2Proof.Machine

/-- The byte of a cell, `none` for an unknown one. -/
def Memory.read : Memory → Nat → Option Byte
  | [], _ => none
  | (k, v) :: rest, a => if k = a then some v else Memory.read rest a

/-- Store a byte, keeping the addresses strictly rising. -/
def Memory.write : Memory → Nat → Byte → Memory
  | [], a, v => [(a, v)]
  | (k, x) :: rest, a, v =>
    if a < k then (a, v) :: (k, x) :: rest
    else if a = k then (a, v) :: rest
    else (k, x) :: Memory.write rest a v

/-- `n` cells from address `a` on, all holding `v`. -/
def Memory.fillFrom (a : Nat) (v : Byte) : Nat → Memory
  | 0 => []
  | n + 1 => (a, v) :: Memory.fillFrom (a + 1) v n

/-- Every cell of DDRAM holds `v` (R146). -/
def Memory.filled (v : Byte) : Memory := Memory.fillFrom 0 v 128

/-- Every cell unknown (R143). -/
def Memory.unknown : Memory := []

end Sys2Proof.Machine
end

