-- ==== Sys2Proof/Machine/Operands.lean ====
section
/-! DEFINITION. Operand forms: register offsets and bit positions from a pin id (R70, R86), nibbles of a byte
(R62), bits of a latch word (R41, R42), the DDRAM address of a position (R53) and the command bytes the
driver assembles (R67, R69). -/

namespace Sys2Proof.Machine

/-- `fsel_reg(p)` (R70). -/
def fselReg (p : Nat) : Nat := p / 10

/-- `fsel_shift(p)` (R70). -/
def fselShift (p : Nat) : Nat := 3 * (p % 10)

/-- `bank(p)` (R70). -/
def pinBank (p : Nat) : Nat := p / 32

/-- `bit(p)` (R70). -/
def pinBit (p : Nat) : Nat := p % 32

/-- The word with the one bit of pin `p` in its bank (R82). -/
def pinMask (p : Nat) : Word := 1#32 <<< pinBit p

/-- The function code of a pin function (R9, R81). -/
def fnCode : PinFn → Word
  | .input => Config.fselInput
  | .output => Config.fselOutput

/-- The field of pin `p` in its function-select word (R21). -/
def fieldOf (p : Nat) (w : Word) : BitVec 3 := w.extractLsb' (fselShift p) 3

/-- The word with the field of pin `p` replaced (R81). -/
def withField (p : Nat) (m : PinFn) (old : Word) : Word :=
  (old &&& ~~~(0b111#32 <<< fselShift p)) ||| (fnCode m <<< fselShift p)

/-- The latch bits that a word written to bank `b` names: bit `i` is pin `32b + i`, pins past 53 fall away
(R41, R42). -/
def bankBits (b : Nat) (v : Word) : BitVec 54 := (v.zeroExtend 64 <<< (32 * b)).truncate 54

/-- `n` bits, bit `i` being `f i`. -/
def bitsOf (f : Nat → Bool) : (n : Nat) → BitVec n
  | 0 => 0#0
  | n + 1 => BitVec.cons (f n) (bitsOf f n)

/-- `b[7:4]` and `b[3:0]` (R62). -/
def hiNibble (b : Byte) : Nibble := b.extractLsb' 4 4
def loNibble (b : Byte) : Nibble := b.extractLsb' 0 4

/-- The byte whose first latched nibble is `hi` (R62, R143). -/
def joinNibbles (hi lo : Nibble) : Byte := hi ++ lo

/-- The nibble on data lines `D3, D2, D1, D0` (R90). -/
def dataNibble (c : Cfg) (out : BitVec 54) : Nibble := bitsOf (fun i => out.getLsbD (c.dataPin i)) 4

/-- `ddram_addr(c, r)` (R53). -/
def ddramAddr (k : Codes) (c r : Nat) : Nat := k.row0Base + r * k.rowStride + c

/-- The Set DDRAM address command of a position (R67). -/
def positionByte (k : Codes) (c r : Nat) : Byte := k.ddram ||| BitVec.ofNat 8 (ddramAddr k c r)

/-- The function-set bytes the driver sends (R69). -/
def func8Byte (k : Codes) : Byte := k.func ||| k.funcDl
def func4Byte (k : Codes) : Byte := k.func
def funcMultiByte (k : Codes) : Byte := k.func ||| k.funcN

/-- A position is outside the configured bounds (R115), compared unsigned. -/
def outOfBounds (cfg : Cfg) (c r : Nat) : Bool := cfg.cols ≤ c || cfg.rows ≤ r

/-- Where the software cursor stands after one character (R109, R110): the column reaching `CFG.COLS` wraps to
0 and moves on one row, the row reaching `CFG.ROWS` wraps to 0. The flag says whether the column wrapped. -/
def advance (cfg : Cfg) (x y : Nat) : Nat × Nat × Bool :=
  if x + 1 = cfg.cols then (0, if y + 1 = cfg.rows then 0 else y + 1, true)
  else (x + 1, y, false)

end Sys2Proof.Machine
end

