-- ==== Sys2Proof/Machine/Receiver.lean ====
section
/-! DEFINITION. The reference receiver (45_lcd_commands.md part 2): the effect of each command and of a data
byte on a `Synced` receiver, one step per latch, and the receiver as a run over latches and waits. -/

namespace Sys2Proof.Machine

/-- What R155 leaves after the handshake: `half = none`, every other field unknown. -/
def Synced.fresh : Synced :=
  { half := none, ac := none, ddram := Memory.unknown, inc := none, multi := none, ctl := none }

/-- Nothing is known any more (R141). -/
def Receiver.lose (r : Receiver) : Receiver := { r with sync := none }

/-- The wait a completed command byte requires before the next latch (R187 O4, O5): `T_CMD_US`, and for Clear
display and Return home no less than `T_DEV_CLEARHOME_US`. -/
def commandSettle (k : Codes) (v : Byte) : Nat :=
  if v = k.clear ∨ v = k.home then max Config.tCmdUs Config.tDevClearHomeUs
  else Config.tCmdUs

/-- The wait after Clear display and Return home (R187 O5). -/
def clearHomeSettle : Nat := max Config.tCmdUs Config.tDevClearHomeUs

/-- A command executed by a `Synced` receiver makes it busy for `settle` (R25 (f), R138); an `Unknown` one
absorbs it (R143). -/
def Receiver.command (settle : Nat) (f : Synced → Option Synced) (r : Receiver) : Receiver :=
  match r.sync with
  | none => r
  | some y => { r with sync := f y, due := settle }

/-- A display shift has been commanded to a `Synced` receiver (R148, R151, R154). -/
def Receiver.shift (yes : Bool) (r : Receiver) : Receiver :=
  { r with shifted := r.shifted || (yes && r.sync.isSome) }

/-- Clear display (R146). -/
def Receiver.clearDisplay (k : Codes) (r : Receiver) : Receiver :=
  r.command clearHomeSettle fun y =>
    some { y with ac := some (BitVec.ofNat 7 k.row0Base), ddram := Memory.filled Config.rxBlank }

/-- Return home (R147). -/
def Receiver.returnHome (k : Codes) (r : Receiver) : Receiver :=
  r.command clearHomeSettle fun y => some { y with ac := some (BitVec.ofNat 7 k.row0Base) }

/-- Entry mode set (R148). -/
def Receiver.entryMode (id sh : Bool) (r : Receiver) : Receiver :=
  (r.shift sh).command Config.tCmdUs fun y => some { y with inc := some id }

/-- Display control (R149). -/
def Receiver.displayControl (c : BitVec 3) (r : Receiver) : Receiver :=
  r.command Config.tCmdUs fun y => some { y with ctl := some c }

/-- Cursor/display shift (R151): the address counter becomes unknown. -/
def Receiver.cursorShift (sc : Bool) (r : Receiver) : Receiver :=
  (r.shift sc).command Config.tCmdUs fun y => some { y with ac := none }

/-- Function set (R150): `DL = 1` as a full byte loses the receiver; the font flag is not modelled. -/
def Receiver.functionSet (dl n : Bool) (r : Receiver) : Receiver :=
  r.command Config.tCmdUs fun y => if dl then none else some { y with multi := some n }

/-- Set DDRAM address (R139). -/
def Receiver.setAddress (a : BitVec 7) (r : Receiver) : Receiver :=
  r.command Config.tCmdUs fun y => some { y with ac := some a }

/-- A data byte (R140, R143): stored at the address counter, all cells unknown where that is unknown; the
counter advances modulo 128 under auto-increment and is unknown otherwise. No wait is owed (R187 O6). -/
def Receiver.data (v : Byte) (r : Receiver) : Receiver :=
  r.command 0 fun y =>
    some { y with
      ddram := match y.ac with
        | none => Memory.unknown
        | some a => y.ddram.write a.toNat v
      ac := if y.inc = some true then y.ac.map (· + 1) else none }

/-- The receiver executes a wire instruction under the codes `k`, of which it uses `ROW0_BASE`; host operations
are not the receiver's. The two handshake nibbles are latches, not bytes, and are executed by `takeLatch`. -/
def Receiver.execute (k : Codes) : Instr → Receiver → Receiver
  | .lcdClear, r => r.clearDisplay k
  | .lcdHome, r => r.returnHome k
  | .lcdEntry id sh, r => r.entryMode id sh
  | .lcdCtrl d c b, r => r.displayControl (ctlOfFlags d c b)
  | .lcdCdshift sc _, r => r.cursorShift sc
  | .lcdFunc dl n _, r => r.functionSet dl n
  | .lcdDdram a, r => r.setAddress a
  | .lcdData v, r => r.data v
  | .lcdFunc8Nibble, r => r
  | .lcdFunc4Nibble, r => r
  | .init, r => r
  | .cmd _, r => r
  | .npair _, r => r
  | .nibc _, r => r
  | .putc _, r => r
  | .pos _ _, r => r
  | .clear, r => r
  | .home, r => r
  | .disp _, r => r
  | .curs _, r => r
  | .blink _, r => r
  | .pinf _ _, r => r
  | .pinw _ _, r => r
  | .pinr _, r => r

/-- A completed byte (R143): a command with RS Low, data with RS High; a reserved command byte loses the
receiver (R152). -/
def Receiver.takeByte (k : Codes) (rs : Level) (v : Byte) (r : Receiver) : Receiver :=
  if rs then r.data v
  else match decodeCommandWith k v with
    | some i => r.execute k i
    | none => r.lose

/-- How many handshake latches in a row count so far: none if an LCD pin was loose since the last latch
(R155, R193; log 16). -/
def Receiver.counted (r : Receiver) : Nat := if r.loose then 0 else r.progress

/-- The count after a latch (R155): a (Low, 0x3) counts on when the one before it had `T_INIT_US`, and starts
the count otherwise; any other latch ends it. -/
def Receiver.nextProgress (rs : Level) (n : Nibble) (r : Receiver) : Nat :=
  if rs = false ∧ n = 0x3 then
    if 0 < r.counted ∧ Config.tInitUs ≤ r.elapsed then min 3 (r.counted + 1) else 1
  else 0

/-- The fourth handshake latch (R155): (Low, 0x2) after three counted (Low, 0x3) and `T_INIT_US`. -/
def Receiver.handshakeEnds (rs : Level) (n : Nibble) (r : Receiver) : Bool :=
  rs == false && n == 0x2 && r.counted == 3 && decide (Config.tInitUs ≤ r.elapsed)

/-- Pairing of nibbles (R143, R145): the receiver after the latch and the byte it completes, if any. -/
def Receiver.pair (rs : Level) (n : Nibble) (r : Receiver) : Receiver × Option (Level × Byte) :=
  match r.sync with
  | none => (r, none)
  | some y =>
    match y.half with
    | none => ({ r with sync := some { y with half := some (rs, n) } }, none)
    | some (rs1, n1) =>
      if rs1 = rs then ({ r with sync := some { y with half := none } }, some (rs, joinNibbles n1 n))
      else (r.lose, none)

/-- What the receiver is when the latch has arrived and is not yet paired: `Unknown` if it came before the
last one's settling time (R153) or an LCD pin was loose (R193). The clock of R186 starts again. -/
def Receiver.arrive (rs : Level) (n : Nibble) (r : Receiver) : Receiver :=
  { sync := if r.elapsed < r.due ∨ r.loose then none else r.sync
    progress := r.nextProgress rs n
    elapsed := 0
    due := 0
    loose := false
    shifted := r.shifted }

/-- The receiver right after the fourth handshake latch (R155, R187 O3b). -/
def Receiver.synchronise (r : Receiver) : Receiver :=
  { r with sync := some Synced.fresh, progress := 0, elapsed := 0, due := Config.tCmdUs, loose := false }

/-- One latch (R143, R153, R155): the receiver after it and the byte it completes. -/
def Receiver.takeLatch (rs : Level) (n : Nibble) (r : Receiver) : Receiver × Option (Level × Byte) :=
  if r.handshakeEnds rs n then (r.synchronise, none)
  else (r.arrive rs n).pair rs n

/-- A latch while some LCD pin is no Output: its level is any value, so nothing is known after it (R193). -/
def Receiver.takeGarbled (r : Receiver) : Receiver :=
  { r with sync := none, progress := 0, elapsed := 0, due := 0, loose := false }

/-- Time passes: a `DELAY(n)` (R186). -/
def Receiver.wait (n : Nat) (r : Receiver) : Receiver := { r with elapsed := r.elapsed + n }

/-- A latch together with the byte it completes (R143). -/
def Receiver.latch (k : Codes) (rs : Level) (n : Nibble) (r : Receiver) : Receiver :=
  match r.takeLatch rs n with
  | (r', none) => r'
  | (r', some (rs', v)) => r'.takeByte k rs' v

/-- What reaches the receiver (R141): the latch sequence, a latch of undriven lines (R193) among it, with the
`DELAY`s between. -/
inductive RxInput where
  | latch (rs : Level) (n : Nibble)
  | garbled
  | wait (n : Nat)
deriving DecidableEq, Repr

/-- The receiver over a sequence of inputs, first one first (R141, R143). -/
def Receiver.feed (k : Codes) : List RxInput → Receiver → Receiver
  | [], r => r
  | .latch rs n :: rest, r => Receiver.feed k rest (r.latch k rs n)
  | .garbled :: rest, r => Receiver.feed k rest r.takeGarbled
  | .wait n :: rest, r => Receiver.feed k rest (r.wait n)

/-- The receiver executes the frame it has taken from the lines; a latch may leave a completed byte as the
next frame. `s.wire` is the frame's own place and has been emptied. -/
def receiveFrame (f : Frame) (s : State) : State :=
  match f with
  | .latch rs n =>
    { s with
      rx := (s.rx.takeLatch rs n).1
      wire := (s.rx.takeLatch rs n).2.map fun b => Frame.byte b.1 b.2 }
  | .garbled => { s with rx := s.rx.takeGarbled }
  | .byte rs v => { s with rx := s.rx.takeByte s.par.codes rs v }

/-- The receiver catches up: it executes the pending frame and the byte that may complete (R4: it acts at the
falling edge, before the driver goes on). -/
def settle (s : State) : State :=
  match s.wire with
  | none => s
  | some f =>
    let s1 := receiveFrame f { s with wire := none }
    match s1.wire with
    | none => s1
    | some g => receiveFrame g { s1 with wire := none }

end Sys2Proof.Machine
end

