-- ==== Sys2Proof/Machine/Ops.lean ====
section
/-! DEFINITION. The named operations over registers and pins (R12, R36 to R45, R81 to R83), the performing of
one QUEUE item (R20), the running of a whole operation, and the outcomes of a request: done, refused (R161),
fatal (R158). There is no return from a fatal condition (R159). -/

namespace Sys2Proof.Machine

/-- Go on with `k` where there is a next state. -/
def andThen (o : Outcome) (k : State → Outcome) : Outcome :=
  match o with
  | .next s => k s
  | .fault f => .fault f
  | .refused r => .refused r

/-! ### The register block -/

/-- The twelve registers the block accesses (R37). -/
inductive Reg where
  | fsel (k : Nat)
  | set (b : Nat)
  | clr (b : Nat)
  | lev (b : Nat)
deriving DecidableEq, Repr

/-- The word offset of a register (R9, R37). -/
def Reg.wordOf (o : Offsets) : Reg → Nat
  | .fsel k => o.fselW + k
  | .set b => o.setW + b
  | .clr b => o.clrW + b
  | .lev b => o.levW + b

/-- The register map (R37): what stands at a word offset of the span. -/
def regAt (o : Offsets) (w : Nat) : Option Reg :=
  if o.spanWords ≤ w then none
  else if o.fselW ≤ w ∧ w < o.fselW + 6 then some (.fsel (w - o.fselW))
  else if o.setW ≤ w ∧ w < o.setW + 2 then some (.set (w - o.setW))
  else if o.clrW ≤ w ∧ w < o.clrW + 2 then some (.clr (w - o.clrW))
  else if o.levW ≤ w ∧ w < o.levW + 2 then some (.lev (w - o.levW))
  else none

/-- `FSEL[k]` (R40). -/
def State.fselWord (s : State) (k : Nat) : Word := s.fsel[k]?.getD 0

/-- The function field of pin `p` (R21). -/
def State.pinField (s : State) (p : Nat) : BitVec 3 := fieldOf p (s.fselWord (fselReg p))

/-- Pin `p` is an Output (R21, R24). -/
def State.isOutput (s : State) (p : Nat) : Bool := s.pinField p == (fnCode .output).truncate 3

/-- All six LCD pins are Output. -/
def State.allDriven (s : State) : Bool := s.cfg.pins.all s.isOutput

/-- `level(p)` (R24) for the free bits `draw`: the latch of an Output pin, any value otherwise. Past the last
pin every bit is free (R43). -/
def State.level (s : State) (draw : BitVec 64) (p : Nat) : Level :=
  if p < Config.nPins ∧ s.isOutput p then s.out.getLsbD p else draw.getLsbD p

/-- What `LEV[b]` reads as (R43). -/
def State.levWord (s : State) (draw : BitVec 64) (b : Nat) : Word :=
  bitsOf (fun i => s.level draw (32 * b + i)) 32

/-- Reading a register (R40, R43) with what follows it: one `RR` event at the register's offset. Reading `LEV` uses
the next free value. -/
def readReg (r : Reg) (s : State) (k : Word → State → Outcome) : Outcome :=
  match r with
  | .fsel i => k (s.fselWord i) { s with bus := s.bus ++ [.rr (r.wordOf s.par.offsets) (s.fselWord i)] }
  | .lev b =>
    k (s.levWord (Config.levelDraw s.draws) b)
      { s with
        bus := s.bus ++ [.rr (r.wordOf s.par.offsets) (s.levWord (Config.levelDraw s.draws) b)]
        draws := s.draws + 1 }
  | .set _ => .fault (.noSuchRegister (r.wordOf s.par.offsets))
  | .clr _ => .fault (.noSuchRegister (r.wordOf s.par.offsets))

/-- Writing a register (R40 to R42): one `RW` event at the register's offset. -/
def writeReg (r : Reg) (v : Word) (s : State) : Outcome :=
  match r with
  | .fsel i =>
    .next { s with fsel := s.fsel.setIfInBounds i v, bus := s.bus ++ [.rw (r.wordOf s.par.offsets) v] }
  | .set b => .next { s with out := s.out ||| bankBits b v, bus := s.bus ++ [.rw (r.wordOf s.par.offsets) v] }
  | .clr b => .next { s with out := s.out &&& ~~~bankBits b v, bus := s.bus ++ [.rw (r.wordOf s.par.offsets) v] }
  | .lev _ => .fault (.noSuchRegister (r.wordOf s.par.offsets))

/-- `RegRead(w)` (R12): the register that stands at the offset, if one does. The micro-operations name their
register and read it at its offset (`Reg.wordOf`); under the offsets of R9 that is this access (log 13). -/
def regRead (w : Nat) (s : State) (k : Word → State → Outcome) : Outcome :=
  match regAt s.par.offsets w with
  | some r => readReg r s k
  | none => .fault (.noSuchRegister w)

/-- `RegWrite(w, v)` (R12). -/
def regWrite (w : Nat) (v : Word) (s : State) : Outcome :=
  match regAt s.par.offsets w with
  | some r => writeReg r v s
  | none => .fault (.noSuchRegister w)

/-! ### The micro-operations -/

/-- Append an event to the trace (R11). -/
def State.emit (e : Event) (s : State) : State := { s with trace := s.trace ++ [e] }

/-- An LCD pin made Input is no longer driven: the receiver is lost at the next latch (R193; log 18). -/
def State.loosen (p : Nat) (m : PinFn) (s : State) : State :=
  { s with rx := { s.rx with loose := s.rx.loose || (m == .input && s.cfg.pins.contains p) } }

/-- `setPinFunction(p, m)` (R81): one register read, one register write, one event, in one step (R50). -/
def setPinFunction (p : Nat) (m : PinFn) (s : State) : Outcome :=
  if Config.nPins ≤ p then .refused (.pinOutOfRange p)
  else
    readReg (.fsel (fselReg p)) s fun old s1 =>
      andThen (writeReg (.fsel (fselReg p)) (withField p m old) s1) fun s2 =>
        .next ((s2.loosen p m).emit (.fsel p m))

/-- What the receiver samples at a falling edge (R95): RS and the data lines as their latches drive them; no
value is known if an LCD pin is not an Output (R193). -/
def State.sample (s : State) : Frame :=
  if s.allDriven then .latch (s.out.getLsbD s.cfg.rs) (dataNibble s.cfg s.out) else .garbled

/-- Writing `l` to pin `p` makes the strobe fall (R95): it was High and is driven Low. -/
def State.strobeFalls (p : Nat) (l : Level) (s : State) : Bool :=
  p == s.cfg.strb && !l && s.out.getLsbD p

/-- `writePinLevel(p, l)` (R82): one register write and one event; the strobe's falling edge hands the lines
to the receiver (R62, R88). -/
def writePinLevel (p : Nat) (l : Level) (s : State) : Outcome :=
  if Config.nPins ≤ p then .refused (.pinOutOfRange p)
  else
    andThen (writeReg (if l then .set (pinBank p) else .clr (pinBank p)) (pinMask p) s) fun s1 =>
      .next ({ s1 with wire := if s.strobeFalls p l then some s1.sample else s1.wire }.emit (.pin p l))

/-- `readPinLevel(p)` (R83): one register read, one event, and the level is the reply. -/
def readPinLevel (p : Nat) (s : State) : Outcome :=
  if Config.nPins ≤ p then .refused (.pinOutOfRange p)
  else
    readReg (.lev (pinBank p)) s fun v s1 =>
      .next ({ s1 with resp := some (.done (some (v &&& pinMask p != 0))) }.emit
        (.read p (v &&& pinMask p != 0)))

/-- `Delay(n)` (R168): one event at both levels of the trace; the receiver's clock runs on (R186). -/
def delay (n : Nat) (s : State) : State :=
  { s with trace := s.trace ++ [.delay n], bus := s.bus ++ [.delay n], rx := s.rx.wait n }

/-- Perform one item of QUEUE (R20). -/
def perform (a : Action) (s : State) : Outcome :=
  match a with
  | .setFn p m => setPinFunction p m s
  | .writePin p l => writePinLevel p l s
  | .readPin p => readPinLevel p s
  | .delay n => .next (delay n s)
  | .record => .next { s with disp := some s.cfg }
  | .cursor x y => .next { s with cx := x, cy := y }
  | .control c => .next { s with ctl := c }
  | .phase ph => .next { s with phase := ph }
  | .finish => .next { s with resp := some (.done none) }

/-- Perform a list of items in order, the receiver catching up after each (R4, R47, R20). -/
def drain : List Action → State → Outcome
  | [], s => .next (settle s)
  | a :: rest, s => andThen (perform a (settle s)) (drain rest)

/-! ### Outcomes of a request -/

/-- Run an accepted operation to completion (R20: one big step, the same trace and the same idle state as the
items one by one; log 2). While it runs there is no reply. -/
def operate (acts : List Action) (s : State) : Outcome := drain acts { s with resp := none }

/-- `refuse(why)` (R161): no state change, no event; the host gets the reason (log 3). -/
def turnAway (why : Reason) (s : State) : Outcome := .next { s with resp := some (.refused why) }

/-- `fatal(code)` (R158): `PHASE <- Fatal`, QUEUE emptied, nothing saved, nothing emitted (log 4). -/
def goFatal (code : FatalCode) (s : State) : Outcome :=
  .next { s with phase := .fatal, queue := [], resp := some (.fatal code) }

/-- The checks every request meets first, in the order of R164: Busy, then WrongPhase. (A reserved word never
becomes an instruction; Fetch.lean answers it.) -/
def request (admits : Phase → Bool) (body : State → Outcome) (s : State) : Outcome :=
  if s.queue ≠ [] then turnAway .busy s
  else if admits s.phase = false then turnAway .wrongPhase s
  else body s

/-- Admitted in Ready only: the display operations (R57). -/
def whenReady (ph : Phase) : Bool := ph == .ready

/-- Admitted in Uninitialized only: `INIT` (R57). -/
def whenUninitialized (ph : Phase) : Bool := ph == .uninitialized

/-- Admitted in any phase but Fatal: the pin primitives (R57, R80). -/
def unlessFatal (ph : Phase) : Bool := ph != .fatal

end Sys2Proof.Machine
end

