-- ==== Sys2Proof/Machine/Transfer.lean ====
section
/-! DEFINITION. Strobe transfers (41_transfer.md): the pulse, one nibble, a nibble pair, the nibble-only
command write and a whole command, as lists of micro-operations; and NPAIR, NIBC, CMD. -/

namespace Sys2Proof.Machine

/-- `Strobe()` (R88). -/
def strobe (c : Cfg) : List Action :=
  [.writePin c.strb true, .delay Config.tStrobeUs, .writePin c.strb false, .delay Config.tStrobeUs]

/-- `PutNibble(n)` (R89): data line `i` takes bit `i`, in the order 0 to 3 (D27). -/
def putNibble (c : Cfg) (n : Nibble) : List Action :=
  [.writePin c.d0 (n.getLsbD 0), .writePin c.d1 (n.getLsbD 1),
   .writePin c.d2 (n.getLsbD 2), .writePin c.d3 (n.getLsbD 3)] ++ strobe c

/-- `sendNibblePair` (R91): the high nibble first. -/
def nibblePair (c : Cfg) (b : Byte) : List Action :=
  putNibble c (hiNibble b) ++ putNibble c (loNibble b)

/-- `SendNibbleCommand(n)` (R92). -/
def nibbleCommand (c : Cfg) (n : Nibble) : List Action := .writePin c.rs false :: putNibble c n

/-- `SendCommand(b)` (R93). -/
def sendCommand (c : Cfg) (b : Byte) : List Action :=
  .writePin c.rs false :: nibblePair c b ++ [.delay Config.tCmdUs]

/-- `NPAIR b` (R91). -/
def execNpair (b : Byte) (s : State) : Outcome :=
  request whenReady (operate (nibblePair s.cfg b ++ [.finish])) s

/-- `NIBC n` (R92). -/
def execNibc (n : Nibble) (s : State) : Outcome :=
  request whenReady (operate (nibbleCommand s.cfg n ++ [.finish])) s

/-- `CMD b` (R93): any byte, unchecked (R72). -/
def execCmd (b : Byte) (s : State) : Outcome :=
  request whenReady (operate (sendCommand s.cfg b ++ [.finish])) s

end Sys2Proof.Machine
end

