-- ==== Sys2Proof/Machine/Control.lean ====
section
/-! DEFINITION. Display attributes (44_control.md): DISP, CURS, BLINK. -/

namespace Sys2Proof.Machine

/-- `SetCtl(mask, e)` from a given `CTL` (R123): the mask first, then the command with the new value, on every
call. -/
def setControl (k : Codes) (cfg : Cfg) (mask : BitVec 3) (e : Bool) (ctl : BitVec 3) : List Action :=
  .control (setCtlBit mask e ctl) :: sendCommand cfg (controlByte k (setCtlBit mask e ctl))

/-- `DISP e` (R124). -/
def execDisp (e : Bool) (s : State) : Outcome :=
  request whenReady (operate (setControl s.par.codes s.cfg (ctlMask s.par.codes.ctrlD) e s.ctl ++ [.finish])) s

/-- `CURS e` (R125). -/
def execCurs (e : Bool) (s : State) : Outcome :=
  request whenReady (operate (setControl s.par.codes s.cfg (ctlMask s.par.codes.ctrlC) e s.ctl ++ [.finish])) s

/-- `BLINK e` (R126). -/
def execBlink (e : Bool) (s : State) : Outcome :=
  request whenReady (operate (setControl s.par.codes s.cfg (ctlMask s.par.codes.ctrlB) e s.ctl ++ [.finish])) s

end Sys2Proof.Machine
end

