-- ==== Sys2Proof/Machine/Cursor.lean ====
section
/-! DEFINITION. Character writes and the software cursor (43_write_cursor.md): PUTC, POS, CLEAR, HOME. -/

namespace Sys2Proof.Machine

/-- `SetCursorPosition(c, r)` (R114, R115): out of bounds nothing at all; else the command, then the cursor. -/
def setPosition (k : Codes) (cfg : Cfg) (c r : Nat) : List Action :=
  if outOfBounds cfg c r then [] else sendCommand cfg (positionByte k c r) ++ [.cursor c r]

/-- `WriteChar(b)` from cursor `(x, y)` (R109, R110): the byte as data, no settling delay, the cursor moved on,
and on a column wrap the position command. The cursor items stand where no micro-operation sees the
intermediate values. -/
def writeChar (k : Codes) (cfg : Cfg) (x y : Nat) (b : Byte) : List Action :=
  .writePin cfg.rs true :: nibblePair cfg b ++
    .cursor (advance cfg x y).1 (advance cfg x y).2.1 ::
    if (advance cfg x y).2.2 then setPosition k cfg (advance cfg x y).1 (advance cfg x y).2.1 else []

/-- The common body of `clear` and `home` (R118, R120): the command, the cursor to (0, 0), the extra delay. -/
def commandAndReturn (cfg : Cfg) (extra : Nat) (b : Byte) : List Action :=
  sendCommand cfg b ++ [.cursor 0 0, .delay extra]

/-- `PUTC b` (R109). -/
def execPutc (b : Byte) (s : State) : Outcome :=
  request whenReady (operate (writeChar s.par.codes s.cfg s.cx s.cy b ++ [.finish])) s

/-- `POS c, r` (R114). -/
def execPos (c : Byte) (r : BitVec 4) (s : State) : Outcome :=
  request whenReady (operate (setPosition s.par.codes s.cfg c.toNat r.toNat ++ [.finish])) s

/-- `CLEAR` (R118). -/
def execClear (s : State) : Outcome :=
  request whenReady
    (operate (commandAndReturn s.cfg s.par.clearExtraUs s.par.codes.clear ++ [.finish])) s

/-- `HOME` (R120). -/
def execHome (s : State) : Outcome :=
  request whenReady
    (operate (commandAndReturn s.cfg s.par.clearExtraUs s.par.codes.home ++ [.finish])) s

end Sys2Proof.Machine
end

