-- ==== Sys2Proof/Machine/Initialization.lean ====
section
/-! DEFINITION. The nibble-mode handshake (42_init.md): INIT, part by part. -/

namespace Sys2Proof.Machine

/-- Part 2 (R99): the six pins to Output in order, then the six driven Low in the same order (D9). -/
def setUpPins (c : Cfg) : List Action :=
  c.pins.map (fun p => .setFn p .output) ++ c.pins.map (fun p => .writePin p false)

/-- A nibble-only handshake write and its settling delay (R100, R101; D11). -/
def handshakeWrite (c : Cfg) (b : Byte) : List Action :=
  nibbleCommand c (hiNibble b) ++ [.delay Config.tInitUs]

/-- Parts 3 and 4 (R100, R101): three 8-bit function sets, then one 4-bit function set. -/
def handshake (k : Codes) (c : Cfg) : List Action :=
  handshakeWrite c (func8Byte k) ++ handshakeWrite c (func8Byte k) ++ handshakeWrite c (func8Byte k) ++
    handshakeWrite c (func4Byte k)

/-- Part 5 (R102): multi-line mode if there is more than one row. -/
def multiLine (k : Codes) (c : Cfg) : List Action :=
  if 1 < c.rows then sendCommand c (funcMultiByte k) else []

/-- `CTL` after the first, the second and the third toggle of part 6 (R103). -/
def displayOn (k : Codes) (ctl : BitVec 3) : BitVec 3 := setCtlBit (ctlMask k.ctrlD) true ctl
def cursorOff (k : Codes) (ctl : BitVec 3) : BitVec 3 := setCtlBit (ctlMask k.ctrlC) false (displayOn k ctl)
def blinkOff (k : Codes) (ctl : BitVec 3) : BitVec 3 := setCtlBit (ctlMask k.ctrlB) false (cursorOff k ctl)

/-- Part 6 (R103): display on, cursor off, blink off, each with its command. -/
def attributesOn (k : Codes) (c : Cfg) (ctl : BitVec 3) : List Action :=
  setControl k c (ctlMask k.ctrlD) true ctl ++ setControl k c (ctlMask k.ctrlC) false (displayOn k ctl) ++
    setControl k c (ctlMask k.ctrlB) false (cursorOff k ctl)

/-- Part 8 (R105): the bytes of `INIT_TAIL`, each as a command. -/
def sendTail (c : Cfg) : List Byte → List Action
  | [] => []
  | b :: rest => sendCommand c b ++ sendTail c rest

/-- The whole operation (R97), from the record of part 1 (R98) to `PHASE <- Ready`. -/
def initActions (c : Cfg) (par : Params) (ctl : BitVec 3) : List Action :=
  [.record, .cursor 0 0] ++ setUpPins c ++ handshake par.codes c ++ multiLine par.codes c ++
    attributesOn par.codes c ctl ++ commandAndReturn c par.clearExtraUs par.codes.clear ++
    sendTail c par.initTail ++ [.phase .ready]

/-- `INIT` (R97, R164): BadConfig before AllocFail, and the allocation before any pin is touched (R98). -/
def execInit (s : State) : Outcome :=
  request whenUninitialized
    (fun s =>
      if ¬ s.cfg.Admitted s.par.codes then turnAway .badConfig s
      else if s.allocOk = false then goFatal .allocFail s
      else operate (initActions s.cfg s.par s.ctl ++ [.finish]) s)
    s

end Sys2Proof.Machine
end

