-- ==== Sys2Proof/Machine/Lcd.lean ====
section
/-! DEFINITION. The wire instructions (45_lcd_commands.md): what the receiver does when it executes a command
byte, a data byte or a handshake nibble. The driver and the register block are not touched (R4, R25). An
`Unknown` receiver absorbs every one of them (R143) but for the handshake (R155). -/

namespace Sys2Proof.Machine

/-- `LCD_CLEAR` (R131, R146). -/
def execLcdClear (s : State) : Outcome := .next { s with rx := s.rx.clearDisplay s.par.codes }

/-- `LCD_HOME` (R132, R147). -/
def execLcdHome (s : State) : Outcome := .next { s with rx := s.rx.returnHome s.par.codes }

/-- `LCD_ENTRY ID SH` (R133, R148). -/
def execLcdEntry (id sh : Bool) (s : State) : Outcome := .next { s with rx := s.rx.entryMode id sh }

/-- `LCD_CTRL D C B` (R134, R149). -/
def execLcdCtrl (d c b : Bool) (s : State) : Outcome :=
  .next { s with rx := s.rx.displayControl (ctlOfFlags d c b) }

/-- `LCD_CDSHIFT SC RL` (R135, R151). The direction makes no difference to what is known. -/
def execLcdCdshift (sc _rl : Bool) (s : State) : Outcome := .next { s with rx := s.rx.cursorShift sc }

/-- `LCD_FUNC DL N F` (R136, R150). -/
def execLcdFunc (dl n _f : Bool) (s : State) : Outcome := .next { s with rx := s.rx.functionSet dl n }

/-- `LCD_DDRAM a` (R139). -/
def execLcdDdram (a : BitVec 7) (s : State) : Outcome := .next { s with rx := s.rx.setAddress a }

/-- `LCD_DATA v` (R140, R143). -/
def execLcdData (v : Byte) (s : State) : Outcome := .next { s with rx := s.rx.data v }

/-- `LCD_FUNC8_NIBBLE` (R100, R144, R155): the latch (Low, 0x3). -/
def execLcdFunc8Nibble (s : State) : Outcome := .next (receiveFrame (.latch false 0x3) s)

/-- `LCD_FUNC4_NIBBLE` (R101, R144, R155): the latch (Low, 0x2). -/
def execLcdFunc4Nibble (s : State) : Outcome := .next (receiveFrame (.latch false 0x2) s)

end Sys2Proof.Machine
end

