-- ==== Sys2Proof/Machine/RegisterAccess.lean ====
section
/-! DEFINITION. The Register Access Layer (40_register_access.md): PINF, PINW, PINR. The host may call them in
any phase but Fatal (R80). -/

namespace Sys2Proof.Machine

/-- A pin operand past 53 is `refused(BadPin)` with no register touched (R45, R59, R164). -/
def onPin (p : BitVec 6) (body : State → Outcome) (s : State) : Outcome :=
  if Config.nPins ≤ p.toNat then turnAway .badPin s else body s

/-- `PINF p, m` (R81). -/
def execPinf (p : BitVec 6) (m : PinFn) (s : State) : Outcome :=
  request unlessFatal (onPin p (operate [.setFn p.toNat m, .finish])) s

/-- `PINW p, l` (R82). -/
def execPinw (p : BitVec 6) (l : Level) (s : State) : Outcome :=
  request unlessFatal (onPin p (operate [.writePin p.toNat l, .finish])) s

/-- `PINR p` (R83): the level read is the reply (R60). -/
def execPinr (p : BitVec 6) (s : State) : Outcome :=
  request unlessFatal (onPin p (operate [.readPin p.toNat])) s

end Sys2Proof.Machine
end

