-- ==== Sys2Proof/Machine/Dispatch.lean ====
section
/-! DEFINITION. One arm per row of the opcode table. -/

namespace Sys2Proof.Machine

def exec (i : Instr) (s : State) : Host.Outcome State Fault Refusal :=
  match i with
  -- level H: the host operations
  | .init => Sys2Proof.Machine.execInit s
  | .cmd b => Sys2Proof.Machine.execCmd b s
  | .npair b => Sys2Proof.Machine.execNpair b s
  | .nibc n => Sys2Proof.Machine.execNibc n s
  | .putc b => Sys2Proof.Machine.execPutc b s
  | .pos c r => Sys2Proof.Machine.execPos c r s
  | .clear => Sys2Proof.Machine.execClear s
  | .home => Sys2Proof.Machine.execHome s
  | .disp e => Sys2Proof.Machine.execDisp e s
  | .curs e => Sys2Proof.Machine.execCurs e s
  | .blink e => Sys2Proof.Machine.execBlink e s
  | .pinf p m => Sys2Proof.Machine.execPinf p m s
  | .pinw p l => Sys2Proof.Machine.execPinw p l s
  | .pinr p => Sys2Proof.Machine.execPinr p s
  -- level W: the frames of the wire
  | .lcdClear => Sys2Proof.Machine.execLcdClear s
  | .lcdHome => Sys2Proof.Machine.execLcdHome s
  | .lcdEntry id sh => Sys2Proof.Machine.execLcdEntry id sh s
  | .lcdCtrl d c b => Sys2Proof.Machine.execLcdCtrl d c b s
  | .lcdCdshift sc rl => Sys2Proof.Machine.execLcdCdshift sc rl s
  | .lcdFunc dl n f => Sys2Proof.Machine.execLcdFunc dl n f s
  | .lcdDdram a => Sys2Proof.Machine.execLcdDdram a s
  | .lcdData v => Sys2Proof.Machine.execLcdData v s
  | .lcdFunc8Nibble => Sys2Proof.Machine.execLcdFunc8Nibble s
  | .lcdFunc4Nibble => Sys2Proof.Machine.execLcdFunc4Nibble s

end Sys2Proof.Machine
end

