-- ==== Sys2Proof/Machine/Fetch.lean ====
section
/-! DEFINITION. Where the next instruction comes from: the receiver's pending frame or the host's next request
word (R49, R56; log 1, log 15); a sequence of requests; and a word placed to be the very next instruction. -/

namespace Sys2Proof.Machine

/-- The code word of a frame: RS chooses between command and data for a byte (R64, R130); a single nibble is
a code word only with RS Low (R100, R101). -/
def frameCode : Frame → Option Code
  | .byte rs v => some (if rs then .data v else .command v)
  | .latch rs n => if rs then none else some (.nibble n)
  | .garbled => none

/-- The instruction a frame is under the codes `k`, if it is a row of the table. -/
def decodeFrame (k : Codes) (f : Frame) : Option Instr :=
  match frameCode f with
  | none => none
  | some c =>
    match decodeWith k c with
    | .ok i => some i
    | .error _ => none

/-- The receiver takes its pending frame: a row of the table is executed; any other latch is still a latch
(R143) and any other byte loses the receiver (R152). -/
def takeFrame (f : Frame) (s : State) : Outcome :=
  match decodeFrame s.par.codes f with
  | some i => exec i s
  | none => .next (receiveFrame f s)

/-- The host presents a request word (R56): a reserved word is `refused(ReservedRequest)` (R59, R164). -/
def present (w : BitVec 16) (s : State) : Outcome :=
  if s.queue ≠ [] then turnAway .busy s
  else
    match decode (.request w) with
    | .ok i => exec i s
    | .error _ => turnAway .reservedRequest s

/-- Operations one after the other, as a host issues them (R56, R74). -/
def execAll : List Instr → State → Outcome
  | [], s => .next s
  | i :: rest, s => andThen (exec i s) (execAll rest)

/-- Place a code word where the next step takes its instruction. -/
def State.place (s : State) : Code → State
  | .request w => { s with host := w :: s.host, queue := [], wire := none }
  | .command v => { s with wire := some (.byte false v) }
  | .data v => { s with wire := some (.byte true v) }
  | .nibble n => { s with wire := some (.latch false n) }

/-- A word numbered as the opcode table numbers it, placed to be the next instruction. -/
def State.placeTableWord (s : State) (nbits w : Nat) : State :=
  match tableCode nbits w with
  | some c => s.place c
  | none => s

end Sys2Proof.Machine
end

