-- ==== Sys2Proof/Machine/Step.lean ====
section
/-! DEFINITION. One step. The receiver's pending frame comes first (R4, R143), then the head of QUEUE (R20),
then the host's next request (R56, R177). With nothing to do nothing happens (R177; log 5). -/

namespace Sys2Proof.Machine

def step (s : State) : Host.Outcome State Fault Refusal :=
  match s.wire with
  | some f => takeFrame f { s with wire := none }
  | none =>
    match s.queue with
    | a :: rest => perform a { s with queue := rest }
    | [] =>
      match s.host with
      | w :: rest => present w { s with host := rest }
      | [] => .next s

/-- `s` with a word of the opcode table stored where `step` takes its next instruction (log 1, log 21). -/
def State.withFetchWord (s : State) (nbits w : Nat) : State := s.placeTableWord nbits w

end Sys2Proof.Machine
end

