-- ==== Sys2Proof/Machine/Views.lean ====
section
/-! DEFINITION. Views computed from the state and the trace (R14): the latch sequence (R95), delay sums
(R186), the timing obligations (R187), the register spelling of an event (R11), and what the display shows
(R154). No operation reads a view. -/

namespace Sys2Proof.Machine

/-- A latch of a trace (R95) with the `DELAY` sums R187 speaks of: since the latch before it (or the start of
the trace), between the strobe's rise and its fall, and between the fall before and that rise. -/
structure Latch where
  rs   : Level
  nib  : Nibble
  gap  : Nat
  high : Nat
  low  : Nat
deriving DecidableEq, Repr

/-- Where a walk over a trace stands (R95): the last level written to every pin (the latch bits at the start
before a first write), whether the strobe was last written High, and the `DELAY` sums so far. -/
structure Walk where
  lines   : BitVec 54
  high    : Bool
  gap     : Nat
  since   : Nat
  lowTime : Nat
  latches : List Latch
deriving DecidableEq, Repr

/-- A latch bit set to a level. -/
def setLatchBit (out : BitVec 54) (p : Nat) (l : Level) : BitVec 54 :=
  if l then out ||| (1#54 <<< p) else out &&& ~~~(1#54 <<< p)

/-- Where a walk starts: the strobe's level unknown, so its first fall is no latch (R95, R191). -/
def Walk.start (out : BitVec 54) : Walk :=
  { lines := out, high := false, gap := 0, since := 0, lowTime := 0, latches := [] }

/-- One event of the walk (R95). -/
def Walk.next (c : Cfg) (w : Walk) : Event → Walk
  | .delay n => { w with gap := w.gap + n, since := w.since + n }
  | .pin p l =>
    if p = c.strb then
      if l then
        if w.high then w
        else { w with high := true, lowTime := w.since, since := 0, lines := setLatchBit w.lines p l }
      else if w.high then
        { w with
          high := false
          gap := 0
          since := 0
          lines := setLatchBit w.lines p l
          latches := w.latches ++
            [{ rs := w.lines.getLsbD c.rs, nib := dataNibble c w.lines, gap := w.gap,
               high := w.since, low := w.lowTime }] }
      else { w with lines := setLatchBit w.lines p l }
    else { w with lines := setLatchBit w.lines p l }
  | .fsel _ _ => w
  | .read _ _ => w

/-- The walk over a whole trace. -/
def Walk.run (c : Cfg) (w : Walk) (tr : List Event) : Walk := tr.foldl (Walk.next c) w

/-- The latch sequence of a trace that starts with latch bits `out` (R95). -/
def latches (c : Cfg) (out : BitVec 54) (tr : List Event) : List Latch := ((Walk.start out).run c tr).latches

/-- A latch as the receiver sees it. -/
def Latch.value (x : Latch) : Level × Nibble := (x.rs, x.nib)

/-- The sum of the `DELAY`s of a trace (R186, R196). -/
def delaySum : List Event → Nat
  | [] => 0
  | .delay n :: rest => n + delaySum rest
  | .fsel _ _ :: rest => delaySum rest
  | .pin _ _ :: rest => delaySum rest
  | .read _ _ :: rest => delaySum rest

/-- The events of one kind, for the counts of R94, R106 and R196. -/
def Event.isPin : Event → Bool
  | .pin _ _ => true
  | .fsel _ _ => false
  | .read _ _ => false
  | .delay _ => false
def Event.isFsel : Event → Bool
  | .fsel _ _ => true
  | .pin _ _ => false
  | .read _ _ => false
  | .delay _ => false
def Event.isDelay : Event → Bool
  | .delay _ => true
  | .pin _ _ => false
  | .fsel _ _ => false
  | .read _ _ => false

/-- What the `k`-th latch of a trace that begins with the handshake owes before the next (R187 O3 to O7): the
first three `T_INIT_US`, the fourth `T_CMD_US`; from then on latches pair, the first of a pair owes
nothing, the second what its command owes, and nothing for data. -/
def owedAfter (codes : Codes) (k : Nat) (first : Nibble) (x : Latch) : Nat :=
  if k < 3 then Config.tInitUs
  else if k = 3 then Config.tCmdUs
  else if k % 2 = 0 then 0
  else if x.rs then 0
  else commandSettle codes (joinNibbles first x.nib)

/-- O3 to O7 of R187 over the latches from the `k`-th on; `due` is what the latch before still owes. -/
def gapsMet (codes : Codes) (k due : Nat) (before : Nibble) : List Latch → Bool
  | [] => true
  | x :: rest => decide (due ≤ x.gap) && gapsMet codes (k + 1) (owedAfter codes k before x) x.nib rest

/-- O1 and O2 of R187: every pulse is high long enough, and low long enough before it but for the first. -/
def pulsesMet : List Latch → Bool
  | [] => true
  | x :: rest =>
    decide (Config.tStrobeUs ≤ x.high) &&
      rest.all (fun y => decide (Config.tStrobeUs ≤ y.high) && decide (Config.tStrobeUs ≤ y.low))

/-- A trace that begins with the handshake meets the protocol (R187). -/
def meetsProtocol (codes : Codes) (ls : List Latch) : Bool := pulsesMet ls && gapsMet codes 0 0 0 ls

/-- The register spelling of an event that reads nothing (R11, R82): a level write is one `RW`. -/
def Event.onBus (o : Offsets) : Event → List BusEvent
  | .pin p l => [.rw ((if l then o.setW else o.clrW) + pinBank p) (pinMask p)]
  | .delay n => [.delay n]
  | .fsel _ _ => []
  | .read _ _ => []

/-- The events a list of items appends to the trace, where it reads no pin. -/
def eventsOf : List Action → List Event
  | [] => []
  | .setFn p m :: rest => .fsel p m :: eventsOf rest
  | .writePin p l :: rest => .pin p l :: eventsOf rest
  | .delay n :: rest => .delay n :: eventsOf rest
  | .readPin _ :: rest => eventsOf rest
  | .record :: rest => eventsOf rest
  | .cursor _ _ :: rest => eventsOf rest
  | .control _ :: rest => eventsOf rest
  | .phase _ :: rest => eventsOf rest
  | .finish :: rest => eventsOf rest

/-- The latch bits after a transfer whose last nibble is `n` (R96): the data lines hold it, the strobe is Low. -/
def nibbleLines (c : Cfg) (n : Nibble) (out : BitVec 54) : BitVec 54 :=
  setLatchBit (setLatchBit (setLatchBit (setLatchBit (setLatchBit out c.d0 (n.getLsbD 0))
    c.d1 (n.getLsbD 1)) c.d2 (n.getLsbD 2)) c.d3 (n.getLsbD 3)) c.strb false

/-- What reaches the receiver when the lines carry `(rs, n)` at a falling edge (R95, R193). -/
def lineInput (driven : Bool) (rs : Level) (n : Nibble) : RxInput := if driven then .latch rs n else .garbled

/-- What one nibble transfer makes of the receiver's input (R62): the strobe-high time, the latch, the
strobe-low time. -/
def nibbleInputs (driven : Bool) (rs : Level) (n : Nibble) : List RxInput :=
  [.wait Config.tStrobeUs, lineInput driven rs n, .wait Config.tStrobeUs]

/-- What one byte transfer makes of it: the high nibble first (R62). -/
def byteInputs (driven : Bool) (rs : Level) (b : Byte) : List RxInput :=
  nibbleInputs driven rs (hiNibble b) ++ nibbleInputs driven rs (loNibble b)

/-- What one command makes of it, the settling delay included (R93). -/
def commandInputs (driven : Bool) (b : Byte) : List RxInput :=
  byteInputs driven false b ++ [.wait Config.tCmdUs]

/-- What one handshake write makes of it, all lines driven (R100, R101). -/
def handshakeInputs (n : Nibble) : List RxInput := nibbleInputs true false n ++ [.wait Config.tInitUs]

/-- What the pin set-up makes of it: one spurious latch if the strobe's latch bit was High (R191). -/
def setUpInputs (c : Cfg) (out : BitVec 54) : List RxInput :=
  if out.getLsbD c.strb then [.latch false (dataNibble c out)] else []

/-- `CTL` after the toggles of part 6 of `INIT` (R103): display on, then cursor off, then blink off. -/
def initCtls (k : Codes) (ctl : BitVec 3) : List (BitVec 3) :=
  let c1 := ctl ||| ctlMask k.ctrlD
  let c2 := c1 &&& ~~~ctlMask k.ctrlC
  [c1, c2, c2 &&& ~~~ctlMask k.ctrlB]

/-- The bytes `INIT` sends between the handshake and its clear (R102, R103). -/
def initBytes (c : Cfg) (k : Codes) (ctl : BitVec 3) : List Byte :=
  (if 1 < c.rows then [k.func ||| k.funcN] else []) ++ (initCtls k ctl).map fun v => k.ctrl ||| v.zeroExtend 8

/-- What `INIT` makes of it (R97), the six lines being driven from the set-up on. -/
def initInputs (c : Cfg) (par : Params) (ctl : BitVec 3) (out : BitVec 54) : List RxInput :=
  let first := hiNibble (par.codes.func ||| par.codes.funcDl)
  setUpInputs c out ++
  handshakeInputs first ++ handshakeInputs first ++ handshakeInputs first ++
  handshakeInputs (hiNibble par.codes.func) ++
  (initBytes c par.codes ctl).flatMap (commandInputs true) ++
  commandInputs true par.codes.clear ++ [.wait par.clearExtraUs] ++
  par.initTail.flatMap (commandInputs true)

/-- The latch bits after a command nibble (R92, R93, R96): RS Low, the strobe Low, the data lines `n`. -/
def commandLines (c : Cfg) (n : Nibble) (out : BitVec 54) : BitVec 54 :=
  nibbleLines c n (setLatchBit out c.rs false)

/-- The state after the wire events `evs` (no reads, no function changes): appended to both traces, the latch
bits at `out`, the receiver having taken `ins`; nothing else changes (R14). -/
def State.sent (evs : List Event) (out : BitVec 54) (ins : List RxInput) (s : State) : State :=
  { s with
    trace := s.trace ++ evs
    bus := s.bus ++ evs.flatMap (Event.onBus s.par.offsets)
    out := out
    rx := Receiver.feed s.par.codes ins s.rx }

/-- The byte of a DDRAM cell as far as it is known. -/
def State.cell (s : State) (a : Nat) : Option Byte :=
  match s.rx.sync with
  | none => none
  | some y => y.ddram.read a

/-- The display view (R154): the character at column `c` of row `r`, where it is known. -/
def State.shown (s : State) (c r : Nat) : Option Byte :=
  match s.rx.sync with
  | none => none
  | some y =>
    if c < s.cfg.cols ∧ r < s.cfg.rows ∧ y.multi = some (decide (1 < s.cfg.rows)) ∧
        (y.ctl.map (·.getLsbD 2)) = some true ∧ s.rx.shifted = false then
      y.ddram.read (ddramAddr s.par.codes c r)
    else none

end Sys2Proof.Machine
end

