-- ==== Sys2Proof/Safety.lean ====
section
/-! DEFINITION. What counts as a good state, in the terms claims use: the invariant of idle states (R16, R18,
R141), the driver's readiness for an operation, and agreement of driver and receiver (R189, R190). -/

namespace Sys2Proof.Machine

/-- The receiver is well formed: its DDRAM is in canonical form and the handshake count is 0 to 3. -/
abbrev Receiver.Wf (r : Receiver) : Prop :=
  r.progress ≤ 3 ∧ ∀ y, r.sync = some y → y.ddram.wf

/-- The invariant of idle states: in Ready the configuration is admitted (R6), the Display record is its copy
(R17) and the cursor is inside the grid (R18). -/
structure Inv (s : State) : Prop where
  idle     : s.queue = []
  admitted : s.phase = .ready → s.cfg.Admitted s.par.codes
  record   : s.phase = .ready → s.disp = some s.cfg
  column   : s.phase = .ready → s.cx < s.cfg.cols
  row      : s.phase = .ready → s.cy < s.cfg.rows
  receiver : s.rx.Wf

/-- The driver is idle and the receiver has taken everything on the wire. -/
abbrev Quiet (s : State) : Prop := s.queue = [] ∧ s.wire = none

/-- A display operation can run: idle, Ready, with an admitted configuration (R57, R6). -/
abbrev Operable (s : State) : Prop := Quiet s ∧ s.phase = .ready ∧ s.cfg.Admitted s.par.codes

/-- The six lines are driven and the strobe rests Low (R88, R96, R193). -/
abbrev LinesReady (s : State) : Prop :=
  s.allDriven = true ∧ s.out.getLsbD s.cfg.strb = false ∧ s.rx.loose = false

/-- The receiver can take a latch after one strobe-high time: what it is owed has run but for that (R188). -/
abbrev Settled (r : Receiver) : Prop := r.due ≤ r.elapsed + Config.tStrobeUs

/-- The codes are those of R8 (log 12, log 14), which the receiver must agree with the driver on. -/
abbrev Standard (s : State) : Prop := s.par.codes = Config.codes

/-- The receiver is in step with the driver's bytes: `Synced` with fields `y`, between bytes, both under the codes
of R8, the lines driven and at rest, the last latch's settling all but over (R141, R188). -/
abbrev InStep (s : State) (y : Synced) : Prop :=
  Operable s ∧ Standard s ∧ LinesReady s ∧ Settled s.rx ∧ s.rx.sync = some y ∧ y.half = none

/-- The receiver agrees with the driver (R129, R189, R190): between bytes, auto-incrementing, and its address
counter at the software cursor. -/
abbrev Agrees (s : State) : Prop :=
  Settled s.rx ∧ ∃ y, s.rx.sync = some y ∧ y.half = none ∧ y.inc = some true ∧
    y.ac = some (BitVec.ofNat 7 (ddramAddr s.par.codes s.cx s.cy))

end Sys2Proof.Machine
end

