-- ==== Sys2Proof/Certificates/Slice0/Obligations.lean ====
section
/-! DEFINITION. The statements for the provers. What an operation sends is written here once more, event by event
from the operation rules (`Spec.…`), so that a statement does not lean on the lists the meanings use. -/

namespace Sys2Proof.Spec

open Sys2Proof.Machine

/-- `PutNibble(n)` (R89) with its pulse (R88). That the data pins are written in index order is the spec's own
reading (D27). -/
def nibbleEvents (c : Cfg) (n : Nibble) : List Event :=
  [.pin c.d0 (n.getLsbD 0), .pin c.d1 (n.getLsbD 1), .pin c.d2 (n.getLsbD 2), .pin c.d3 (n.getLsbD 3),
   .pin c.strb true, .delay 50, .pin c.strb false, .delay 50]

/-- A byte, high nibble first (R91). -/
def byteEvents (c : Cfg) (b : Byte) : List Event :=
  nibbleEvents c (b.extractLsb' 4 4) ++ nibbleEvents c (b.extractLsb' 0 4)

/-- The nibble-only command write (R92). -/
def nibbleCommandEvents (c : Cfg) (n : Nibble) : List Event := .pin c.rs false :: nibbleEvents c n

/-- `SendCommand(b)` (R93). -/
def commandEvents (c : Cfg) (b : Byte) : List Event := .pin c.rs false :: (byteEvents c b ++ [.delay 2000])

/-- The data byte of `WriteChar` (R109). -/
def dataEvents (c : Cfg) (b : Byte) : List Event := .pin c.rs true :: byteEvents c b

/-- One handshake write with its settling (R100, R101). -/
def handshakeEvents (c : Cfg) (n : Nibble) : List Event := nibbleCommandEvents c n ++ [.delay 35000]

/-- The six pins in the order of R99. -/
def lcdPins (c : Cfg) : List Nat := [c.rs, c.strb, c.d0, c.d1, c.d2, c.d3]

/-- `INIT` after its six `SetFn`s (R97), from a given `CTL`. -/
def initEvents (c : Cfg) (par : Params) (ctl : BitVec 3) : List Event :=
  let first := (par.codes.func ||| par.codes.funcDl).extractLsb' 4 4
  (lcdPins c).map (fun p => .pin p false) ++
  handshakeEvents c first ++ handshakeEvents c first ++ handshakeEvents c first ++
  handshakeEvents c (par.codes.func.extractLsb' 4 4) ++
  (initBytes c par.codes ctl).flatMap (commandEvents c) ++
  commandEvents c par.codes.clear ++ [.delay par.clearExtraUs] ++
  par.initTail.flatMap (commandEvents c)

/-- The Set DDRAM address byte of a position (R53, R67). -/
def addressByte (k : Codes) (c r : Nat) : Byte := k.ddram ||| BitVec.ofNat 8 (k.row0Base + r * k.rowStride + c)

/-- The operation has returned `done` (R13). -/
def done (s : State) : State := { s with resp := some (.done none) }

/-- The word of `FSEL[p div 10]` with the field of `p` replaced by `code` (R81). -/
def newField (p : Nat) (code old : Word) : Word :=
  (old &&& ~~~(0b111#32 <<< (3 * (p % 10)))) ||| (code <<< (3 * (p % 10)))

/-- Pins made Output one after the other (R81, R99): the function words and the register events of each. -/
def madeOutput (o : Offsets) : List Nat → Vector Word 6 → Vector Word 6 × List BusEvent
  | [], fsel => (fsel, [])
  | p :: rest, fsel =>
    let old := fsel[p / 10]?.getD 0
    let new := newField p 0b001 old
    let after := madeOutput o rest (fsel.setIfInBounds (p / 10) new)
    (after.1, .rr (o.fselW + p / 10) old :: .rw (o.fselW + p / 10) new :: after.2)

/-- The receiver after executing a command: what it knows is `sync`, it owes `T_CMD_US`, and nothing else of it has
changed (R138, R187). -/
def commanded (sync : Option Synced) (s : State) : State := { s with rx := { s.rx with sync := sync, due := 2000 } }

/-- The wire instructions that are bytes with RS Low. -/
def isCommand : Instr → Bool
  | .lcdClear | .lcdHome | .lcdEntry _ _ | .lcdCtrl _ _ _ | .lcdCdshift _ _ | .lcdFunc _ _ _ | .lcdDdram _ => true
  | .lcdData _ | .lcdFunc8Nibble | .lcdFunc4Nibble | .init | .cmd _ | .npair _ | .nibc _ | .putc _ | .pos _ _
  | .clear | .home | .disp _ | .curs _ | .blink _ | .pinf _ _ | .pinw _ _ | .pinr _ => false

/-- The requests of R188 besides `INIT`: the display operations without `NPAIR` and `NIBC`. -/
def isDisplay : Instr → Bool
  | .cmd _ | .putc _ | .pos _ _ | .clear | .home | .disp _ | .curs _ | .blink _ => true
  | .npair _ | .nibc _ | .init | .pinf _ _ | .pinw _ _ | .pinr _ | .lcdClear | .lcdHome | .lcdEntry _ _
  | .lcdCtrl _ _ _ | .lcdCdshift _ _ | .lcdFunc _ _ _ | .lcdDdram _ | .lcdData _ | .lcdFunc8Nibble
  | .lcdFunc4Nibble => false

/-- The phases that admit an operation (R57). -/
def admits : Instr → Phase → Bool
  | .init, ph => ph == .uninitialized
  | .pinf _ _, ph | .pinw _ _, ph | .pinr _, ph => ph != .fatal
  | .cmd _, ph | .npair _, ph | .nibc _, ph | .putc _, ph | .pos _ _, ph | .clear, ph | .home, ph | .disp _, ph
  | .curs _, ph | .blink _, ph => ph == .ready
  | .lcdClear, _ | .lcdHome, _ | .lcdEntry _ _, _ | .lcdCtrl _ _ _, _ | .lcdCdshift _ _, _ | .lcdFunc _ _ _, _
  | .lcdDdram _, _ | .lcdData _, _ | .lcdFunc8Nibble, _ | .lcdFunc4Nibble, _ => true

/-- The rows of the request table (R58), match and mask. -/
def requestRows : List (BitVec 16 × BitVec 16) :=
  [(0x0000, 0xFFFF), (0x1000, 0xFF00), (0x2000, 0xFF00), (0x3000, 0xFFF0), (0x4000, 0xFF00), (0x5000, 0xF000),
   (0x6000, 0xFFFF), (0x7000, 0xFFFF), (0x8000, 0xFFFE), (0x9000, 0xFFFE), (0xA000, 0xFFFE), (0xB000, 0xFEC0),
   (0xC000, 0xFEC0), (0xD000, 0xFFC0)]

/-- Number of events, number of `DELAY`s and their sum (R196). -/
def cost (evs : List Event) : Nat × Nat × Nat :=
  (evs.length, (evs.filter Event.isDelay).length, delaySum evs)

/-- The events hold exactly `n` pulses: the strobe goes High and Low in turn, and each rise is followed by its
delay, the fall and its delay with nothing between (R88, R94). -/
def Pulses (c : Cfg) (n : Nat) (evs : List Event) : Prop :=
  evs.filter (fun e => e == .pin c.strb true || e == .pin c.strb false) =
    (List.replicate n [Event.pin c.strb true, .pin c.strb false]).flatten ∧
  ∀ k, evs[k]? = some (.pin c.strb true) →
    evs[k + 1]? = some (.delay 50) ∧ evs[k + 2]? = some (.pin c.strb false) ∧ evs[k + 3]? = some (.delay 50)

/-- What the rule of a display operation says besides its effect: the request word that encodes it, and the refusal
in any phase but Ready. -/
def Requested (w : BitVec 16) (i : Instr) : Prop :=
  decode (.request w) = .ok i ∧
  ∀ s : State, s.queue = [] → s.phase ≠ .ready → exec i s = .next { s with resp := some (.refused .wrongPhase) }

/-- The same for a pin operation on pin `p`: refused past the last pin. -/
def PinRequested (w : BitVec 16) (p : BitVec 6) (i : Instr) : Prop :=
  decode (.request w) = .ok i ∧
  ∀ s : State, s.queue = [] → s.phase ≠ .fatal → 53 < p.toNat →
    exec i s = .next { s with resp := some (.refused .badPin) }

/-- `Ready`, idle, quiet, admitted, the cursor in the grid (R18). -/
abbrev InGrid (s : State) : Prop := Operable s ∧ s.cx < s.cfg.cols ∧ s.cy < s.cfg.rows

/-- `INIT` can run to `done` (R97, R98). -/
abbrev Startable (s : State) : Prop :=
  Quiet s ∧ s.phase = .uninitialized ∧ s.cfg.Admitted s.par.codes ∧ s.allocOk = true

/-- A pin request can run (R57, R45). -/
abbrev PinReady (s : State) : Prop := Quiet s ∧ s.phase ≠ .fatal

end Sys2Proof.Spec

open Sys2Proof Sys2Proof.Machine Sys2Proof.Spec

/-! ### Reset and the invariant -/

/-- R28, R142: what the spec fixes at reset, whatever the configuration, the parameters, the function words and the
output latches are: `CTL` is the parameter `CTL_RESET`, whose default 0b000 is the spec's own choice (D8, log 29). The
model's reset is this at its defaults (logs 6, 9, 10, 11). -/
def Obligations.ResetValues : Prop :=
  (∀ (cfg : Cfg) (par : Params) (alloc : Bool) (fsel : Vector Word 6) (out : BitVec 54),
    let s := State.resetOf cfg par alloc fsel out
    s.phase = .uninitialized ∧ s.disp = none ∧ s.ctl = par.ctlReset ∧ s.queue = [] ∧ s.trace = [] ∧ s.bus = [] ∧
    s.rx.sync = none ∧ s.fsel = fsel ∧ s.out = out ∧ s.cfg = cfg ∧ s.par = par ∧ s.allocOk = alloc) ∧
  (∃ fsel out, State.reset = State.resetOf Config.cfgEx Config.defaultParams true fsel out) ∧ State.reset.ctl = 0b000

/-- Every reset state meets the invariant of idle states. -/
def Obligations.ResetMeetsInvariant : Prop :=
  ∀ (cfg : Cfg) (par : Params) (alloc : Bool) (fsel : Vector Word 6) (out : BitVec 54),
    Inv (State.resetOf cfg par alloc fsel out)

/-- Every step keeps the invariant of idle states: R16, R17, R18, R141. -/
def Obligations.StepKeepsInvariant : Prop := ∀ s t : State, Inv s → step s = .next t → Inv t

/-- R165, R44, R45: from an idle state nothing stops the machine, whatever the host presents and whatever is on
the wire. -/
def Obligations.IdleStatesAlwaysStep : Prop := ∀ s : State, Inv s → ∃ t, step s = .next t

/-- R26: the parameters never change. -/
def Obligations.StepKeepsParameters : Prop :=
  ∀ s t : State, step s = .next t → t.cfg = s.cfg ∧ t.par = s.par ∧ t.allocOk = s.allocOk

/-- R16: the only phase transitions are out of `Uninitialized`, by the request word of `INIT`. -/
def Obligations.PhaseTransitions : Prop :=
  ∀ s t : State, Inv s → step s = .next t → t.phase ≠ s.phase →
    s.phase = .uninitialized ∧ (t.phase = .ready ∨ t.phase = .fatal) ∧
    s.wire = none ∧ ∃ rest, s.host = 0x0000#16 :: rest

/-! ### Encodings -/

/-- Words written out from V26 and R65 decode to the instruction they stand for. -/
def Obligations.SpecWordsDecode : Prop :=
  decode (.request 0x0000) = .ok .init ∧ decode (.request 0x1028) = .ok (.cmd 0x28) ∧
  decode (.request 0x3003) = .ok (.nibc 0x3) ∧ decode (.request 0x4041) = .ok (.putc 0x41) ∧
  decode (.request 0x5104) = .ok (.pos 4 1) ∧ decode (.request 0x9000) = .ok (.curs false) ∧
  decode (.request 0xB119) = .ok (.pinf 25 .output) ∧ decode (.request 0xC018) = .ok (.pinw 24 false) ∧
  decode (.request 0xE000) = .error .reservedRequest ∧ decode (.request 0x8002) = .error .reservedRequest ∧
  decode (.command 0x06) = .ok (.lcdEntry true false) ∧ decode (.command 0x14) = .ok (.lcdCdshift false true) ∧
  decode (.command 0x28) = .ok (.lcdFunc false true false) ∧ decode (.command 0xC4) = .ok (.lcdDdram 0x44) ∧
  decode (.command 0x11) = .error .reservedCommand ∧ decode (.nibble 0x2) = .ok .lcdFunc4Nibble

/-- The numbers the spec takes from general knowledge: the record of R8 whole, every command code, every flag and the
DDRAM geometry (D6, D7; logs 12, 14), the register block's (R9, D3; log 13), and what they give: the bytes of R69, the
default `INIT_TAIL` (D14) and the Set DDRAM address byte of a position. -/
def Obligations.PresumedNumbers : Prop :=
  Config.codes = {
    clear := 0x01, home := 0x02, entry := 0x04, entryId := 0x02, entrySh := 0x01, ctrl := 0x08, ctrlD := 0x04,
    ctrlC := 0x02, ctrlB := 0x01, cdshift := 0x10, cdshiftRl := 0x04, cdshiftSc := 0x08, func := 0x20, funcDl := 0x10,
    funcN := 0x08, funcF := 0x04, ddram := 0x80, row0Base := 0x00, rowStride := 0x40 } ∧
  Config.offsets = { fselW := 0, setW := 7, clrW := 10, levW := 13, spanWords := 1024 } ∧
  State.reset.par = {
    codes := Config.codes, offsets := Config.offsets, ctlReset := 0b000, initTail := [0x06, 0x14], clearExtraUs := 5000 } ∧
  (func8Byte Config.codes, func4Byte Config.codes, funcMultiByte Config.codes) = (0x30, 0x20, 0x28) ∧
  ∀ c r : Nat, c < 40 → r < 2 → addressByte Config.codes c r = BitVec.ofNat 8 (0x80 + (0x40 * r + c))

/-- Decoding an encoded instruction gives it back, for every instruction and every operand. -/
def Obligations.DecodeOfEncode : Prop := ∀ i : Instr, decode (encode i) = .ok i

/-- Encoding a decoded word gives the word back: no word has two meanings and no bit is dropped. -/
def Obligations.EncodeOfDecode : Prop := ∀ (c : Code) (i : Instr), decode c = .ok i → encode i = c

/-- R58: the request table, row by row with its operand fields; a word of no row decodes to nothing; no word is
in two rows. -/
def Obligations.RequestTable : Prop :=
  ∀ w : BitVec 16,
    (w &&& 0xFFFF = 0x0000 → decode (.request w) = .ok .init) ∧
    (w &&& 0xFF00 = 0x1000 → decode (.request w) = .ok (.cmd (w.extractLsb' 0 8))) ∧
    (w &&& 0xFF00 = 0x2000 → decode (.request w) = .ok (.npair (w.extractLsb' 0 8))) ∧
    (w &&& 0xFFF0 = 0x3000 → decode (.request w) = .ok (.nibc (w.extractLsb' 0 4))) ∧
    (w &&& 0xFF00 = 0x4000 → decode (.request w) = .ok (.putc (w.extractLsb' 0 8))) ∧
    (w &&& 0xF000 = 0x5000 → decode (.request w) = .ok (.pos (w.extractLsb' 0 8) (w.extractLsb' 8 4))) ∧
    (w &&& 0xFFFF = 0x6000 → decode (.request w) = .ok .clear) ∧
    (w &&& 0xFFFF = 0x7000 → decode (.request w) = .ok .home) ∧
    (w &&& 0xFFFE = 0x8000 → decode (.request w) = .ok (.disp (w.getLsbD 0))) ∧
    (w &&& 0xFFFE = 0x9000 → decode (.request w) = .ok (.curs (w.getLsbD 0))) ∧
    (w &&& 0xFFFE = 0xA000 → decode (.request w) = .ok (.blink (w.getLsbD 0))) ∧
    (w &&& 0xFEC0 = 0xB000 →
      decode (.request w) = .ok (.pinf (w.extractLsb' 0 6) (if w.getLsbD 8 then .output else .input))) ∧
    (w &&& 0xFEC0 = 0xC000 → decode (.request w) = .ok (.pinw (w.extractLsb' 0 6) (w.getLsbD 8))) ∧
    (w &&& 0xFFC0 = 0xD000 → decode (.request w) = .ok (.pinr (w.extractLsb' 0 6))) ∧
    ((∀ row ∈ requestRows, w &&& row.2 ≠ row.1) → decode (.request w) = .error .reservedRequest) ∧
    (requestRows.filter fun row => w &&& row.2 == row.1).length ≤ 1

/-- R65, R72: the command table under the codes of R8 (D6, log 12), row by row with its flags; a byte of no row is
reserved. -/
def Obligations.CommandTable : Prop :=
  ∀ v : Byte,
    (v = 0x01 → decode (.command v) = .ok .lcdClear) ∧
    (v = 0x02 → decode (.command v) = .ok .lcdHome) ∧
    (v &&& 0xFC = 0x04 → decode (.command v) = .ok (.lcdEntry (v.getLsbD 1) (v.getLsbD 0))) ∧
    (v &&& 0xF8 = 0x08 → decode (.command v) = .ok (.lcdCtrl (v.getLsbD 2) (v.getLsbD 1) (v.getLsbD 0))) ∧
    (v &&& 0xF3 = 0x10 → decode (.command v) = .ok (.lcdCdshift (v.getLsbD 3) (v.getLsbD 2))) ∧
    (v &&& 0xE3 = 0x20 → decode (.command v) = .ok (.lcdFunc (v.getLsbD 4) (v.getLsbD 3) (v.getLsbD 2))) ∧
    (v &&& 0x80 = 0x80 → decode (.command v) = .ok (.lcdDdram (v.extractLsb' 0 7))) ∧
    ((v = 0x00 ∨ v = 0x03 ∨ (v &&& 0xF0 = 0x10 ∧ v &&& 0x03 ≠ 0) ∨ (v &&& 0xE0 = 0x20 ∧ v &&& 0x03 ≠ 0) ∨
        v &&& 0xC0 = 0x40) ↔ decode (.command v) = .error .reservedCommand)

/-! ### Steps and requests -/

/-- What a step runs: the receiver's pending frame, else the head of `QUEUE`, else the instruction the host's next
request word decodes to, else nothing. -/
def Obligations.StepRunsDecodedInstruction : Prop :=
  (∀ (s : State) f i, s.wire = some f → decodeFrame s.par.codes f = some i → step s = exec i { s with wire := none }) ∧
  (∀ (s : State) f, s.wire = some f → decodeFrame s.par.codes f = none →
    step s = .next (receiveFrame f { s with wire := none })) ∧
  (∀ (s : State) a rest, s.wire = none → s.queue = a :: rest → step s = perform a { s with queue := rest }) ∧
  (∀ (s : State) w rest i, Quiet s → s.host = w :: rest → decode (.request w) = .ok i →
    step s = exec i { s with host := rest }) ∧
  (∀ (s : State) w rest e, Quiet s → s.host = w :: rest → decode (.request w) = .error e →
    step s = .next { s with host := rest, resp := some (.refused .reservedRequest) }) ∧
  (∀ s : State, Quiet s → s.host = [] → step s = .next s)

/-- R20: running a list of items one by one, a step each, reaches the state the big step reaches. -/
def Obligations.StepwiseAgreesWithBigStep : Prop :=
  ∀ (acts : List Action) (s t : State), Quiet s → drain acts s = .next t →
    ∃ n, Host.Core.run core n { s with queue := acts } = .next t

/-- R161, R164: the checks a request meets, first match wins (the spec's own order, D24); a refused request changes
nothing but the reply (log 3). -/
def Obligations.OrderOfChecks : Prop :=
  ∀ (w : BitVec 16) (s : State),
    (s.queue ≠ [] → present w s = .next { s with resp := some (.refused .busy) }) ∧
    (s.queue = [] →
      (∀ e, decode (.request w) = .error e →
        present w s = .next { s with resp := some (.refused .reservedRequest) }) ∧
      ∀ i, decode (.request w) = .ok i →
        (admits i s.phase = false → present w s = .next { s with resp := some (.refused .wrongPhase) }) ∧
        (admits i s.phase = true →
          (i.wellFormed = false → present w s = .next { s with resp := some (.refused .badPin) }) ∧
          (i = .init → ¬ s.cfg.Admitted s.par.codes → present w s = .next { s with resp := some (.refused .badConfig) }) ∧
          (i = .init → s.cfg.Admitted s.par.codes → s.allocOk = false →
            present w s = .next { s with phase := .fatal, resp := some (.fatal .allocFail) })))

/-- R59: `op` 0xE and 0xF and every must-be-zero bit select no operation; pins 54 to 63 are `BadPin` (the spec's own
choices, D1, D5; log 3). -/
def Obligations.ReservedRequests : Prop :=
  (∀ (w : BitVec 16) (s : State), s.queue = [] → (∀ row ∈ requestRows, w &&& row.2 ≠ row.1) →
    present w s = .next { s with resp := some (.refused .reservedRequest) }) ∧
  ∀ (p : BitVec 6) (m : PinFn) (l : Level) (s : State), s.queue = [] → s.phase ≠ .fatal → 54 ≤ p.toNat →
    exec (.pinf p m) s = .next { s with resp := some (.refused .badPin) } ∧
    exec (.pinw p l) s = .next { s with resp := some (.refused .badPin) } ∧
    exec (.pinr p) s = .next { s with resp := some (.refused .badPin) }

/-- R158: fatal entry is precise, and `Fatal` is absorbing (the spec's own choice, D18; log 4). -/
def Obligations.FatalIsPreciseAndAbsorbing : Prop :=
  (∀ s : State, s.queue = [] → s.phase = .uninitialized → s.cfg.Admitted s.par.codes → s.allocOk = false →
    exec .init s = .next { s with phase := .fatal, resp := some (.fatal .allocFail) }) ∧
  (∀ (s : State) (w : BitVec 16), s.queue = [] → s.phase = .fatal →
    ∃ why, present w s = .next { s with resp := some (.refused why) } ∧
      ∀ i, decode (.request w) = .ok i → why = .wrongPhase) ∧
  (∀ s : State, Quiet s → s.phase = .fatal → ∃ t, step s = .next t ∧
    { t with host := s.host, resp := s.resp } = s)

/-! ### Registers -/

/-- R40, R43: the function words read as they stand and are replaced whole; a level word shows the latch of every
Output pin; neither read touches anything but the traces and the free value's counter (log 8). Under the offsets of R9
(log 13), which tell the registers apart. That a write of a level register answers a named fault is the model's choice
(log 22); R43 says a model refuses it. -/
def Obligations.FunctionAndLevelRegisters : Prop :=
  ∀ s : State, s.par.offsets = Config.offsets →
    (∀ (k : Nat) (next : Word → State → Outcome), k < 6 → ∃ v, s.fsel[k]? = some v ∧
      regRead k s next = next v { s with bus := s.bus ++ [.rr k v] }) ∧
    (∀ (k : Nat) (v : Word), k < 6 → ∃ t, regWrite k v s = .next t ∧
      t.fsel[k]? = some v ∧ (∀ j, j ≠ k → t.fsel[j]? = s.fsel[j]?) ∧
      t = { s with fsel := t.fsel, bus := s.bus ++ [.rw k v] }) ∧
    (∀ (b : Nat) (next : Word → State → Outcome), b < 2 → ∃ v,
      regRead (13 + b) s next = next v { s with bus := s.bus ++ [.rr (13 + b) v], draws := s.draws + 1 } ∧
      ∀ i, i < 32 → 32 * b + i < 54 → s.isOutput (32 * b + i) = true →
        v.getLsbD i = s.out.getLsbD (32 * b + i)) ∧
    (∀ (b : Nat) (v : Word), b < 2 → regWrite (13 + b) v s = .fault (.noSuchRegister (13 + b)))

/-- R41, R42: write-one-to-set and write-one-to-clear, under the offsets of R9 (log 13). That a read of either register
answers a named fault is the model's choice (log 22); R41 and R42 say a model refuses it. -/
def Obligations.SetAndClearRegisters : Prop :=
  ∀ (b : Nat) (v : Word) (s : State) (next : Word → State → Outcome), b < 2 → s.par.offsets = Config.offsets →
    (∃ t, regWrite (7 + b) v s = .next t ∧ t = { s with out := t.out, bus := s.bus ++ [.rw (7 + b) v] } ∧
      ∀ p, p < 54 → t.out.getLsbD p = if p / 32 = b ∧ v.getLsbD (p % 32) then true else s.out.getLsbD p) ∧
    (∃ t, regWrite (10 + b) v s = .next t ∧ t = { s with out := t.out, bus := s.bus ++ [.rw (10 + b) v] } ∧
      ∀ p, p < 54 → t.out.getLsbD p = if p / 32 = b ∧ v.getLsbD (p % 32) then false else s.out.getLsbD p) ∧
    regRead (7 + b) s next = .fault (.noSuchRegister (7 + b)) ∧
    regRead (10 + b) s next = .fault (.noSuchRegister (10 + b))

/-- R37, R44, U6: under the offsets of R9 (log 13) an access at any other offset stops the machine (the model's choice,
log 22). -/
def Obligations.NoOtherRegisters : Prop :=
  ∀ (w : Nat) (v : Word) (s : State) (next : Word → State → Outcome), s.par.offsets = Config.offsets →
    w ∉ [0, 1, 2, 3, 4, 5, 7, 8, 10, 11, 13, 14] →
    regRead w s next = .fault (.noSuchRegister w) ∧ regWrite w v s = .fault (.noSuchRegister w)

/-! ### The pin operations -/

/-- R81: `PINF`: the register read and written, the one event, every other field and every latch bit as before, and the
receiver untouched unless an LCD pin turns Input, which marks it (R193, log 18). -/
def Obligations.PinfResult : Prop :=
  ∀ (p : BitVec 6) (m : PinFn),
    PinRequested (0xB000 ||| (match m with | .output => 0x100#16 | .input => 0#16) ||| p.zeroExtend 16) p
      (.pinf p m) ∧
    ∀ s : State, PinReady s → p.toNat < 54 →
    ∃ old t, s.fsel[p.toNat / 10]? = some old ∧ exec (.pinf p m) s = .next t ∧
      (let new := newField p.toNat (match m with | .output => 0b001 | .input => 0b000) old
       t.fsel[p.toNat / 10]? = some new ∧
       t = { s with
         fsel := t.fsel
         bus := s.bus ++ [.rr (s.par.offsets.fselW + p.toNat / 10) old, .rw (s.par.offsets.fselW + p.toNat / 10) new]
         trace := s.trace ++ [.fsel p.toNat m]
         rx := if m = .input ∧ p.toNat ∈ lcdPins s.cfg then { s.rx with loose := true } else s.rx
         resp := some (.done none) }) ∧
      ∀ k, k ≠ p.toNat / 10 → t.fsel[k]? = s.fsel[k]?

/-- R82: `PINW`: one register write, one event, one latch bit; the receiver is reached only by a falling strobe
(R95). -/
def Obligations.PinwResult : Prop :=
  ∀ (p : BitVec 6) (l : Level),
    PinRequested (0xC000 ||| (if l then 0x100#16 else 0#16) ||| p.zeroExtend 16) p (.pinw p l) ∧
    ∀ s : State, PinReady s → p.toNat < 54 →
    ∃ t, exec (.pinw p l) s = .next t ∧
      t = { s with
        out := t.out
        bus := s.bus ++
          [.rw ((if l then s.par.offsets.setW else s.par.offsets.clrW) + p.toNat / 32) (1#32 <<< (p.toNat % 32))]
        trace := s.trace ++ [.pin p.toNat l]
        rx := t.rx
        resp := some (.done none) } ∧
      (∀ q, q < 54 → t.out.getLsbD q = if q = p.toNat then l else s.out.getLsbD q) ∧
      (¬ (p.toNat = s.cfg.strb ∧ l = false ∧ s.out.getLsbD p.toNat = true) → t.rx = s.rx)

/-- R95, R143, R193: `PINW` that makes the strobe fall: the receiver takes the lines as one latch, RS and the data lines
as their latches stand, with no `DELAY` before it; lines that are not all Output are a latch of any value (logs 18, 25). -/
def Obligations.StrobeFallLatches : Prop :=
  ∀ (p : BitVec 6) (s : State), PinReady s → p.toNat < 54 → p.toNat = s.cfg.strb → s.out.getLsbD p.toNat = true →
    ∃ t, exec (.pinw p false) s = .next t ∧ t.out.getLsbD p.toNat = false ∧ t.wire = none ∧
      t.rx = if ∀ q ∈ lcdPins s.cfg, s.isOutput q = true
        then s.rx.latch s.par.codes (t.out.getLsbD s.cfg.rs) (dataNibble s.cfg t.out)
        else s.rx.takeGarbled

/-- R83: `PINR`; the result is the bit of the level word read, for an Output pin its latch, and otherwise free. -/
def Obligations.PinrResult : Prop :=
  ∀ p : BitVec 6,
    PinRequested (0xD000 ||| p.zeroExtend 16) p (.pinr p) ∧
    ∀ s : State, PinReady s → p.toNat < 54 →
    ∃ v l, l = v.getLsbD (p.toNat % 32) ∧ (s.isOutput p.toNat = true → l = s.out.getLsbD p.toNat) ∧
      exec (.pinr p) s = .next { s with
        bus := s.bus ++ [.rr (s.par.offsets.levW + p.toNat / 32) v]
        trace := s.trace ++ [.read p.toNat l]
        draws := s.draws + 1
        resp := some (.done (some l)) }

/-- R84: the loop-back law, in both orders of the first two operations. -/
def Obligations.LoopBack : Prop :=
  ∀ (p : BitVec 6) (l : Level) (s : State), PinReady s → p.toNat < 54 →
    (∃ t, execAll [.pinf p .output, .pinw p l, .pinr p] s = .next t ∧ t.resp = some (.done (some l))) ∧
    (∃ t, execAll [.pinw p l, .pinf p .output, .pinr p] s = .next t ∧ t.resp = some (.done (some l)))

/-- R85: the bit-isolation law: what `PINW p1` and `PINF p1` leave of another pin. -/
def Obligations.BitIsolation : Prop :=
  ∀ (p1 p2 : BitVec 6) (l : Level) (m : PinFn) (s : State), PinReady s → p1.toNat < 54 → p2.toNat < 54 →
    p1 ≠ p2 →
    (s.isOutput p2.toNat = true → ∃ t, execAll [.pinw p1 l, .pinr p2] s = .next t ∧
      t.resp = some (.done (some (s.out.getLsbD p2.toNat)))) ∧
    (∃ t, exec (.pinf p1 m) s = .next t ∧ t.pinField p2.toNat = s.pinField p2.toNat ∧ t.out = s.out)

/-! ### Transfers -/

/-- R91: `NPAIR`, the whole next state. -/
def Obligations.NpairResult : Prop :=
  ∀ b : Byte, Requested (0x2000 ||| b.zeroExtend 16) (.npair b) ∧ ∀ s : State, Operable s →
    exec (.npair b) s = .next (done (s.sent (byteEvents s.cfg b)
      (nibbleLines s.cfg (b.extractLsb' 0 4) s.out)
      (byteInputs s.allDriven (s.out.getLsbD s.cfg.rs) b)))

/-- R92: `NIBC`, the whole next state; that it writes RS is the spec's own reading (D12). -/
def Obligations.NibcResult : Prop :=
  ∀ n : Nibble, Requested (0x3000 ||| n.zeroExtend 16) (.nibc n) ∧ ∀ s : State, Operable s →
    exec (.nibc n) s = .next (done (s.sent (nibbleCommandEvents s.cfg n) (commandLines s.cfg n s.out)
      (nibbleInputs s.allDriven false n)))

/-- R93: `CMD`, the whole next state, for any byte. -/
def Obligations.CmdResult : Prop :=
  ∀ b : Byte, Requested (0x1000 ||| b.zeroExtend 16) (.cmd b) ∧ ∀ s : State, Operable s →
    exec (.cmd b) s = .next (done (s.sent (commandEvents s.cfg b) (commandLines s.cfg (b.extractLsb' 0 4) s.out)
      (commandInputs s.allDriven b)))

/-- R90, R91, R95: the latches of the transfers, seen on the trace; the high nibble comes first. -/
def Obligations.TransferLatches : Prop :=
  ∀ (b : Byte) (n : Nibble) (s : State), Operable s →
    (∃ t evs, exec (.npair b) s = .next t ∧ t.trace = s.trace ++ evs ∧
      (latches s.cfg s.out evs).map Latch.value =
        [(s.out.getLsbD s.cfg.rs, b.extractLsb' 4 4), (s.out.getLsbD s.cfg.rs, b.extractLsb' 0 4)]) ∧
    (∃ t evs, exec (.nibc n) s = .next t ∧ t.trace = s.trace ++ evs ∧
      (latches s.cfg s.out evs).map Latch.value = [(false, n)]) ∧
    (∃ t evs, exec (.cmd b) s = .next t ∧ t.trace = s.trace ++ evs ∧
      (latches s.cfg s.out evs).map Latch.value = [(false, b.extractLsb' 4 4), (false, b.extractLsb' 0 4)])

/-- R94: two pulses per byte, one per nibble, High first, and each pulse holds nothing but its delay. -/
def Obligations.PulseCounts : Prop :=
  ∀ (b : Byte) (n : Nibble) (s : State), Operable s →
    (∃ t evs, exec (.npair b) s = .next t ∧ t.trace = s.trace ++ evs ∧ Pulses s.cfg 2 evs) ∧
    (∃ t evs, exec (.cmd b) s = .next t ∧ t.trace = s.trace ++ evs ∧ Pulses s.cfg 2 evs) ∧
    (s.cx + 1 ≠ s.cfg.cols →
      ∃ t evs, exec (.putc b) s = .next t ∧ t.trace = s.trace ++ evs ∧ Pulses s.cfg 2 evs) ∧
    (∃ t evs, exec (.nibc n) s = .next t ∧ t.trace = s.trace ++ evs ∧ Pulses s.cfg 1 evs)

/-- R96: how the lines rest after each operation of the transfer family and after a character. -/
def Obligations.LinesAtRest : Prop :=
  ∀ (b : Byte) (n : Nibble) (s : State), Operable s →
    (∃ t, exec (.npair b) s = .next t ∧ t.out.getLsbD s.cfg.strb = false ∧
      dataNibble s.cfg t.out = b.extractLsb' 0 4 ∧ t.out.getLsbD s.cfg.rs = s.out.getLsbD s.cfg.rs) ∧
    (∃ t, exec (.nibc n) s = .next t ∧ t.out.getLsbD s.cfg.strb = false ∧
      dataNibble s.cfg t.out = n ∧ t.out.getLsbD s.cfg.rs = false) ∧
    (∃ t, exec (.cmd b) s = .next t ∧ t.out.getLsbD s.cfg.strb = false ∧
      dataNibble s.cfg t.out = b.extractLsb' 0 4 ∧ t.out.getLsbD s.cfg.rs = false) ∧
    (s.cx + 1 ≠ s.cfg.cols → ∃ t, exec (.putc b) s = .next t ∧ t.out.getLsbD s.cfg.strb = false ∧
      dataNibble s.cfg t.out = b.extractLsb' 0 4 ∧ t.out.getLsbD s.cfg.rs = true)

/-- R52, R81, R82: a display operation, `INIT` among them, changes the latch of no pin outside `CFG` and no pin's
function but that `INIT` makes the six Output. -/
def Obligations.OtherPinsUntouched : Prop :=
  (∀ (i : Instr) (s : State), isDisplay i = true ∨ (∃ b, i = .npair b) ∨ (∃ n, i = .nibc n) → InGrid s →
    ∃ t, exec i s = .next t ∧ t.fsel = s.fsel ∧
      ∀ p, p ∉ lcdPins s.cfg → t.out.getLsbD p = s.out.getLsbD p) ∧
  (∀ s : State, Startable s → ∃ t, exec .init s = .next t ∧
    (∀ p ∈ lcdPins s.cfg, t.isOutput p = true) ∧
    ∀ p, p ∉ lcdPins s.cfg → t.out.getLsbD p = s.out.getLsbD p ∧ t.pinField p = s.pinField p)

/-! ### INIT -/

/-- R97 to R105, R108: `INIT`, the whole next state: the function words and the register-level trace of its set-up pin
by pin (R81, R99), both traces, the latch bits, `CTL` after the three toggles. The receiver takes the events as latches,
the one spurious latch of R191 among them. -/
def Obligations.InitResult : Prop :=
  decode (.request 0x0000) = .ok .init ∧
  (∀ s : State, s.queue = [] → s.phase ≠ .uninitialized →
    exec .init s = .next { s with resp := some (.refused .wrongPhase) }) ∧
  ∀ s : State, Startable s →
    exec .init s = .next { s with
      phase := .ready
      disp := some s.cfg
      cx := 0
      cy := 0
      ctl := ((s.ctl ||| s.par.codes.ctrlD.truncate 3) &&& ~~~(s.par.codes.ctrlC.truncate 3)) &&&
        ~~~(s.par.codes.ctrlB.truncate 3)
      trace := s.trace ++ (lcdPins s.cfg).map (fun p => .fsel p .output) ++ initEvents s.cfg s.par s.ctl
      bus := s.bus ++ (madeOutput s.par.offsets (lcdPins s.cfg) s.fsel).2 ++
        (initEvents s.cfg s.par s.ctl).flatMap (Event.onBus s.par.offsets)
      fsel := (madeOutput s.par.offsets (lcdPins s.cfg) s.fsel).1
      out := commandLines s.cfg ((s.par.initTail.getLast?.getD s.par.codes.clear).extractLsb' 0 4) s.out
      rx := Receiver.feed s.par.codes (initInputs s.cfg s.par s.ctl s.out) s.rx
      resp := some (.done none) }

/-- R106: the end state and the counts of `INIT` under the default parameters, for one row and for two. -/
def Obligations.InitEndStateAndCounts : Prop :=
  ∀ s : State, Startable s → s.par = Config.defaultParams → s.ctl = 0b000 →
    ∃ t evs, exec .init s = .next t ∧ t.trace = s.trace ++ evs ∧
      t.phase = .ready ∧ t.cx = 0 ∧ t.cy = 0 ∧ t.ctl = 0b100 ∧
      (∀ p ∈ lcdPins s.cfg, t.isOutput p = true) ∧
      t.out.getLsbD s.cfg.rs = false ∧ t.out.getLsbD s.cfg.strb = false ∧ dataNibble s.cfg t.out = 0x4 ∧
      (evs.filter Event.isFsel).length = 6 ∧
      (s.cfg.rows = 2 → cost evs = (179, 48, 160800) ∧ (evs.filter Event.isPin).length = 125 ∧
        (latches s.cfg s.out evs).map Latch.value =
          [(false, 3), (false, 3), (false, 3), (false, 2), (false, 2), (false, 8), (false, 0), (false, 0xC),
           (false, 0), (false, 0xC), (false, 0), (false, 0xC), (false, 0), (false, 1), (false, 0), (false, 6),
           (false, 1), (false, 4)]) ∧
      (s.cfg.rows = 1 → cost evs = (161, 43, 158600) ∧ (evs.filter Event.isPin).length = 112 ∧
        (latches s.cfg s.out evs).map Latch.value =
          [(false, 3), (false, 3), (false, 3), (false, 2), (false, 0), (false, 0xC),
           (false, 0), (false, 0xC), (false, 0), (false, 0xC), (false, 0), (false, 1), (false, 0), (false, 6),
           (false, 1), (false, 4)])

/-- R155: the handshake from any receiver state, as four instructions with the settling times between, and the whole
receiver it leaves; and what `INIT` therefore leaves, whatever the receiver was, under the codes of R8. That it is
recognised by counting is log 16, the blank 0x20 of the cells log 32. -/
def Obligations.HandshakeSynchronises : Prop :=
  (∀ (s : State) (w1 w2 w3 : Nat), 35000 ≤ w1 → 35000 ≤ w2 → 35000 ≤ w3 → ∃ t1 t2 t3 t4,
    exec .lcdFunc8Nibble s = .next t1 ∧
    exec .lcdFunc8Nibble { t1 with rx := t1.rx.wait w1 } = .next t2 ∧
    exec .lcdFunc8Nibble { t2 with rx := t2.rx.wait w2 } = .next t3 ∧
    exec .lcdFunc4Nibble { t3 with rx := t3.rx.wait w3 } = .next t4 ∧
    t4 = { s with
      rx := {
        sync := some { half := none, ac := none, ddram := [], inc := none, multi := none, ctl := none }
        progress := 0, elapsed := 0, due := 2000, loose := false, shifted := s.rx.shifted }
      wire := none }) ∧
  (∀ s : State, Startable s → s.par.codes = Config.codes → s.par.initTail = [0x06, 0x14] → s.cfg.rows = 2 → ∃ t y,
    exec .init s = .next t ∧ t.rx.sync = some y ∧ y.half = none ∧ y.multi = some true ∧ y.ctl = some 0b100 ∧
    y.inc = some true ∧ y.ac = none ∧ ∀ a, a < 128 → y.ddram.read a = some 0x20) ∧
  (∀ s : State, Startable s → s.par.codes = Config.codes → s.par.initTail = [0x06] → s.cfg.rows = 2 → ∃ t y,
    exec .init s = .next t ∧ t.rx.sync = some y ∧ y.half = none ∧ y.multi = some true ∧ y.ctl = some 0b100 ∧
    y.inc = some true ∧ y.ac = some 0 ∧ ∀ a, a < 128 → y.ddram.read a = some 0x20)

/-- R153, R155, R187 (O3): the other direction. From an `Unknown` receiver, whatever its count, the four latches with
any one of the three settling times cut short, or with an LCD pin loose at the last one, do not synchronise
(logs 16, 17, 18). -/
def Obligations.ShortHandshakeFails : Prop :=
  ∀ (s : State) (w1 w2 w3 : Nat) (loose : Bool), s.rx.sync = none →
    w1 < 35000 ∨ w2 < 35000 ∨ w3 < 35000 ∨ loose = true → ∃ t1 t2 t3 t4,
    exec .lcdFunc8Nibble s = .next t1 ∧
    exec .lcdFunc8Nibble { t1 with rx := t1.rx.wait w1 } = .next t2 ∧
    exec .lcdFunc8Nibble { t2 with rx := t2.rx.wait w2 } = .next t3 ∧
    exec .lcdFunc4Nibble { t3 with rx := { t3.rx.wait w3 with loose := loose } } = .next t4 ∧
    t4.rx.sync = none

/-! ### Characters and the cursor -/

/-- R109: `PUTC`, the whole next state, in both branches. -/
def Obligations.PutcResult : Prop :=
  ∀ b : Byte, Requested (0x4000 ||| b.zeroExtend 16) (.putc b) ∧ ∀ s : State, InGrid s →
    (s.cx + 1 ≠ s.cfg.cols →
      exec (.putc b) s = .next (done { s.sent (dataEvents s.cfg b)
        (nibbleLines s.cfg (b.extractLsb' 0 4) (setLatchBit s.out s.cfg.rs true))
        (byteInputs s.allDriven true b) with cx := s.cx + 1 })) ∧
    (s.cx + 1 = s.cfg.cols → ∀ y', y' = (if s.cy + 1 = s.cfg.rows then 0 else s.cy + 1) →
      exec (.putc b) s = .next (done { s.sent (dataEvents s.cfg b ++ commandEvents s.cfg (addressByte s.par.codes 0 y'))
        (commandLines s.cfg ((addressByte s.par.codes 0 y').extractLsb' 0 4) s.out)
        (byteInputs s.allDriven true b ++ commandInputs s.allDriven (addressByte s.par.codes 0 y')) with
        cx := 0, cy := y' }))

/-- R112, R113: a text of any length: every character completes, where the cursor ends, how much is sent. -/
def Obligations.StringWraps : Prop :=
  ∀ (text : List Byte) (s : State), InGrid s →
    ∃ t evs, execAll (Instr.puts text) s = .next t ∧ t.trace = s.trace ++ evs ∧
      t.cx = (s.cx + text.length) % s.cfg.cols ∧
      t.cy = (s.cy + (s.cx + text.length) / s.cfg.cols) % s.cfg.rows ∧
      evs.length = 17 * text.length + 18 * ((s.cx + text.length) / s.cfg.cols) ∧
      t.ctl = s.ctl ∧ t.phase = .ready ∧ t.fsel = s.fsel ∧
      (text = [] → t = s)

/-- R114, R115, R160: `POS` inside and outside the grid, the whole next state. -/
def Obligations.PosResult : Prop :=
  ∀ (c : Byte) (r : BitVec 4),
    Requested (0x5000 ||| (r.zeroExtend 16 <<< 8) ||| c.zeroExtend 16) (.pos c r) ∧ ∀ s : State, Operable s →
    (c.toNat < s.cfg.cols → r.toNat < s.cfg.rows →
      exec (.pos c r) s = .next (done { s.sent (commandEvents s.cfg (addressByte s.par.codes c.toNat r.toNat))
        (commandLines s.cfg ((addressByte s.par.codes c.toNat r.toNat).extractLsb' 0 4) s.out)
        (commandInputs s.allDriven (addressByte s.par.codes c.toNat r.toNat)) with cx := c.toNat, cy := r.toNat })) ∧
    (s.cfg.cols ≤ c.toNat ∨ s.cfg.rows ≤ r.toNat → exec (.pos c r) s = .next (done s))

/-- R118, R119: `CLEAR`, the whole next state; that it sends one command only is the spec's own reading (D15). -/
def Obligations.ClearResult : Prop :=
  Requested 0x6000 .clear ∧ ∀ s : State, Operable s →
    exec .clear s = .next (done { s.sent (commandEvents s.cfg s.par.codes.clear ++ [.delay s.par.clearExtraUs])
      (commandLines s.cfg (s.par.codes.clear.extractLsb' 0 4) s.out)
      (commandInputs s.allDriven s.par.codes.clear ++ [.wait s.par.clearExtraUs]) with
      cx := 0, cy := 0 })

/-- R120: `HOME`, the whole next state; its extra delay is the spec's own choice (D15). -/
def Obligations.HomeResult : Prop :=
  Requested 0x7000 .home ∧ ∀ s : State, Operable s →
    exec .home s = .next (done { s.sent (commandEvents s.cfg s.par.codes.home ++ [.delay s.par.clearExtraUs])
      (commandLines s.cfg (s.par.codes.home.extractLsb' 0 4) s.out)
      (commandInputs s.allDriven s.par.codes.home ++ [.wait s.par.clearExtraUs]) with
      cx := 0, cy := 0 })

/-! ### Display attributes -/

/-- R123 to R126: `DISP`, `CURS` and `BLINK`, the whole next state: one bit of `CTL` takes the operand, and the
command carries all three bits, sent on every call (the spec's own choice, D8). -/
def Obligations.ToggleResults : Prop :=
  ∀ e : Bool,
    (Requested (if e then 0x8001 else 0x8000) (.disp e) ∧ Requested (if e then 0x9001 else 0x9000) (.curs e) ∧
      Requested (if e then 0xA001 else 0xA000) (.blink e)) ∧
    ∀ s : State, Operable s →
    (let ctl := if e then s.ctl ||| s.par.codes.ctrlD.truncate 3 else s.ctl &&& ~~~(s.par.codes.ctrlD.truncate 3)
     let b : Byte := s.par.codes.ctrl ||| ctl.zeroExtend 8
     exec (.disp e) s = .next (done { s.sent (commandEvents s.cfg b) (commandLines s.cfg (b.extractLsb' 0 4) s.out)
       (commandInputs s.allDriven b) with ctl := ctl })) ∧
    (let ctl := if e then s.ctl ||| s.par.codes.ctrlC.truncate 3 else s.ctl &&& ~~~(s.par.codes.ctrlC.truncate 3)
     let b : Byte := s.par.codes.ctrl ||| ctl.zeroExtend 8
     exec (.curs e) s = .next (done { s.sent (commandEvents s.cfg b) (commandLines s.cfg (b.extractLsb' 0 4) s.out)
       (commandInputs s.allDriven b) with ctl := ctl })) ∧
    (let ctl := if e then s.ctl ||| s.par.codes.ctrlB.truncate 3 else s.ctl &&& ~~~(s.par.codes.ctrlB.truncate 3)
     let b : Byte := s.par.codes.ctrl ||| ctl.zeroExtend 8
     exec (.blink e) s = .next (done { s.sent (commandEvents s.cfg b) (commandLines s.cfg (b.extractLsb' 0 4) s.out)
       (commandInputs s.allDriven b) with ctl := ctl }))

/-- R127: the attributes are independent: each operation changes its own bit only, any two of different kinds
commute on `CTL`, and blink survives the display going off and on. Under the flags of R8 (log 12), whose places in
`CTL` are R19's. -/
def Obligations.AttributesIndependent : Prop :=
  ∀ (d c b : Bool) (s : State), Operable s → s.par.codes = Config.codes →
    (∃ t, exec (.disp d) s = .next t ∧ t.ctl.getLsbD 2 = d ∧ t.ctl.getLsbD 1 = s.ctl.getLsbD 1 ∧
      t.ctl.getLsbD 0 = s.ctl.getLsbD 0) ∧
    (∃ t, exec (.curs c) s = .next t ∧ t.ctl.getLsbD 2 = s.ctl.getLsbD 2 ∧ t.ctl.getLsbD 1 = c ∧
      t.ctl.getLsbD 0 = s.ctl.getLsbD 0) ∧
    (∃ t, exec (.blink b) s = .next t ∧ t.ctl.getLsbD 2 = s.ctl.getLsbD 2 ∧
      t.ctl.getLsbD 1 = s.ctl.getLsbD 1 ∧ t.ctl.getLsbD 0 = b) ∧
    (∀ ops ∈ [([Instr.disp d, .curs c], [Instr.curs c, .disp d]), ([.disp d, .blink b], [.blink b, .disp d]),
        ([.curs c, .blink b], [.blink b, .curs c])],
      ∃ t u, execAll ops.1 s = .next t ∧ execAll ops.2 s = .next u ∧ t.ctl = u.ctl) ∧
    (s.ctl = 0b100 → ∃ t, execAll [.blink true, .disp false, .disp true] s = .next t ∧ t.ctl = 0b101)

/-! ### The receiver's instructions -/

/-- R146, R147: Clear display and Return home, executed by a Synced receiver, the whole next state but for how the
cells are listed; the blank and the effect of home are the spec's own choice (D23, log 32). -/
def Obligations.ClearAndHomeEffect : Prop :=
  ∀ (s : State) (y : Synced), s.rx.sync = some y →
    (∃ cells, exec .lcdClear s =
        .next (commanded (some { y with ac := some (BitVec.ofNat 7 s.par.codes.row0Base), ddram := cells }) s) ∧
      cells.wf ∧ ∀ a, a < 128 → cells.read a = some 0x20) ∧
    exec .lcdHome s = .next (commanded (some { y with ac := some (BitVec.ofNat 7 s.par.codes.row0Base) }) s)

/-- R148, R151: Entry mode set and Cursor/display shift, the whole next state; a commanded display shift hides the
display view (log 20) and without one the view is as before. -/
def Obligations.EntryAndShiftEffect : Prop :=
  ∀ (id sh sc rl : Bool) (s : State) (y : Synced), s.rx.sync = some y →
    (∃ t, exec (.lcdEntry id sh) s = .next t ∧
      t = { commanded (some { y with inc := some id }) s with rx := t.rx } ∧
      t.rx = { (commanded (some { y with inc := some id }) s).rx with shifted := s.rx.shifted || sh } ∧
      (sh = true → ∀ c r, t.shown c r = none) ∧ (sh = false → ∀ c r, t.shown c r = s.shown c r)) ∧
    (∃ t, exec (.lcdCdshift sc rl) s = .next t ∧
      t = { commanded (some { y with ac := none }) s with rx := t.rx } ∧
      t.rx = { (commanded (some { y with ac := none }) s).rx with shifted := s.rx.shifted || sc } ∧
      (sc = true → ∀ c r, t.shown c r = none) ∧ (sc = false → ∀ c r, t.shown c r = s.shown c r))

/-- R148, R151, R154: a display shift, once commanded, hides the view for good, whatever the machine then does
(log 20). -/
def Obligations.ShiftHidesForGood : Prop :=
  ∀ s t : State, step s = .next t → s.rx.shifted = true → t.rx.shifted = true ∧ ∀ c r, t.shown c r = none

/-- R149, R150: Display control and Function set, the whole next state; a full-byte Function set with `DL` loses the
receiver. That the cells survive the display going off is general knowledge (G11). -/
def Obligations.ControlAndFunctionEffect : Prop :=
  ∀ (d c b n f : Bool) (s : State) (y : Synced), s.rx.sync = some y →
    (∃ v, exec (.lcdCtrl d c b) s = .next (commanded (some { y with ctl := some v }) s) ∧
      v.getLsbD 2 = d ∧ v.getLsbD 1 = c ∧ v.getLsbD 0 = b) ∧
    exec (.lcdFunc false n f) s = .next (commanded (some { y with multi := some n }) s) ∧
    exec (.lcdFunc true n f) s = .next (commanded none s)

/-- R139, R140, R143: Set DDRAM address and a data byte, the whole next state: where it is stored, what happens to every
other cell and to the address counter, and that it owes no wait. The wrap at 128 is the spec's own choice (D23,
log 32). -/
def Obligations.AddressAndDataEffect : Prop :=
  ∀ (a : BitVec 7) (v : Byte) (s : State) (y : Synced), s.rx.sync = some y →
    exec (.lcdDdram a) s = .next (commanded (some { y with ac := some a }) s) ∧
    (∃ z, exec (.lcdData v) s = .next { s with rx := { s.rx with sync := some z, due := 0 } } ∧
      z = { y with ac := z.ac, ddram := z.ddram } ∧
      (∀ k, y.ac = some k → ∀ x, z.ddram.read x = if x = k.toNat then some v else y.ddram.read x) ∧
      (y.ac = none → ∀ x, z.ddram.read x = none) ∧
      (∀ k, y.ac = some k → y.inc = some true → ∃ k', z.ac = some k' ∧ k'.toNat = (k.toNat + 1) % 128) ∧
      (y.ac = none ∨ y.inc ≠ some true → z.ac = none))

/-- R142, R143: an `Unknown` receiver absorbs every command and data byte, and every latch but the one that ends the
handshake (R155, log 16): nothing of driver, registers or traces changes and it stays `Unknown`. -/
def Obligations.UnknownAbsorbs : Prop :=
  (∀ (i : Instr) (s : State), isCommand i = true ∨ (∃ v, i = .lcdData v) → s.rx.sync = none →
    exec i s = .next s) ∧
  (∀ (rs : Level) (n : Nibble) (s : State), s.wire = some (.latch rs n) → s.rx.sync = none →
    ∃ t, step s = .next t ∧ t = { s with rx := t.rx, wire := none } ∧ t.rx.shifted = s.rx.shifted ∧
      (t.rx.sync ≠ none ↔
        rs = false ∧ n = 0x2 ∧ s.rx.progress = 3 ∧ s.rx.loose = false ∧ 35000 ≤ s.rx.elapsed)) ∧
  (∀ s : State, s.wire = some .garbled →
    ∃ t, step s = .next t ∧ t = { s with rx := t.rx, wire := none } ∧ t.rx.shifted = s.rx.shifted ∧
      t.rx.sync = none)

/-- R143, R145: one latch taken by a step: a first nibble waits, a second of the same RS level completes a byte
high nibble first, and one of the other level loses the receiver. -/
def Obligations.LatchesPairIntoBytes : Prop :=
  ∀ (rs : Level) (n : Nibble) (s : State) (y : Synced), s.wire = some (.latch rs n) → s.rx.sync = some y →
    s.rx.due ≤ s.rx.elapsed → s.rx.loose = false →
    ¬ (rs = false ∧ n = 0x2 ∧ s.rx.progress = 3 ∧ 35000 ≤ s.rx.elapsed) →
    ∃ t, step s = .next t ∧ t = { s with rx := t.rx, wire := t.wire } ∧ t.rx.shifted = s.rx.shifted ∧
      (y.half = none → t.rx.sync = some { y with half := some (rs, n) } ∧ t.wire = none) ∧
      (∀ m, y.half = some (rs, m) →
        t.rx.sync = some { y with half := none } ∧ t.wire = some (.byte rs (m ++ n))) ∧
      (∀ k m, y.half = some (k, m) → k ≠ rs → t.rx.sync = none ∧ t.wire = none)

/-- R152: a reserved command byte makes the receiver Unknown (the spec's own choice, D23) and changes
nothing else; which bytes are reserved follows from the codes of R8 (log 12). -/
def Obligations.ReservedCommandLoses : Prop :=
  ∀ (v : Byte) (s : State), s.wire = some (.byte false v) → s.par.codes = Config.codes →
    (v = 0x00 ∨ v = 0x03 ∨ (v &&& 0xF0 = 0x10 ∧ v &&& 0x03 ≠ 0) ∨ (v &&& 0xE0 = 0x20 ∧ v &&& 0x03 ≠ 0) ∨
      v &&& 0xC0 = 0x40) →
    step s = .next { s with rx := { s.rx with sync := none }, wire := none }

/-- R153, R187 (O3 to O6): a latch before the last one's settling time loses the receiver and a handshake latch too
early starts the count over; what a command, the fourth handshake latch and a data byte owe. The bookkeeping is the
model's (logs 16, 17). -/
def Obligations.SettlingEnforced : Prop :=
  (∀ (rs : Level) (n : Nibble) (s : State), s.wire = some (.latch rs n) → s.rx.elapsed < s.rx.due →
    ¬ (rs = false ∧ n = 0x2 ∧ s.rx.progress = 3 ∧ 35000 ≤ s.rx.elapsed) →
    ∃ t, step s = .next t ∧ t = { s with rx := t.rx, wire := none } ∧ t.rx.sync = none) ∧
  (∀ (rs : Level) (n : Nibble) (s : State), s.wire = some (.latch rs n) →
    ¬ (rs = false ∧ n = 0x2 ∧ s.rx.progress = 3 ∧ s.rx.loose = false ∧ 35000 ≤ s.rx.elapsed) →
    ∃ t, step s = .next t ∧ t.rx.elapsed = 0 ∧ t.rx.due = 0 ∧ t.rx.loose = false ∧
      t.rx.progress =
        if rs = false ∧ n = 0x3 then
          if 0 < s.rx.progress ∧ s.rx.loose = false ∧ 35000 ≤ s.rx.elapsed then min 3 (s.rx.progress + 1) else 1
        else 0) ∧
  (∀ (i : Instr) (s : State) (y : Synced), isCommand i = true → s.rx.sync = some y →
    ∃ t, exec i s = .next t ∧ t.rx.due = 2000 ∧ t.rx.elapsed = s.rx.elapsed) ∧
  (∀ (v : Byte) (s : State) (y : Synced), s.rx.sync = some y →
    ∃ t, exec (.lcdData v) s = .next t ∧ t.rx.due = 0 ∧ t.rx.elapsed = s.rx.elapsed) ∧
  (∀ s : State, s.rx.progress = 3 → s.rx.loose = false → 35000 ≤ s.rx.elapsed →
    ∃ t, exec .lcdFunc4Nibble s = .next t ∧ t.rx.due = 2000 ∧ t.rx.elapsed = 0)

/-- R193: what the host's own pin operations on LCD pins do to the receiver: an LCD pin made Input, even for a
moment, loses it at the next latch (log 18), and a strobe pulse leaves a stray first nibble. -/
def Obligations.PinOperationsOnLcdPins : Prop :=
  (∀ (p : BitVec 6) (b : Byte) (s : State), Operable s → p.toNat ∈ lcdPins s.cfg →
    (∃ t, execAll [.pinf p .input, .cmd b] s = .next t ∧ t.rx.sync = none) ∧
    (∃ t, execAll [.pinf p .input, .pinf p .output, .cmd b] s = .next t ∧ t.rx.sync = none)) ∧
  (∀ (p : BitVec 6) (s : State) (y : Synced), InStep s y → p.toNat = s.cfg.strb → s.rx.due ≤ s.rx.elapsed →
    s.rx.progress ≠ 3 →
    ∃ t, execAll [.pinw p true, .pinw p false] s = .next t ∧
      t.rx.sync = some { y with half := some (s.out.getLsbD s.cfg.rs, dataNibble s.cfg s.out) })

/-! ### Driver and receiver together -/

/-- R162: what the driver does never depends on the receiver. -/
def Obligations.DriverIgnoresReceiver : Prop :=
  ∀ (w : BitVec 16) (r : Receiver) (s t : State), present w s = .next t →
    ∃ r', present w { s with rx := r } = .next { t with rx := r' }

/-- R139, R146, R147, R149, R129, R117: what `POS`, `CLEAR`, `HOME` and the toggles leave in a receiver that is in
step under the codes of R8 (log 12), and that it stays in step. The blank and home's address are D23 (log 32). -/
def Obligations.CommandsReachReceiver : Prop :=
  ∀ (s : State) (y : Synced), InStep s y →
    (∀ (c : Byte) (r : BitVec 4), c.toNat < s.cfg.cols → r.toNat < s.cfg.rows → ∃ t z,
      exec (.pos c r) s = .next t ∧ InStep t z ∧ t.rx.shifted = s.rx.shifted ∧ z = { y with ac := z.ac } ∧
      z.ac = some (BitVec.ofNat 7 (0x40 * r.toNat + c.toNat))) ∧
    (∃ t z, exec .clear s = .next t ∧ InStep t z ∧ t.rx.shifted = s.rx.shifted ∧
      z = { y with ac := some 0, ddram := z.ddram } ∧ ∀ a, a < 128 → t.cell a = some 0x20) ∧
    (∃ t, exec .home s = .next t ∧ InStep t { y with ac := some 0 } ∧ t.rx.shifted = s.rx.shifted) ∧
    (∀ e : Bool,
      (∃ t, exec (.disp e) s = .next t ∧ InStep t { y with ctl := some t.ctl } ∧ t.rx.shifted = s.rx.shifted) ∧
      (∃ t, exec (.curs e) s = .next t ∧ InStep t { y with ctl := some t.ctl } ∧ t.rx.shifted = s.rx.shifted) ∧
      (∃ t, exec (.blink e) s = .next t ∧ InStep t { y with ctl := some t.ctl } ∧ t.rx.shifted = s.rx.shifted))

/-- R190: `CLEAR`, `HOME` and an in-bounds `POS` bring the receiver's address counter back to the software cursor,
whatever it was, under the codes of R8 (log 12). -/
def Obligations.AgreementRestored : Prop :=
  ∀ (s : State) (y : Synced), InStep s y → y.inc = some true →
    (∀ (c : Byte) (r : BitVec 4), c.toNat < s.cfg.cols → r.toNat < s.cfg.rows →
      ∃ t, exec (.pos c r) s = .next t ∧ Agrees t) ∧
    (∃ t, exec .clear s = .next t ∧ Agrees t) ∧ (∃ t, exec .home s = .next t ∧ Agrees t)

/-- R109, R140, R143, R154: a character written while driver and receiver agree, under the codes and the geometry of R8
(logs 12, 14), lands in the cursor's cell and in no other, they agree after it (past a wrap too), and a display that
shows anything shows it. -/
def Obligations.CharacterLandsAtCursor : Prop :=
  ∀ (b : Byte) (s : State), InGrid s → LinesReady s → Standard s → Agrees s →
    ∃ t, exec (.putc b) s = .next t ∧ InGrid t ∧ LinesReady t ∧ Standard t ∧ Agrees t ∧
      t.rx.shifted = s.rx.shifted ∧
      t.cell (0x40 * s.cy + s.cx) = some b ∧
      (∀ a, a ≠ 0x40 * s.cy + s.cx → t.cell a = s.cell a) ∧
      (∀ y v, s.rx.sync = some y → y.multi = some (decide (1 < s.cfg.rows)) → y.ctl = some v →
        v.getLsbD 2 = true → s.rx.shifted = false → t.shown s.cx s.cy = some b)

/-- R188: every trace of `INIT` and display operations meets the receiver's timing obligations. -/
def Obligations.ProtocolMet : Prop :=
  ∀ (ops : List Instr) (s : State), Startable s → (∀ i ∈ ops, isDisplay i = true) →
    ∃ t evs, execAll (.init :: ops) s = .next t ∧ t.trace = s.trace ++ evs ∧
      meetsProtocol s.par.codes (latches s.cfg s.out evs) = true

/-- R196: micro-operations, `DELAY`s and least time of every operation under the default parameters. -/
def Obligations.LeastTimes : Prop :=
  ∀ (s : State), InGrid s → s.par = Config.defaultParams → ∀ (i : Instr) (k : Nat × Nat × Nat),
    ((∃ n, i = .nibc n) ∧ k = (9, 2, 100)) ∨ ((∃ b, i = .npair b) ∧ k = (16, 4, 200)) ∨
    ((∃ b, i = .cmd b) ∧ k = (18, 5, 2200)) ∨
    ((∃ b, i = .putc b) ∧ s.cx + 1 ≠ s.cfg.cols ∧ k = (17, 4, 200)) ∨
    ((∃ b, i = .putc b) ∧ s.cx + 1 = s.cfg.cols ∧ k = (35, 9, 2400)) ∨
    ((∃ c r, i = .pos c r ∧ c.toNat < s.cfg.cols ∧ r.toNat < s.cfg.rows) ∧ k = (18, 5, 2200)) ∨
    ((∃ c r, i = .pos c r ∧ ¬ (c.toNat < s.cfg.cols ∧ r.toNat < s.cfg.rows)) ∧ k = (0, 0, 0)) ∨
    ((i = .clear ∨ i = .home) ∧ k = (19, 6, 7200)) ∨
    ((∃ e, i = .disp e ∨ i = .curs e ∨ i = .blink e) ∧ k = (18, 5, 2200)) ∨
    ((∃ p : BitVec 6, p.toNat < 54 ∧ (i = .pinr p ∨ (∃ m, i = .pinf p m) ∨ ∃ l, i = .pinw p l)) ∧
      k = (1, 0, 0)) →
    ∃ t evs, exec i s = .next t ∧ t.trace = s.trace ++ evs ∧ cost evs = k
end

