-- ==== Sys2Proof/Laws/Bits.lean ====
section
/-! SUPPORT. What the bit-field operations do, bit by bit: words built from a function of the bit number, latch
bits, bank words, and function-select fields. -/

namespace Sys2Proof.Machine

@[simp] theorem getLsbD_bitsOf (f : Nat → Bool) (n i : Nat) :
    (bitsOf f n).getLsbD i = (decide (i < n) && f i) := by
  induction n with
  | zero => simp [bitsOf]
  | succ n ih =>
    rw [bitsOf, BitVec.getLsbD_cons]
    by_cases h : i = n
    · simp [h]
    · rw [if_neg h, ih]
      by_cases h2 : i < n
      · simp [h2, Nat.lt_succ_of_lt h2]
      · have h3 : ¬ i < n + 1 := by omega
        simp [h2, h3]

theorem getLsbD_setLatchBit (out : BitVec 54) (p : Nat) (l : Bool) (i : Nat) :
    (setLatchBit out p l).getLsbD i = if i = p ∧ i < 54 then l else out.getLsbD i := by
  have h1 : (1#54 <<< p).getLsbD i = decide (i = p ∧ i < 54) := by
    by_cases hp : i = p
    · subst hp; simp [BitVec.getLsbD_shiftLeft]
    · by_cases hlt : i < p
      · simp [BitVec.getLsbD_shiftLeft, hp, hlt]
      · have : i - p ≠ 0 := by omega
        simp [BitVec.getLsbD_shiftLeft, hp, hlt, this]
  unfold setLatchBit
  by_cases hi : i < 54
  · cases l
    · rw [if_neg Bool.false_ne_true, BitVec.getLsbD_and, BitVec.getLsbD_not, h1]
      by_cases h : i = p
      · subst h; simp [hi]
      · simp [h, hi]
    · rw [if_pos rfl, BitVec.getLsbD_or, h1]
      by_cases h : i = p
      · subst h; simp [hi]
      · simp [h]
  · rw [BitVec.getLsbD_of_ge _ i (by omega), BitVec.getLsbD_of_ge _ i (by omega)]
    simp [hi]

@[simp] theorem getLsbD_setLatchBit_same (out : BitVec 54) (p : Nat) (l : Bool) (h : p < 54) :
    (setLatchBit out p l).getLsbD p = l := by
  rw [getLsbD_setLatchBit, if_pos ⟨rfl, h⟩]

theorem getLsbD_setLatchBit_other (out : BitVec 54) (p q : Nat) (l : Bool) (h : q ≠ p) :
    (setLatchBit out p l).getLsbD q = out.getLsbD q := by
  rw [getLsbD_setLatchBit, if_neg (fun hh => h hh.1)]

theorem setLatchBit_again (out : BitVec 54) (p : Nat) (k l : Bool) :
    setLatchBit (setLatchBit out p k) p l = setLatchBit out p l := by
  apply BitVec.eq_of_getLsbD_eq
  intro i _
  simp only [getLsbD_setLatchBit]
  split <;> rfl

theorem setLatchBit_comm (out : BitVec 54) (p q : Nat) (k l : Bool) (h : p ≠ q) :
    setLatchBit (setLatchBit out p k) q l = setLatchBit (setLatchBit out q l) p k := by
  apply BitVec.eq_of_getLsbD_eq
  intro i _
  simp only [getLsbD_setLatchBit]
  by_cases h1 : i = p <;> by_cases h2 : i = q <;> simp_all

/-- The word `writePinLevel` writes names the latch bit of its pin and no other (R82). -/
theorem bankBits_pinMask (p : Nat) (h : p < 54) : bankBits (pinBank p) (pinMask p) = 1#54 <<< p := by
  revert p; decide

/-- A bank word names pin `32b + i` by its bit `i` (R41, R42). -/
theorem getLsbD_bankBits (b : Nat) (v : Word) (i : Nat) (hb : b < 2) (hi : i < 54) :
    (bankBits b v).getLsbD i = (decide (i / 32 = b) && v.getLsbD (i % 32)) := by
  obtain rfl | rfl : b = 0 ∨ b = 1 := by omega
  · by_cases h : i < 32
    · have h0 : i / 32 = 0 := by omega
      have h1 : i % 32 = i := by omega
      simp [bankBits, hi, h0, h1]
    · have h0 : ¬ i / 32 = 0 := by omega
      have h1 : v.getLsbD i = false := BitVec.getLsbD_of_ge _ _ (by omega)
      simp [bankBits, hi, h0, h1]
  · by_cases h : i < 32
    · have h0 : ¬ i / 32 = 1 := by omega
      simp [bankBits, hi, h0, h]
    · have h0 : i / 32 = 1 := by omega
      have h1 : i % 32 = i - 32 := by omega
      simp [bankBits, hi, h0, h1, h]

theorem getLsbD_ones3 (i : Nat) : (7#32).getLsbD i = decide (i < 3) := by
  by_cases h : i < 32
  · revert i; decide
  · rw [BitVec.getLsbD_of_ge _ _ (by omega)]; symm; exact decide_eq_false (by omega)

theorem getLsbD_fnCode (m : PinFn) (i : Nat) : (fnCode m).getLsbD i = (decide (i = 0) && m.bit) := by
  by_cases h : i < 32
  · cases m <;> revert i <;> decide
  · rw [BitVec.getLsbD_of_ge _ _ (by omega)]
    have : ¬ i = 0 := by omega
    simp [this]

/-- Bit by bit: `setPinFunction` replaces the three bits of its field and keeps every other (R81). -/
theorem getLsbD_withField (p : Nat) (m : PinFn) (old : Word) (i : Nat) (hi : i < 32) :
    (withField p m old).getLsbD i =
      if fselShift p ≤ i ∧ i < fselShift p + 3 then (decide (i = fselShift p) && m.bit) else old.getLsbD i := by
  simp only [withField, BitVec.getLsbD_or, BitVec.getLsbD_and, BitVec.getLsbD_not, BitVec.getLsbD_shiftLeft,
    getLsbD_ones3, getLsbD_fnCode, hi]
  by_cases h1 : i < fselShift p
  · have h2 : ¬ (fselShift p ≤ i ∧ i < fselShift p + 3) := by omega
    simp [h1, h2]
  · by_cases h3 : i < fselShift p + 3
    · have h2 : fselShift p ≤ i ∧ i < fselShift p + 3 := by omega
      have h4 : i - fselShift p < 3 := by omega
      have h5 : (i - fselShift p = 0) = (i = fselShift p) := by apply propext; omega
      simp [h1, h2, h4, h5]
    · have h2 : ¬ (fselShift p ≤ i ∧ i < fselShift p + 3) := by omega
      have h4 : ¬ i - fselShift p < 3 := by omega
      have h5 : ¬ i - fselShift p = 0 := by omega
      simp [h1, h2, h4, h5]

theorem fselShift_le (p : Nat) : fselShift p ≤ 27 := by unfold fselShift; omega

/-- The field just written (R81). -/
theorem fieldOf_withField_same (p : Nat) (m : PinFn) (old : Word) :
    fieldOf p (withField p m old) = (fnCode m).truncate 3 := by
  have hs := fselShift_le p
  apply BitVec.eq_of_getLsbD_eq
  intro i hi
  rw [fieldOf, BitVec.getLsbD_extractLsb']
  simp only [hi, decide_true, Bool.true_and]
  rw [getLsbD_withField _ _ _ _ (by omega), if_pos (by omega)]
  simp [hi, getLsbD_fnCode]

/-- A field of the same word that belongs to another pin (R81). -/
theorem fieldOf_withField_other (p q : Nat) (m : PinFn) (old : Word) (h : fselShift q ≠ fselShift p) :
    fieldOf q (withField p m old) = fieldOf q old := by
  have hs := fselShift_le q
  apply BitVec.eq_of_getLsbD_eq
  intro i hi
  rw [fieldOf, fieldOf, BitVec.getLsbD_extractLsb', BitVec.getLsbD_extractLsb']
  simp only [hi, decide_true, Bool.true_and]
  rw [getLsbD_withField _ _ _ _ (by omega), if_neg]
  unfold fselShift at *; omega

/-- The nibble on the data lines, bit by bit (R90). -/
theorem getLsbD_dataNibble (c : Cfg) (out : BitVec 54) (i : Nat) (hi : i < 4) :
    (dataNibble c out).getLsbD i = out.getLsbD (c.dataPin i) := by
  rw [dataNibble, getLsbD_bitsOf, decide_eq_true hi, Bool.true_and]

end Sys2Proof.Machine
end

