-- ==== Sys2Proof/Laws/Memory.lean ====
section
/-! SUPPORT. The laws of DDRAM: read after write, and that every operation keeps the canonical form. -/

namespace Sys2Proof.Machine

@[simp] theorem read_write_same (m : Memory) (a : Nat) (v : Byte) : (m.write a v).read a = some v := by
  induction m with
  | nil => simp [Memory.write, Memory.read]
  | cons x rest ih =>
    obtain ⟨k, y⟩ := x
    simp only [Memory.write]
    split
    · simp [Memory.read]
    · split
      · simp [Memory.read]
      · have h : ¬ k = a := by omega
        simp [Memory.read, h, ih]

theorem read_write_other (m : Memory) (a b : Nat) (v : Byte) (h : b ≠ a) :
    (m.write a v).read b = m.read b := by
  have h' : ¬ a = b := fun e => h e.symm
  induction m with
  | nil => simp [Memory.write, Memory.read, h']
  | cons x rest ih =>
    obtain ⟨k, y⟩ := x
    simp only [Memory.write]
    split
    · simp [Memory.read, h']
    · split
      · subst_vars; simp [Memory.read, h']
      · simp [Memory.read, ih]

theorem read_write (m : Memory) (a b : Nat) (v : Byte) :
    (m.write a v).read b = if b = a then some v else m.read b := by
  split
  · subst_vars; simp
  · exact read_write_other m a b v ‹_›

@[simp] theorem read_unknown (a : Nat) : Memory.unknown.read a = none := rfl

theorem read_fillFrom (a n b : Nat) (v : Byte) :
    (Memory.fillFrom a v n).read b = if a ≤ b ∧ b < a + n then some v else none := by
  induction n generalizing a with
  | zero => rw [if_neg (by omega)]; rfl
  | succ n ih =>
    simp only [Memory.fillFrom, Memory.read, ih]
    by_cases h : a = b
    · rw [if_pos h, if_pos (by omega)]
    · rw [if_neg h]
      by_cases h2 : a + 1 ≤ b ∧ b < a + 1 + n
      · rw [if_pos h2, if_pos (by omega)]
      · rw [if_neg h2, if_neg (by omega)]

theorem read_filled (v : Byte) (a : Nat) : (Memory.filled v).read a = if a < 128 then some v else none := by
  rw [Memory.filled, read_fillFrom]; simp

theorem mem_write {m : Memory} {a : Nat} {v : Byte} {x : Host.Cell} (h : x ∈ m.write a v) :
    x = (a, v) ∨ x ∈ m := by
  induction m with
  | nil => simpa [Memory.write] using h
  | cons y rest ih =>
    obtain ⟨k, z⟩ := y
    simp only [Memory.write] at h
    split at h
    · simpa using h
    · split at h
      · rcases List.mem_cons.1 h with h | h
        · exact .inl h
        · exact .inr (List.mem_cons_of_mem _ h)
      · rcases List.mem_cons.1 h with h | h
        · exact .inr (h ▸ List.mem_cons_self ..)
        · exact (ih h).imp_right (List.mem_cons_of_mem _)

/-- A store to a DDRAM address keeps the canonical form. -/
theorem wf_write {m : Memory} (hm : m.wf) (a : Nat) (v : Byte) (ha : a < 128) : (m.write a v).wf := by
  refine ⟨?_, fun x hx => ?_⟩
  · obtain ⟨hs, -⟩ := hm
    induction m with
    | nil => simp [Memory.write]
    | cons y rest ih =>
      obtain ⟨k, z⟩ := y
      obtain ⟨h1, h2⟩ := List.pairwise_cons.1 hs
      simp only [Memory.write]
      split
      · refine List.pairwise_cons.2 ⟨fun x hx => ?_, hs⟩
        rcases List.mem_cons.1 hx with rfl | hx
        · assumption
        · exact Nat.lt_trans ‹_› (h1 x hx)
      · split
        · subst_vars; exact List.pairwise_cons.2 ⟨h1, h2⟩
        · refine List.pairwise_cons.2 ⟨fun x hx => ?_, ih h2⟩
          rcases mem_write hx with rfl | hx
          · simp only; omega
          · exact h1 x hx
  · rcases mem_write hx with rfl | hx
    · exact ha
    · exact hm.2 x hx

theorem mem_fillFrom {a n : Nat} {v : Byte} {x : Host.Cell} (h : x ∈ Memory.fillFrom a v n) :
    a ≤ x.1 ∧ x.1 < a + n := by
  induction n generalizing a with
  | zero => simp [Memory.fillFrom] at h
  | succ n ih =>
    simp only [Memory.fillFrom, List.mem_cons] at h
    rcases h with rfl | h
    · simp
    · have := ih h; omega

theorem pairwise_fillFrom (a n : Nat) (v : Byte) :
    (Memory.fillFrom a v n).Pairwise (fun x y => x.1 < y.1) := by
  induction n generalizing a with
  | zero => simp [Memory.fillFrom]
  | succ n ih =>
    refine List.pairwise_cons.2 ⟨fun x hx => ?_, ih (a + 1)⟩
    have := mem_fillFrom hx
    simp only; omega

/-- Clearing the display leaves a canonical memory. -/
theorem wf_filled (v : Byte) : (Memory.filled v).wf :=
  ⟨pairwise_fillFrom 0 128 v, fun x hx => by have := mem_fillFrom hx; omega⟩

theorem wf_unknown : Memory.unknown.wf := ⟨List.Pairwise.nil, fun x hx => by cases hx⟩

end Sys2Proof.Machine
end

