-- ==== Sys2Proof/Laws/State.lean ====
section
/-! SUPPORT. One lemma per field for each named update of the state, so that no proof unfolds an update. -/

namespace Sys2Proof.Machine


@[simp] theorem emit_phase (s : State) (e : Event) : (s.emit e).phase = s.phase := rfl
@[simp] theorem emit_disp (s : State) (e : Event) : (s.emit e).disp = s.disp := rfl
@[simp] theorem emit_cx (s : State) (e : Event) : (s.emit e).cx = s.cx := rfl
@[simp] theorem emit_cy (s : State) (e : Event) : (s.emit e).cy = s.cy := rfl
@[simp] theorem emit_ctl (s : State) (e : Event) : (s.emit e).ctl = s.ctl := rfl
@[simp] theorem emit_queue (s : State) (e : Event) : (s.emit e).queue = s.queue := rfl
@[simp] theorem emit_trace (s : State) (e : Event) : (s.emit e).trace = s.trace ++ [e] := rfl
@[simp] theorem emit_bus (s : State) (e : Event) : (s.emit e).bus = s.bus := rfl
@[simp] theorem emit_fsel (s : State) (e : Event) : (s.emit e).fsel = s.fsel := rfl
@[simp] theorem emit_out (s : State) (e : Event) : (s.emit e).out = s.out := rfl
@[simp] theorem emit_rx (s : State) (e : Event) : (s.emit e).rx = s.rx := rfl
@[simp] theorem emit_wire (s : State) (e : Event) : (s.emit e).wire = s.wire := rfl
@[simp] theorem emit_host (s : State) (e : Event) : (s.emit e).host = s.host := rfl
@[simp] theorem emit_resp (s : State) (e : Event) : (s.emit e).resp = s.resp := rfl
@[simp] theorem emit_cfg (s : State) (e : Event) : (s.emit e).cfg = s.cfg := rfl
@[simp] theorem emit_par (s : State) (e : Event) : (s.emit e).par = s.par := rfl
@[simp] theorem emit_allocOk (s : State) (e : Event) : (s.emit e).allocOk = s.allocOk := rfl
@[simp] theorem emit_draws (s : State) (e : Event) : (s.emit e).draws = s.draws := rfl

@[simp] theorem loosen_phase (s : State) (p : Nat) (m : PinFn) : (s.loosen p m).phase = s.phase := rfl
@[simp] theorem loosen_disp (s : State) (p : Nat) (m : PinFn) : (s.loosen p m).disp = s.disp := rfl
@[simp] theorem loosen_cx (s : State) (p : Nat) (m : PinFn) : (s.loosen p m).cx = s.cx := rfl
@[simp] theorem loosen_cy (s : State) (p : Nat) (m : PinFn) : (s.loosen p m).cy = s.cy := rfl
@[simp] theorem loosen_ctl (s : State) (p : Nat) (m : PinFn) : (s.loosen p m).ctl = s.ctl := rfl
@[simp] theorem loosen_queue (s : State) (p : Nat) (m : PinFn) : (s.loosen p m).queue = s.queue := rfl
@[simp] theorem loosen_trace (s : State) (p : Nat) (m : PinFn) : (s.loosen p m).trace = s.trace := rfl
@[simp] theorem loosen_bus (s : State) (p : Nat) (m : PinFn) : (s.loosen p m).bus = s.bus := rfl
@[simp] theorem loosen_fsel (s : State) (p : Nat) (m : PinFn) : (s.loosen p m).fsel = s.fsel := rfl
@[simp] theorem loosen_out (s : State) (p : Nat) (m : PinFn) : (s.loosen p m).out = s.out := rfl
@[simp] theorem loosen_wire (s : State) (p : Nat) (m : PinFn) : (s.loosen p m).wire = s.wire := rfl
@[simp] theorem loosen_host (s : State) (p : Nat) (m : PinFn) : (s.loosen p m).host = s.host := rfl
@[simp] theorem loosen_resp (s : State) (p : Nat) (m : PinFn) : (s.loosen p m).resp = s.resp := rfl
@[simp] theorem loosen_cfg (s : State) (p : Nat) (m : PinFn) : (s.loosen p m).cfg = s.cfg := rfl
@[simp] theorem loosen_par (s : State) (p : Nat) (m : PinFn) : (s.loosen p m).par = s.par := rfl
@[simp] theorem loosen_allocOk (s : State) (p : Nat) (m : PinFn) : (s.loosen p m).allocOk = s.allocOk := rfl
@[simp] theorem loosen_draws (s : State) (p : Nat) (m : PinFn) : (s.loosen p m).draws = s.draws := rfl

@[simp] theorem delay_phase (s : State) (n : Nat) : (delay n s).phase = s.phase := rfl
@[simp] theorem delay_disp (s : State) (n : Nat) : (delay n s).disp = s.disp := rfl
@[simp] theorem delay_cx (s : State) (n : Nat) : (delay n s).cx = s.cx := rfl
@[simp] theorem delay_cy (s : State) (n : Nat) : (delay n s).cy = s.cy := rfl
@[simp] theorem delay_ctl (s : State) (n : Nat) : (delay n s).ctl = s.ctl := rfl
@[simp] theorem delay_queue (s : State) (n : Nat) : (delay n s).queue = s.queue := rfl
@[simp] theorem delay_trace (s : State) (n : Nat) : (delay n s).trace = s.trace ++ [.delay n] := rfl
@[simp] theorem delay_bus (s : State) (n : Nat) : (delay n s).bus = s.bus ++ [.delay n] := rfl
@[simp] theorem delay_fsel (s : State) (n : Nat) : (delay n s).fsel = s.fsel := rfl
@[simp] theorem delay_out (s : State) (n : Nat) : (delay n s).out = s.out := rfl
@[simp] theorem delay_rx (s : State) (n : Nat) : (delay n s).rx = s.rx.wait n := rfl
@[simp] theorem delay_wire (s : State) (n : Nat) : (delay n s).wire = s.wire := rfl
@[simp] theorem delay_host (s : State) (n : Nat) : (delay n s).host = s.host := rfl
@[simp] theorem delay_resp (s : State) (n : Nat) : (delay n s).resp = s.resp := rfl
@[simp] theorem delay_cfg (s : State) (n : Nat) : (delay n s).cfg = s.cfg := rfl
@[simp] theorem delay_par (s : State) (n : Nat) : (delay n s).par = s.par := rfl
@[simp] theorem delay_allocOk (s : State) (n : Nat) : (delay n s).allocOk = s.allocOk := rfl
@[simp] theorem delay_draws (s : State) (n : Nat) : (delay n s).draws = s.draws := rfl

/-- Executing a frame touches the receiver and the frame's place only (R4). -/
theorem receiveFrame_eq (f : Frame) (s : State) :
    receiveFrame f s = { s with rx := (receiveFrame f s).rx, wire := (receiveFrame f s).wire } := by
  cases f <;> rfl

/-- A quiet receiver has nothing to catch up with. -/
theorem settle_quiet {s : State} (h : s.wire = none) : settle s = s := by
  unfold settle; rw [h]

/-- After catching up nothing is pending. -/
@[simp] theorem settle_wire (s : State) : (settle s).wire = none := by
  unfold settle
  split
  · assumption
  · rename_i f h
    cases f with
    | garbled => rfl
    | byte rs v => rfl
    | latch rs n =>
      simp only [receiveFrame]
      cases h2 : (s.rx.takeLatch rs n).2 <;> rfl

/-- Catching up touches the receiver and the frame's place only. -/
theorem settle_eq (s : State) : settle s = { s with rx := (settle s).rx, wire := none } := by
  unfold settle
  split
  · rename_i h; cases s; simp_all
  · rename_i f h
    cases f with
    | garbled => rfl
    | byte rs v => rfl
    | latch rs n =>
      simp only [receiveFrame]
      cases h2 : (s.rx.takeLatch rs n).2 <;> rfl

@[simp] theorem settle_settle (s : State) : settle (settle s) = settle s := settle_quiet (settle_wire s)

/-- A pending latch is taken together with the byte it completes (R143). -/
theorem settle_latch {s : State} {rs : Level} {n : Nibble} (h : s.wire = some (.latch rs n)) :
    settle s = { s with rx := s.rx.latch s.par.codes rs n, wire := none } := by
  unfold settle
  simp only [h, receiveFrame, Receiver.latch]
  rcases h2 : s.rx.takeLatch rs n with ⟨r', _ | ⟨k, v⟩⟩ <;> rfl

theorem settle_garbled {s : State} (h : s.wire = some .garbled) :
    settle s = { s with rx := s.rx.takeGarbled, wire := none } := by
  unfold settle; simp only [h, receiveFrame]

@[simp] theorem settle_phase (s : State) : (settle s).phase = s.phase := by rw [settle_eq]
@[simp] theorem settle_disp (s : State) : (settle s).disp = s.disp := by rw [settle_eq]
@[simp] theorem settle_cx (s : State) : (settle s).cx = s.cx := by rw [settle_eq]
@[simp] theorem settle_cy (s : State) : (settle s).cy = s.cy := by rw [settle_eq]
@[simp] theorem settle_ctl (s : State) : (settle s).ctl = s.ctl := by rw [settle_eq]
@[simp] theorem settle_queue (s : State) : (settle s).queue = s.queue := by rw [settle_eq]
@[simp] theorem settle_trace (s : State) : (settle s).trace = s.trace := by rw [settle_eq]
@[simp] theorem settle_bus (s : State) : (settle s).bus = s.bus := by rw [settle_eq]
@[simp] theorem settle_fsel (s : State) : (settle s).fsel = s.fsel := by rw [settle_eq]
@[simp] theorem settle_out (s : State) : (settle s).out = s.out := by rw [settle_eq]
@[simp] theorem settle_host (s : State) : (settle s).host = s.host := by rw [settle_eq]
@[simp] theorem settle_resp (s : State) : (settle s).resp = s.resp := by rw [settle_eq]
@[simp] theorem settle_cfg (s : State) : (settle s).cfg = s.cfg := by rw [settle_eq]
@[simp] theorem settle_par (s : State) : (settle s).par = s.par := by rw [settle_eq]
@[simp] theorem settle_allocOk (s : State) : (settle s).allocOk = s.allocOk := by rw [settle_eq]
@[simp] theorem settle_draws (s : State) : (settle s).draws = s.draws := by rw [settle_eq]

/-! Sending events touches the traces, the latch bits and the receiver only. -/

@[simp] theorem sent_phase (s : State) (evs : List Event) (out : BitVec 54) (ins : List RxInput) :
    (s.sent evs out ins).phase = s.phase := rfl
@[simp] theorem sent_disp (s : State) (evs : List Event) (out : BitVec 54) (ins : List RxInput) :
    (s.sent evs out ins).disp = s.disp := rfl
@[simp] theorem sent_cx (s : State) (evs : List Event) (out : BitVec 54) (ins : List RxInput) :
    (s.sent evs out ins).cx = s.cx := rfl
@[simp] theorem sent_cy (s : State) (evs : List Event) (out : BitVec 54) (ins : List RxInput) :
    (s.sent evs out ins).cy = s.cy := rfl
@[simp] theorem sent_ctl (s : State) (evs : List Event) (out : BitVec 54) (ins : List RxInput) :
    (s.sent evs out ins).ctl = s.ctl := rfl
@[simp] theorem sent_queue (s : State) (evs : List Event) (out : BitVec 54) (ins : List RxInput) :
    (s.sent evs out ins).queue = s.queue := rfl
@[simp] theorem sent_fsel (s : State) (evs : List Event) (out : BitVec 54) (ins : List RxInput) :
    (s.sent evs out ins).fsel = s.fsel := rfl
@[simp] theorem sent_wire (s : State) (evs : List Event) (out : BitVec 54) (ins : List RxInput) :
    (s.sent evs out ins).wire = s.wire := rfl
@[simp] theorem sent_host (s : State) (evs : List Event) (out : BitVec 54) (ins : List RxInput) :
    (s.sent evs out ins).host = s.host := rfl
@[simp] theorem sent_resp (s : State) (evs : List Event) (out : BitVec 54) (ins : List RxInput) :
    (s.sent evs out ins).resp = s.resp := rfl
@[simp] theorem sent_cfg (s : State) (evs : List Event) (out : BitVec 54) (ins : List RxInput) :
    (s.sent evs out ins).cfg = s.cfg := rfl
@[simp] theorem sent_par (s : State) (evs : List Event) (out : BitVec 54) (ins : List RxInput) :
    (s.sent evs out ins).par = s.par := rfl
@[simp] theorem sent_allocOk (s : State) (evs : List Event) (out : BitVec 54) (ins : List RxInput) :
    (s.sent evs out ins).allocOk = s.allocOk := rfl
@[simp] theorem sent_draws (s : State) (evs : List Event) (out : BitVec 54) (ins : List RxInput) :
    (s.sent evs out ins).draws = s.draws := rfl
@[simp] theorem sent_trace (s : State) (evs : List Event) (out : BitVec 54) (ins : List RxInput) :
    (s.sent evs out ins).trace = s.trace ++ evs := rfl
@[simp] theorem sent_bus (s : State) (evs : List Event) (out : BitVec 54) (ins : List RxInput) :
    (s.sent evs out ins).bus = s.bus ++ evs.flatMap (Event.onBus s.par.offsets) := rfl
@[simp] theorem sent_out (s : State) (evs : List Event) (out : BitVec 54) (ins : List RxInput) :
    (s.sent evs out ins).out = out := rfl
@[simp] theorem sent_rx (s : State) (evs : List Event) (out : BitVec 54) (ins : List RxInput) :
    (s.sent evs out ins).rx = Receiver.feed s.par.codes ins s.rx := rfl
@[simp] theorem sent_isOutput (s : State) (evs : List Event) (out : BitVec 54) (ins : List RxInput) (p : Nat) :
    (s.sent evs out ins).isOutput p = s.isOutput p := rfl
@[simp] theorem sent_allDriven (s : State) (evs : List Event) (out : BitVec 54) (ins : List RxInput) :
    (s.sent evs out ins).allDriven = s.allDriven := rfl

end Sys2Proof.Machine
end

