-- ==== Sys2Proof/Laws/Receiver.lean ====
section
/-! SUPPORT. What a receiver step can do: its DDRAM stays in canonical form, an `Unknown` receiver stays so but
for the handshake, and runs compose. -/

namespace Sys2Proof.Machine

variable {κ : Codes}

@[simp] theorem feed_nil (r : Receiver) : Receiver.feed κ [] r = r := rfl
@[simp] theorem feed_wait (n : Nat) (l : List RxInput) (r : Receiver) :
    Receiver.feed κ (.wait n :: l) r = Receiver.feed κ l (r.wait n) := rfl
@[simp] theorem feed_latch (rs : Level) (n : Nibble) (l : List RxInput) (r : Receiver) :
    Receiver.feed κ (.latch rs n :: l) r = Receiver.feed κ l (r.latch κ rs n) := rfl
@[simp] theorem feed_garbled (l : List RxInput) (r : Receiver) :
    Receiver.feed κ (.garbled :: l) r = Receiver.feed κ l r.takeGarbled := rfl

theorem feed_append (a b : List RxInput) (r : Receiver) :
    Receiver.feed κ (a ++ b) r = Receiver.feed κ b (Receiver.feed κ a r) := by
  induction a generalizing r with
  | nil => rfl
  | cons x rest ih => cases x <;> exact ih _

@[simp] theorem command_unknown {r : Receiver} (k : Nat) (f : Synced → Option Synced) (h : r.sync = none) :
    r.command k f = r := by simp [Receiver.command, h]

theorem command_synced {r : Receiver} {y : Synced} (k : Nat) (f : Synced → Option Synced)
    (h : r.sync = some y) : r.command k f = { r with sync := f y, due := k } := by
  simp [Receiver.command, h]

/-- A command keeps the receiver well formed if it keeps the memory canonical. -/
theorem wf_command {r : Receiver} {k : Nat} {f : Synced → Option Synced} (h : r.Wf)
    (hf : ∀ y z, y.ddram.wf → f y = some z → z.ddram.wf) : (r.command k f).Wf := by
  unfold Receiver.command
  split
  · exact h
  · rename_i y hy
    exact ⟨h.1, fun z hz => hf y z (h.2 y hy) hz⟩

theorem wf_shift {r : Receiver} (b : Bool) (h : r.Wf) : (r.shift b).Wf := h

theorem wf_lose {r : Receiver} (h : r.Wf) : r.lose.Wf := ⟨h.1, fun _ hy => by cases hy⟩

theorem wf_wait {r : Receiver} (n : Nat) (h : r.Wf) : (r.wait n).Wf := h

theorem wf_takeGarbled (r : Receiver) : r.takeGarbled.Wf := ⟨Nat.zero_le _, fun _ hy => by cases hy⟩

theorem wf_data {r : Receiver} (v : Byte) (h : r.Wf) : (r.data v).Wf := by
  refine wf_command h fun y z hy hz => ?_
  cases hz
  cases hac : y.ac with
  | none => exact wf_unknown
  | some a => exact wf_write hy _ _ a.isLt

/-- Executing any wire instruction keeps the receiver well formed. -/
theorem wf_execute {r : Receiver} (i : Instr) (h : r.Wf) : (r.execute κ i).Wf := by
  have keep : ∀ (r : Receiver) (k : Nat) (f : Synced → Synced), r.Wf → (∀ y, (f y).ddram = y.ddram) →
      (r.command k fun y => some (f y)).Wf := fun r k f h hf =>
    wf_command h fun y z hy hz => by cases hz; rw [hf]; exact hy
  cases i with
  | lcdClear => exact wf_command h fun y z _ hz => by cases hz; exact wf_filled _
  | lcdHome => exact keep _ _ _ h fun _ => rfl
  | lcdEntry id sh => exact keep _ _ _ (wf_shift sh h) fun _ => rfl
  | lcdCtrl d c b => exact keep _ _ _ h fun _ => rfl
  | lcdCdshift sc rl => exact keep _ _ _ (wf_shift sc h) fun _ => rfl
  | lcdFunc dl n f =>
    refine wf_command h fun y z hy hz => ?_
    split at hz
    · cases hz
    · cases hz; exact hy
  | lcdDdram a => exact keep _ _ _ h fun _ => rfl
  | lcdData v => exact wf_data v h
  | lcdFunc8Nibble | lcdFunc4Nibble | init | cmd _ | npair _ | nibc _ | putc _ | pos _ _ | clear | home
  | disp _ | curs _ | blink _ | pinf _ _ | pinw _ _ | pinr _ => exact h

theorem wf_takeByte {r : Receiver} (rs : Level) (v : Byte) (h : r.Wf) : (r.takeByte κ rs v).Wf := by
  unfold Receiver.takeByte
  split
  · exact wf_data v h
  · split
    · exact wf_execute _ h
    · exact wf_lose h

theorem counted_le {r : Receiver} (h : r.progress ≤ 3) : r.counted ≤ 3 := by
  unfold Receiver.counted; split <;> omega

theorem nextProgress_le (rs : Level) (n : Nibble) (r : Receiver) : r.nextProgress rs n ≤ 3 := by
  unfold Receiver.nextProgress; split <;> [split; skip] <;> omega

theorem wf_arrive {r : Receiver} (rs : Level) (n : Nibble) (h : r.Wf) : (r.arrive rs n).Wf := by
  refine ⟨nextProgress_le _ _ _, fun y hy => ?_⟩
  simp only [Receiver.arrive] at hy
  split at hy
  · cases hy
  · exact h.2 y hy

theorem wf_pair {r : Receiver} (rs : Level) (n : Nibble) (h : r.Wf) : (r.pair rs n).1.Wf := by
  unfold Receiver.pair
  split
  · exact h
  · rename_i y hy
    split
    · exact ⟨h.1, fun z hz => by cases hz; exact h.2 y hy⟩
    · split
      · exact ⟨h.1, fun z hz => by cases hz; exact h.2 y hy⟩
      · exact wf_lose h

theorem wf_synchronise (r : Receiver) : r.synchronise.Wf :=
  ⟨Nat.zero_le _, fun y hy => by cases hy; exact wf_unknown⟩

theorem wf_takeLatch {r : Receiver} (rs : Level) (n : Nibble) (h : r.Wf) : (r.takeLatch rs n).1.Wf := by
  unfold Receiver.takeLatch
  split
  · exact wf_synchronise r
  · exact wf_pair rs n (wf_arrive rs n h)

theorem wf_latch {r : Receiver} (rs : Level) (n : Nibble) (h : r.Wf) : (r.latch κ rs n).Wf := by
  have h1 := wf_takeLatch rs n h
  unfold Receiver.latch
  split
  · rename_i r' e; rw [e] at h1; exact h1
  · rename_i r' k v e; rw [e] at h1; exact wf_takeByte k v h1

/-- Whatever reaches the receiver, it stays well formed. -/
theorem wf_feed {l : List RxInput} {r : Receiver} (h : r.Wf) : (Receiver.feed κ l r).Wf := by
  induction l generalizing r with
  | nil => exact h
  | cons x rest ih =>
    cases x with
    | latch rs n => exact ih (wf_latch rs n h)
    | garbled => exact ih (wf_takeGarbled r)
    | wait n => exact ih (wf_wait n h)

theorem wf_receiveFrame {s : State} (f : Frame) (h : s.rx.Wf) : (receiveFrame f s).rx.Wf := by
  cases f with
  | latch rs n => exact wf_takeLatch rs n h
  | garbled => exact wf_takeGarbled _
  | byte rs v => exact wf_takeByte rs v h

theorem wf_settle {s : State} (h : s.rx.Wf) : (settle s).rx.Wf := by
  unfold settle
  split
  · exact h
  · rename_i f _
    have h1 : (receiveFrame f { s with wire := none }).rx.Wf := wf_receiveFrame f h
    dsimp only
    split
    · exact h1
    · exact wf_receiveFrame _ h1

/-! ### A commanded display shift is never forgotten (R154) -/

@[simp] theorem command_shifted (r : Receiver) (k : Nat) (f : Synced → Option Synced) :
    (r.command k f).shifted = r.shifted := by unfold Receiver.command; split <;> rfl

@[simp] theorem shift_shifted (r : Receiver) (b : Bool) :
    (r.shift b).shifted = (r.shifted || (b && r.sync.isSome)) := rfl

theorem shifted_execute {r : Receiver} (i : Instr) (h : r.shifted = true) : (r.execute κ i).shifted = true := by
  cases i <;> simp [Receiver.execute, Receiver.clearDisplay, Receiver.returnHome, Receiver.entryMode,
    Receiver.displayControl, Receiver.cursorShift, Receiver.functionSet, Receiver.setAddress, Receiver.data, h]

theorem shifted_takeByte {r : Receiver} (rs : Level) (v : Byte) (h : r.shifted = true) :
    (r.takeByte κ rs v).shifted = true := by
  unfold Receiver.takeByte
  split
  · exact (command_shifted _ _ _).trans h
  · split
    · exact shifted_execute _ h
    · exact h

/-- A latch by itself shifts nothing. -/
theorem shifted_takeLatch (r : Receiver) (rs : Level) (n : Nibble) : (r.takeLatch rs n).1.shifted = r.shifted := by
  unfold Receiver.takeLatch Receiver.pair
  split
  · rfl
  · split
    · rfl
    · split
      · rfl
      · split <;> rfl

theorem shifted_receiveFrame {s : State} (f : Frame) (h : s.rx.shifted = true) :
    (receiveFrame f s).rx.shifted = true := by
  cases f with
  | latch rs n => exact (shifted_takeLatch _ rs n).trans h
  | garbled => exact h
  | byte rs v => exact shifted_takeByte rs v h

theorem shifted_settle {s : State} (h : s.rx.shifted = true) : (settle s).rx.shifted = true := by
  unfold settle
  split
  · exact h
  · rename_i f _
    have h1 : (receiveFrame f { s with wire := none }).rx.shifted = true := shifted_receiveFrame f h
    dsimp only
    split
    · exact h1
    · exact shifted_receiveFrame _ h1

/-- The handshake ends only 35 ms after three counted latches (R155). -/
theorem handshakeEnds_iff (r : Receiver) (rs : Level) (n : Nibble) :
    r.handshakeEnds rs n = true ↔ rs = false ∧ n = 0x2 ∧ r.counted = 3 ∧ Config.tInitUs ≤ r.elapsed := by
  simp [Receiver.handshakeEnds, and_assoc]

/-- A latch that does not end the handshake, step by step (R143, R153). -/
theorem takeLatch_ordinary {r : Receiver} {rs : Level} {n : Nibble} (h : r.handshakeEnds rs n = false) :
    r.takeLatch rs n = (r.arrive rs n).pair rs n := by simp [Receiver.takeLatch, h]

end Sys2Proof.Machine
end

