-- ==== Sys2Proof/Laws/Ops.lean ====
section
/-! SUPPORT. What each shared operation does, said once: the register accesses of the three pin operations, the
micro-operations, the running of a list of items, and the checks of a request. -/

namespace Sys2Proof.Machine

@[simp] theorem andThen_next (s : State) (k : State → Outcome) : andThen (.next s) k = k s := rfl
@[simp] theorem andThen_fault (f : Fault) (k : State → Outcome) : andThen (.fault f) k = .fault f := rfl
@[simp] theorem andThen_refused (r : Refusal) (k : State → Outcome) : andThen (.refused r) k = .refused r := rfl

/-- What a sequence that goes on went through. -/
theorem andThen_eq_next {o : Outcome} {k : State → Outcome} {t : State} (h : andThen o k = .next t) :
    ∃ s, o = .next s ∧ k s = .next t := by
  cases o with
  | next s => exact ⟨s, rfl, h⟩
  | fault f => cases h
  | refused r => cases h

theorem andThen_assoc (o : Outcome) (k l : State → Outcome) :
    andThen (andThen o k) l = andThen o fun s => andThen (k s) l := by cases o <;> rfl

/-! ### Registers (R37, R70) -/

/-- The registers of R37. -/
def Reg.Exists : Reg → Prop
  | .fsel k => k < 6
  | .set b => b < 2
  | .clr b => b < 2
  | .lev b => b < 2

/-- Under the offsets of R9 every register stands at its offset, so naming a register and naming its offset are
one (R37). -/
theorem regAt_wordOf {r : Reg} (h : r.Exists) : regAt Config.offsets (r.wordOf Config.offsets) = some r := by
  cases r with
  | fsel k => revert k; unfold Reg.Exists; decide
  | set b => revert b; unfold Reg.Exists; decide
  | clr b => revert b; unfold Reg.Exists; decide
  | lev b => revert b; unfold Reg.Exists; decide

theorem regRead_wordOf {r : Reg} {s : State} (h : r.Exists) (ho : s.par.offsets = Config.offsets)
    (k : Word → State → Outcome) : regRead (r.wordOf s.par.offsets) s k = readReg r s k := by
  rw [regRead, ho, regAt_wordOf h]

theorem regWrite_wordOf {r : Reg} {s : State} (h : r.Exists) (ho : s.par.offsets = Config.offsets) (v : Word) :
    regWrite (r.wordOf s.par.offsets) v s = writeReg r v s := by
  rw [regWrite, ho, regAt_wordOf h]

/-- `setPinFunction` on a pin (R81): the field, one read and one write on the bus, one event. -/
theorem setPinFunction_eq (p : Nat) (m : PinFn) (s : State) (h : p < 54) :
    setPinFunction p m s = .next { s with
      fsel := s.fsel.setIfInBounds (p / 10) (withField p m (s.fselWord (p / 10)))
      bus := s.bus ++ [.rr (s.par.offsets.fselW + p / 10) (s.fselWord (p / 10)),
        .rw (s.par.offsets.fselW + p / 10) (withField p m (s.fselWord (p / 10)))]
      trace := s.trace ++ [.fsel p m]
      rx := (s.loosen p m).rx } := by
  have h1 : ¬ Config.nPins ≤ p := by unfold Config.nPins; omega
  simp [setPinFunction, h1, readReg, writeReg, Reg.wordOf, fselReg, State.emit, State.loosen]

/-- `writePinLevel` on a pin (R82): the latch bit, one write on the bus, one event, and the falling strobe
hands the lines over. -/
theorem writePinLevel_eq (p : Nat) (l : Level) (s : State) (h : p < 54) :
    writePinLevel p l s = .next { s with
      out := setLatchBit s.out p l
      bus := s.bus ++ [.rw ((if l then s.par.offsets.setW else s.par.offsets.clrW) + pinBank p) (pinMask p)]
      trace := s.trace ++ [.pin p l]
      wire := if s.strobeFalls p l then some (State.sample { s with out := setLatchBit s.out p l })
              else s.wire } := by
  have h1 : ¬ Config.nPins ≤ p := by unfold Config.nPins; omega
  cases l
  · simp only [writePinLevel, h1, if_false, Bool.false_eq_true, writeReg, andThen_next, bankBits_pinMask p h,
      State.emit, setLatchBit]
    rfl
  · simp only [writePinLevel, h1, if_false, if_true, writeReg, andThen_next, bankBits_pinMask p h,
      State.emit, setLatchBit]
    rfl

/-- `readPinLevel` on a pin (R83): one read on the bus, one event, the level as the reply. -/
theorem readPinLevel_eq (p : Nat) (s : State) (h : p < 54) :
    readPinLevel p s = .next { s with
      bus := s.bus ++ [.rr (s.par.offsets.levW + pinBank p) (s.levWord (Config.levelDraw s.draws) (pinBank p))]
      draws := s.draws + 1
      resp := some (.done (some
        (s.levWord (Config.levelDraw s.draws) (pinBank p) &&& pinMask p != 0)))
      trace := s.trace ++ [.read p (s.levWord (Config.levelDraw s.draws) (pinBank p) &&& pinMask p != 0)] } := by
  have h1 : ¬ Config.nPins ≤ p := by unfold Config.nPins; omega
  simp [readPinLevel, h1, readReg, Reg.wordOf, State.emit]

/-- Masking a level word with a pin's bit tests that bit (R83). -/
theorem and_pinMask_ne_zero (v : Word) (p : Nat) : (v &&& pinMask p != 0) = v.getLsbD (pinBit p) := by
  have hp : pinBit p < 32 := by unfold pinBit; omega
  have hb : ∀ i, (pinMask p).getLsbD i = decide (i = pinBit p) := by
    intro i
    by_cases h : i < 32
    · unfold pinMask
      generalize pinBit p = q at hp
      revert h hp
      have key : ∀ q < 32, ∀ i < 32, (1#32 <<< q).getLsbD i = decide (i = q) := by decide
      exact fun h hq => key q hq i h
    · rw [BitVec.getLsbD_of_ge _ _ (by omega)]; symm; exact decide_eq_false (by omega)
  cases hv : v.getLsbD (pinBit p) with
  | true =>
    have : v &&& pinMask p ≠ 0 := by
      intro e
      have e1 := congrArg (fun x : Word => x.getLsbD (pinBit p)) e
      simp [hb, hv] at e1
    simpa using this
  | false =>
    have : v &&& pinMask p = 0 := by
      apply BitVec.eq_of_getLsbD_eq
      intro i _
      rw [BitVec.getLsbD_and, hb]
      by_cases e : i = pinBit p
      · subst e; simp [hv]
      · simp [e]
    simp [this]

/-- The bit of pin `p` in its level word is the pin's level (R43). -/
theorem levWord_bit (s : State) (d : BitVec 64) (p : Nat) :
    (s.levWord d (pinBank p)).getLsbD (pinBit p) = s.level d p := by
  have h1 : pinBit p < 32 := by unfold pinBit; omega
  have h2 : 32 * pinBank p + pinBit p = p := by unfold pinBank pinBit; omega
  rw [State.levWord, getLsbD_bitsOf, decide_eq_true h1, Bool.true_and, h2]

/-- The level read from an Output pin is its latch (R24, R83). -/
theorem level_output {s : State} {p : Nat} (d : BitVec 64) (h : p < 54) (ho : s.isOutput p = true) :
    s.level d p = s.out.getLsbD p := by
  have h' : p < Config.nPins := h
  simp [State.level, h', ho]

/-! ### Function fields (R21, R81, R85) -/

theorem fselWord_set (s : State) (k j : Nat) (v : Word) (h : k < 6) :
    State.fselWord { s with fsel := s.fsel.setIfInBounds k v } j = if j = k then v else s.fselWord j := by
  unfold State.fselWord
  by_cases e : j = k
  · subst e; simp [h]
  · have e' : ¬ k = j := fun x => e x.symm
    simp [e, e']

/-- The field of a pin after `setPinFunction` (R81): the new code for that pin, untouched for every other. -/
theorem pinField_set (s : State) (p q : Nat) (m : PinFn) (h : p < 54) :
    State.pinField
        { s with fsel := s.fsel.setIfInBounds (p / 10) (withField p m (s.fselWord (p / 10))) } q =
      if q = p then (fnCode m).truncate 3 else s.pinField q := by
  unfold State.pinField
  rw [fselWord_set _ _ _ _ (by omega)]
  by_cases e : q = p
  · subst e; simp [fselReg, fieldOf_withField_same]
  · rw [if_neg e]
    by_cases e2 : fselReg q = p / 10
    · rw [if_pos e2, fieldOf_withField_other, e2]
      unfold fselShift fselReg at *; omega
    · rw [if_neg e2]

theorem isOutput_set (s : State) (p q : Nat) (m : PinFn) (h : p < 54) :
    State.isOutput
        { s with fsel := s.fsel.setIfInBounds (p / 10) (withField p m (s.fselWord (p / 10))) } q =
      if q = p then m == .output else s.isOutput q := by
  unfold State.isOutput
  rw [pinField_set _ _ _ _ h]
  by_cases e : q = p
  · rw [if_pos e, if_pos e]; cases m <;> rfl
  · rw [if_neg e, if_neg e]

/-! ### Running a list of items (R20) -/

theorem drain_cons_quiet {s : State} (h : s.wire = none) (a : Action) (rest : List Action) :
    drain (a :: rest) s = andThen (perform a s) (drain rest) := by rw [drain, settle_quiet h]

theorem drain_nil_quiet {s : State} (h : s.wire = none) : drain [] s = .next s := by
  rw [drain, settle_quiet h]

/-- Running catches up first (R4). -/
theorem drain_settle (acts : List Action) (s : State) : drain acts (settle s) = drain acts s := by
  cases acts <;> simp [drain]

/-- Two lists run one after the other. -/
theorem drain_append (as bs : List Action) (s : State) :
    drain (as ++ bs) s = andThen (drain as s) (drain bs) := by
  induction as generalizing s with
  | nil => simp [drain, drain_settle]
  | cons a rest ih =>
    simp only [List.cons_append, drain, andThen_assoc]
    congr 1
    exact funext ih

/-- What a run of a list leaves is quiet. -/
theorem drain_wire {acts : List Action} {s t : State} (h : drain acts s = .next t) : t.wire = none := by
  induction acts generalizing s with
  | nil => rw [drain] at h; cases h; exact settle_wire s
  | cons a rest ih =>
    obtain ⟨u, -, hu⟩ := andThen_eq_next h
    exact ih hu

/-! ### The checks of a request (R161, R164) -/

theorem request_busy {s : State} (admits : Phase → Bool) (body : State → Outcome) (h : s.queue ≠ []) :
    request admits body s = turnAway .busy s := by simp [request, h]

theorem request_wrongPhase {s : State} {admits : Phase → Bool} (body : State → Outcome) (h : s.queue = [])
    (hp : admits s.phase = false) : request admits body s = turnAway .wrongPhase s := by
  simp [request, h, hp]

theorem request_go {s : State} {admits : Phase → Bool} (body : State → Outcome) (h : s.queue = [])
    (hp : admits s.phase = true) : request admits body s = body s := by
  simp [request, h, hp]

/-- A request is answered in one of three ways. -/
theorem request_cases (admits : Phase → Bool) (body : State → Outcome) (s : State) :
    (s.queue ≠ [] ∧ request admits body s = turnAway .busy s) ∨
    (s.queue = [] ∧ admits s.phase = false ∧ request admits body s = turnAway .wrongPhase s) ∨
    (s.queue = [] ∧ admits s.phase = true ∧ request admits body s = body s) := by
  by_cases h : s.queue = []
  · cases hp : admits s.phase with
    | false => exact .inr (.inl ⟨h, rfl, request_wrongPhase body h hp⟩)
    | true => exact .inr (.inr ⟨h, rfl, request_go body h hp⟩)
  · exact .inl ⟨h, request_busy _ _ h⟩

end Sys2Proof.Machine
end

