-- ==== Sys2Proof/Laws/Transfer.lean ====
section
/-! SUPPORT. What the transfers of 41_transfer.md do as a whole: one nibble, one byte, one command. Every
display operation is put together from these. -/

namespace Sys2Proof.Machine

/-- The pin facts an admitted configuration gives (R6 (e)). -/
structure PinsOk (c : Cfg) : Prop where
  rs   : c.rs < 54
  strb : c.strb < 54
  d0   : c.d0 < 54
  d1   : c.d1 < 54
  d2   : c.d2 < 54
  d3   : c.d3 < 54
  nodup : c.pins.Nodup

theorem Cfg.Admitted.pinsOk {k : Codes} {c : Cfg} (h : c.Admitted k) : PinsOk c := by
  obtain ⟨-, -, -, -, hn, hp⟩ := h
  simp only [Cfg.pins, List.mem_cons, List.not_mem_nil, or_false, forall_eq_or_imp, forall_eq,
    Config.nPins] at hp
  exact ⟨hp.1, hp.2.1, hp.2.2.1, hp.2.2.2.1, hp.2.2.2.2.1, hp.2.2.2.2.2, hn⟩

/-- The fifteen inequalities of six distinct pins. -/
theorem PinsOk.distinct {c : Cfg} (h : PinsOk c) :
    (c.rs ≠ c.strb ∧ c.rs ≠ c.d0 ∧ c.rs ≠ c.d1 ∧ c.rs ≠ c.d2 ∧ c.rs ≠ c.d3) ∧
    (c.strb ≠ c.d0 ∧ c.strb ≠ c.d1 ∧ c.strb ≠ c.d2 ∧ c.strb ≠ c.d3) ∧
    (c.d0 ≠ c.d1 ∧ c.d0 ≠ c.d2 ∧ c.d0 ≠ c.d3) ∧ (c.d1 ≠ c.d2 ∧ c.d1 ≠ c.d3) ∧ c.d2 ≠ c.d3 := by
  have := h.nodup
  simp only [Cfg.pins, List.nodup_cons, List.mem_cons, List.not_mem_nil, or_false, not_or,
    List.nodup_nil, not_false_eq_true, and_true] at this
  tauto

/-- Two sendings one after the other are one. -/
theorem sent_sent (s : State) (e1 e2 : List Event) (o1 o2 : BitVec 54) (i1 i2 : List RxInput) :
    (s.sent e1 o1 i1).sent e2 o2 i2 = s.sent (e1 ++ e2) o2 (i1 ++ i2) := by
  simp [State.sent, feed_append]

/-- A level write that makes no falling strobe. -/
theorem drain_write {s : State} {p : Nat} {l : Level} (rest : List Action) (hw : s.wire = none) (hp : p < 54)
    (hs : s.strobeFalls p l = false) :
    drain (.writePin p l :: rest) s = drain rest (s.sent [.pin p l] (setLatchBit s.out p l) []) := by
  rw [drain_cons_quiet hw, perform, writePinLevel_eq _ _ _ hp, andThen_next, hs]
  rfl

/-- A falling strobe: the receiver takes what the lines then carry (R88, R95). -/
theorem drain_fall {s : State} (rest : List Action) (hw : s.wire = none) (hp : s.cfg.strb < 54)
    (hs : s.out.getLsbD s.cfg.strb = true) :
    drain (.writePin s.cfg.strb false :: rest) s = drain rest (s.sent [.pin s.cfg.strb false]
      (setLatchBit s.out s.cfg.strb false)
      [lineInput s.allDriven ((setLatchBit s.out s.cfg.strb false).getLsbD s.cfg.rs)
        (dataNibble s.cfg (setLatchBit s.out s.cfg.strb false))]) := by
  have hf : s.strobeFalls s.cfg.strb false = true := by simp [State.strobeFalls, hs]
  rw [drain_cons_quiet hw, perform, writePinLevel_eq _ _ _ hp, andThen_next, hf, if_pos rfl,
    ← drain_settle]
  congr 1
  unfold State.sample
  cases hd : s.allDriven with
  | true =>
    have hd' : State.allDriven { s with out := setLatchBit s.out s.cfg.strb false } = true := hd
    rw [if_pos hd', settle_latch rfl]
    simp only [State.sent, lineInput, if_true, feed_latch, feed_nil, Event.onBus, Bool.false_eq_true, if_false,
      List.flatMap_cons, List.flatMap_nil, List.append_nil]
    rw [← hw]
  | false =>
    have hd' : ¬ State.allDriven { s with out := setLatchBit s.out s.cfg.strb false } = true := by
      rw [show State.allDriven { s with out := setLatchBit s.out s.cfg.strb false } = s.allDriven from rfl, hd]
      exact Bool.false_ne_true
    rw [if_neg hd', settle_garbled rfl]
    simp only [State.sent, lineInput, if_false, feed_garbled, feed_nil, Event.onBus, Bool.false_eq_true,
      List.flatMap_cons, List.flatMap_nil, List.append_nil]
    rw [← hw]

theorem drain_delay {s : State} (n : Nat) (rest : List Action) (hw : s.wire = none) :
    drain (.delay n :: rest) s = drain rest (s.sent [.delay n] s.out [.wait n]) := by
  rw [drain_cons_quiet hw]; rfl

theorem drain_cursor {s : State} (x y : Nat) (rest : List Action) (hw : s.wire = none) :
    drain (.cursor x y :: rest) s = drain rest { s with cx := x, cy := y } := by
  rw [drain_cons_quiet hw]; rfl

theorem drain_control {s : State} (c : BitVec 3) (rest : List Action) (hw : s.wire = none) :
    drain (.control c :: rest) s = drain rest { s with ctl := c } := by
  rw [drain_cons_quiet hw]; rfl

theorem drain_record {s : State} (rest : List Action) (hw : s.wire = none) :
    drain (.record :: rest) s = drain rest { s with disp := some s.cfg } := by
  rw [drain_cons_quiet hw]; rfl

theorem drain_phase {s : State} (ph : Phase) (rest : List Action) (hw : s.wire = none) :
    drain (.phase ph :: rest) s = drain rest { s with phase := ph } := by
  rw [drain_cons_quiet hw]; rfl

theorem drain_finish {s : State} (hw : s.wire = none) :
    drain [.finish] s = .next { s with resp := some (.done none) } := by
  rw [drain_cons_quiet hw]
  exact drain_nil_quiet (s := { s with resp := some (.done none) }) hw

/-! ### The lines after a transfer (R90, R96) -/

/-- The data lines carry the nibble written to them (R90). -/
theorem dataNibble_written {c : Cfg} (h : PinsOk c) (n : Nibble) (out : BitVec 54) :
    dataNibble c (nibbleLines c n out) = n := by
  obtain ⟨-, ⟨s0, s1, s2, s3⟩, ⟨h01, h02, h03⟩, ⟨h12, h13⟩, h23⟩ := h.distinct
  obtain ⟨-, -, l0, l1, l2, l3, -⟩ := h
  apply BitVec.eq_of_getLsbD_eq
  intro i hi
  rw [getLsbD_dataNibble _ _ _ hi, nibbleLines]
  obtain rfl | rfl | rfl | rfl : i = 0 ∨ i = 1 ∨ i = 2 ∨ i = 3 := by omega
  · simp only [Cfg.dataPin, getLsbD_setLatchBit, l0, h01, h02, h03, s0.symm, false_and, if_false, and_self,
      if_true]
  · simp only [Cfg.dataPin, getLsbD_setLatchBit, l1, h12, h13, s1.symm, false_and, if_false, and_self,
      if_true]
  · simp only [Cfg.dataPin, getLsbD_setLatchBit, l2, h23, s2.symm, false_and, if_false, and_self, if_true]
  · simp only [Cfg.dataPin, getLsbD_setLatchBit, l3, s3.symm, false_and, if_false, and_self, if_true]

/-- A line that is none of the five is untouched by a transfer. -/
theorem other_nibbleLines {c : Cfg} (n : Nibble) (out : BitVec 54) (p : Nat)
    (hp : p ≠ c.strb ∧ p ≠ c.d0 ∧ p ≠ c.d1 ∧ p ≠ c.d2 ∧ p ≠ c.d3) :
    (nibbleLines c n out).getLsbD p = out.getLsbD p := by
  simp only [nibbleLines, getLsbD_setLatchBit, hp.1, hp.2.1, hp.2.2.1, hp.2.2.2.1, hp.2.2.2.2, false_and,
    if_false]

/-- A transfer does not touch RS (R64). -/
theorem rs_nibbleLines {c : Cfg} (h : PinsOk c) (n : Nibble) (out : BitVec 54) :
    (nibbleLines c n out).getLsbD c.rs = out.getLsbD c.rs :=
  other_nibbleLines n out _ h.distinct.1

/-- The strobe rests Low after a transfer (R88). -/
theorem strb_nibbleLines {c : Cfg} (h : PinsOk c) (n : Nibble) (out : BitVec 54) :
    (nibbleLines c n out).getLsbD c.strb = false := getLsbD_setLatchBit_same _ _ _ h.strb

/-- Only the last nibble of a transfer is left on the lines (R96). -/
theorem nibbleLines_again (c : Cfg) (m n : Nibble) (out : BitVec 54) :
    nibbleLines c n (nibbleLines c m out) = nibbleLines c n out := by
  apply BitVec.eq_of_getLsbD_eq
  intro i hi
  simp only [nibbleLines, getLsbD_setLatchBit]
  split <;> try rfl
  split <;> try rfl
  split <;> try rfl
  split <;> try rfl
  split <;> rfl

/-- The strobe's own rise within a transfer leaves no mark on the lines. -/
theorem rise_fall_lines (c : Cfg) (n : Nibble) (out : BitVec 54) :
    setLatchBit (setLatchBit (setLatchBit (setLatchBit (setLatchBit (setLatchBit out c.d0 (n.getLsbD 0))
      c.d1 (n.getLsbD 1)) c.d2 (n.getLsbD 2)) c.d3 (n.getLsbD 3)) c.strb true) c.strb false =
    nibbleLines c n out := setLatchBit_again ..

/-! ### Transfers (R89, R91, R93)

Every lemma is about a state that has already sent something; `sent_nil` starts the chain. -/

@[simp] theorem sent_nil (s : State) : s.sent [] s.out [] = s := by simp [State.sent]

theorem drain_write_sent {s : State} (hw : s.wire = none) (e : List Event) (o : BitVec 54) (i : List RxInput)
    {p : Nat} {l : Level} (rest : List Action) (hp : p < 54) (hs : p ≠ s.cfg.strb ∨ l = true) :
    drain (.writePin p l :: rest) (s.sent e o i) =
      drain rest (s.sent (e ++ [.pin p l]) (setLatchBit o p l) i) := by
  have hf : (s.sent e o i).strobeFalls p l = false := by
    rcases hs with hs | hs <;> simp [State.strobeFalls, hs]
  rw [drain_write (s := s.sent e o i) rest hw hp hf, sent_sent, sent_out, List.append_nil]

theorem drain_fall_sent {s : State} (hw : s.wire = none) (e : List Event) (o : BitVec 54) (i : List RxInput)
    (rest : List Action) (hp : s.cfg.strb < 54) (ho : o.getLsbD s.cfg.strb = true) :
    drain (.writePin s.cfg.strb false :: rest) (s.sent e o i) = drain rest (s.sent
      (e ++ [.pin s.cfg.strb false]) (setLatchBit o s.cfg.strb false)
      (i ++ [lineInput s.allDriven ((setLatchBit o s.cfg.strb false).getLsbD s.cfg.rs)
        (dataNibble s.cfg (setLatchBit o s.cfg.strb false))])) := by
  rw [← sent_sent]
  exact drain_fall (s := s.sent e o i) rest hw hp ho

theorem drain_delay_sent {s : State} (hw : s.wire = none) (e : List Event) (o : BitVec 54) (i : List RxInput)
    (n : Nat) (rest : List Action) :
    drain (.delay n :: rest) (s.sent e o i) = drain rest (s.sent (e ++ [.delay n]) o (i ++ [.wait n])) := by
  rw [← sent_sent]
  exact drain_delay (s := s.sent e o i) n rest hw

/-- One nibble transfer (R89, R62). -/
theorem drain_putNibble_sent {s : State} (h : PinsOk s.cfg) (hw : s.wire = none) (e : List Event)
    (o : BitVec 54) (i : List RxInput) (n : Nibble) (rest : List Action) :
    drain (putNibble s.cfg n ++ rest) (s.sent e o i) = drain rest (s.sent
      (e ++ eventsOf (putNibble s.cfg n)) (nibbleLines s.cfg n o)
      (i ++ nibbleInputs s.allDriven (o.getLsbD s.cfg.rs) n)) := by
  obtain ⟨-, ⟨s0, s1, s2, s3⟩, -⟩ := h.distinct
  simp only [putNibble, strobe, List.cons_append, List.nil_append]
  rw [drain_write_sent hw _ _ _ _ h.d0 (.inl s0.symm), drain_write_sent hw _ _ _ _ h.d1 (.inl s1.symm),
    drain_write_sent hw _ _ _ _ h.d2 (.inl s2.symm), drain_write_sent hw _ _ _ _ h.d3 (.inl s3.symm),
    drain_write_sent hw _ _ _ _ h.strb (.inr rfl), drain_delay_sent hw,
    drain_fall_sent hw _ _ _ _ h.strb (getLsbD_setLatchBit_same _ _ _ h.strb), drain_delay_sent hw,
    rise_fall_lines, rs_nibbleLines h, dataNibble_written h]
  simp [nibbleInputs, eventsOf]

/-- One byte transfer, the high nibble first (R91). -/
theorem drain_nibblePair_sent {s : State} (h : PinsOk s.cfg) (hw : s.wire = none) (e : List Event)
    (o : BitVec 54) (i : List RxInput) (b : Byte) (rest : List Action) :
    drain (nibblePair s.cfg b ++ rest) (s.sent e o i) = drain rest (s.sent
      (e ++ eventsOf (nibblePair s.cfg b)) (nibbleLines s.cfg (loNibble b) o)
      (i ++ byteInputs s.allDriven (o.getLsbD s.cfg.rs) b)) := by
  rw [nibblePair, List.append_assoc, drain_putNibble_sent h hw, drain_putNibble_sent h hw, rs_nibbleLines h,
    nibbleLines_again, List.append_assoc, List.append_assoc]
  rfl

/-- The RS write and the byte that follows it: command with RS Low, data with RS High (R64). -/
theorem drain_selected_sent {s : State} (h : PinsOk s.cfg) (hw : s.wire = none) (e : List Event)
    (o : BitVec 54) (i : List RxInput) (l : Level) (b : Byte) (rest : List Action) :
    drain (.writePin s.cfg.rs l :: (nibblePair s.cfg b ++ rest)) (s.sent e o i) = drain rest (s.sent
      (e ++ .pin s.cfg.rs l :: eventsOf (nibblePair s.cfg b))
      (nibbleLines s.cfg (loNibble b) (setLatchBit o s.cfg.rs l)) (i ++ byteInputs s.allDriven l b)) := by
  rw [drain_write_sent hw _ _ _ _ h.rs (.inl h.distinct.1.1), drain_nibblePair_sent h hw,
    getLsbD_setLatchBit_same _ _ _ h.rs, List.append_assoc]
  rfl

/-- The nibble-only command write (R92). -/
theorem drain_nibbleCommand_sent {s : State} (h : PinsOk s.cfg) (hw : s.wire = none) (e : List Event)
    (o : BitVec 54) (i : List RxInput) (n : Nibble) (rest : List Action) :
    drain (nibbleCommand s.cfg n ++ rest) (s.sent e o i) = drain rest (s.sent
      (e ++ eventsOf (nibbleCommand s.cfg n)) (nibbleLines s.cfg n (setLatchBit o s.cfg.rs false))
      (i ++ nibbleInputs s.allDriven false n)) := by
  rw [nibbleCommand, List.cons_append, drain_write_sent hw _ _ _ _ h.rs (.inl h.distinct.1.1),
    drain_putNibble_sent h hw, getLsbD_setLatchBit_same _ _ _ h.rs, List.append_assoc]
  rfl

/-- A whole command (R93). -/
theorem drain_sendCommand_sent {s : State} (h : PinsOk s.cfg) (hw : s.wire = none) (e : List Event)
    (o : BitVec 54) (i : List RxInput) (b : Byte) (rest : List Action) :
    drain (sendCommand s.cfg b ++ rest) (s.sent e o i) = drain rest (s.sent
      (e ++ eventsOf (sendCommand s.cfg b))
      (nibbleLines s.cfg (loNibble b) (setLatchBit o s.cfg.rs false))
      (i ++ (byteInputs s.allDriven false b ++ [.wait Config.tCmdUs]))) := by
  rw [sendCommand, List.append_assoc, List.cons_append, drain_selected_sent h hw]
  refine (drain_delay_sent hw _ _ _ _ _).trans ?_
  simp [eventsOf, nibblePair, putNibble, strobe]

end Sys2Proof.Machine
end

