-- ==== Sys2Proof/Laws/Operations.lean ====
section
/-! SUPPORT. What each host operation does as a whole: the state after the item list of CMD, NPAIR, NIBC, PUTC,
POS, CLEAR, HOME, the toggles and INIT. -/

namespace Sys2Proof.Machine

/-! ### Driver-state items between the wire items (R20) -/

theorem drain_cursor_sent {s : State} (hw : s.wire = none) (e : List Event) (o : BitVec 54) (i : List RxInput)
    (x y : Nat) (rest : List Action) :
    drain (.cursor x y :: rest) (s.sent e o i) = drain rest (State.sent e o i { s with cx := x, cy := y }) :=
  drain_cursor (s := s.sent e o i) x y rest hw

theorem drain_control_sent {s : State} (hw : s.wire = none) (e : List Event) (o : BitVec 54)
    (i : List RxInput) (c : BitVec 3) (rest : List Action) :
    drain (.control c :: rest) (s.sent e o i) = drain rest (State.sent e o i { s with ctl := c }) :=
  drain_control (s := s.sent e o i) c rest hw

theorem drain_finish_sent {s : State} (hw : s.wire = none) (e : List Event) (o : BitVec 54)
    (i : List RxInput) :
    drain [.finish] (s.sent e o i) = .next (State.sent e o i { s with resp := some (.done none) }) :=
  drain_finish (s := s.sent e o i) hw

/-- The lines after another transfer that writes RS first (R96). -/
theorem lines_again {c : Cfg} (h : PinsOk c) (m n : Nibble) (k l : Level) (out : BitVec 54) :
    nibbleLines c n (setLatchBit (nibbleLines c m (setLatchBit out c.rs k)) c.rs l) =
      nibbleLines c n (setLatchBit out c.rs l) := by
  obtain ⟨⟨r, r0, r1, r2, r3⟩, -⟩ := h.distinct
  have e : setLatchBit (nibbleLines c m (setLatchBit out c.rs k)) c.rs l =
      nibbleLines c m (setLatchBit out c.rs l) := by
    unfold nibbleLines
    rw [setLatchBit_comm _ _ _ _ _ r.symm, setLatchBit_comm _ _ _ _ _ r3.symm,
      setLatchBit_comm _ _ _ _ _ r2.symm, setLatchBit_comm _ _ _ _ _ r1.symm,
      setLatchBit_comm _ _ _ _ _ r0.symm, setLatchBit_again]
  rw [e, nibbleLines_again]

theorem commandLines_again {c : Cfg} (h : PinsOk c) (m n : Nibble) (out : BitVec 54) :
    commandLines c n (commandLines c m out) = commandLines c n out := lines_again h m n false false out

/-! ### Which requests run -/

theorem operable_pins {s : State} (h : Operable s) : PinsOk s.cfg := Cfg.Admitted.pinsOk h.2.2

theorem ready_goes {s : State} (h : Operable s) (body : State → Outcome) :
    request whenReady body s = body s :=
  request_go body h.1.1 (by rw [h.2.1]; rfl)

theorem pin_goes {s : State} (hq : s.queue = []) (hp : s.phase ≠ .fatal) (body : State → Outcome) :
    request unlessFatal body s = body s :=
  request_go body hq (by cases e : s.phase <;> simp_all [unlessFatal])

theorem onPin_goes {s : State} {p : BitVec 6} (h : p.toNat < 54) (body : State → Outcome) :
    onPin p body s = body s := by
  rw [onPin, if_neg (by unfold Config.nPins; omega)]

/-! ### One wire transfer and a reply -/

/-- Running `acts` and returning. -/
theorem operate_sent {s : State} {acts : List Action} {e : List Event} {o : BitVec 54} {i : List RxInput}
    (hw : s.wire = none)
    (h : drain (acts ++ [.finish]) (State.sent [] s.out [] { s with resp := none }) =
      drain [.finish] (State.sent e o i { s with resp := none })) :
    operate (acts ++ [.finish]) s = .next (State.sent e o i { s with resp := some (.done none) }) := by
  rw [operate, ← sent_nil { s with resp := none }, h]
  exact drain_finish_sent (s := { s with resp := none }) hw e o i

/-- `NPAIR` (R91). -/
theorem execNpair_eq {s : State} (h : Operable s) (b : Byte) :
    execNpair b s = .next (State.sent (eventsOf (nibblePair s.cfg b)) (nibbleLines s.cfg (loNibble b) s.out)
      (byteInputs s.allDriven (s.out.getLsbD s.cfg.rs) b) { s with resp := some (.done none) }) := by
  rw [execNpair, ready_goes h]
  exact operate_sent h.1.2
    (drain_nibblePair_sent (s := { s with resp := none }) (operable_pins h) h.1.2 [] s.out [] b _)

/-- `NIBC` (R92). -/
theorem execNibc_eq {s : State} (h : Operable s) (n : Nibble) :
    execNibc n s = .next (State.sent (eventsOf (nibbleCommand s.cfg n))
      (commandLines s.cfg n s.out) (nibbleInputs s.allDriven false n)
      { s with resp := some (.done none) }) := by
  rw [execNibc, ready_goes h]
  exact operate_sent h.1.2
    (drain_nibbleCommand_sent (s := { s with resp := none }) (operable_pins h) h.1.2 [] s.out [] n _)

/-- The state a whole command leaves (R93). -/
def State.commanded (b : Byte) (s : State) : State :=
  s.sent (eventsOf (sendCommand s.cfg b)) (commandLines s.cfg (loNibble b) s.out)
    (commandInputs s.allDriven b)

/-- `CMD` (R93). -/
theorem execCmd_eq {s : State} (h : Operable s) (b : Byte) :
    execCmd b s = .next (State.commanded b { s with resp := some (.done none) }) := by
  rw [execCmd, ready_goes h]
  exact operate_sent h.1.2
    (drain_sendCommand_sent (s := { s with resp := none }) (operable_pins h) h.1.2 [] s.out [] b _)

/-- A command among other items (R93). -/
theorem drain_command {s : State} (h : PinsOk s.cfg) (hw : s.wire = none) (b : Byte) (rest : List Action) :
    drain (sendCommand s.cfg b ++ rest) s = drain rest (s.commanded b) := by
  have := drain_sendCommand_sent h hw [] s.out [] b rest
  rw [sent_nil] at this
  exact this

/-- `DISP`, `CURS`, `BLINK` (R123). -/
theorem operate_setControl {s : State} (h : Operable s) (mask : BitVec 3) (e : Bool) :
    operate (setControl s.par.codes s.cfg mask e s.ctl ++ [.finish]) s =
      .next (State.commanded (controlByte s.par.codes (setCtlBit mask e s.ctl))
        { s with ctl := setCtlBit mask e s.ctl, resp := some (.done none) }) := by
  rw [operate, setControl, List.cons_append]
  refine (drain_control _ _ (by exact h.1.2)).trans ?_
  refine (drain_command (s := { s with resp := none, ctl := setCtlBit mask e s.ctl })
    (operable_pins h) h.1.2 _ _).trans ?_
  exact drain_finish (by exact h.1.2)

theorem execDisp_eq {s : State} (h : Operable s) (e : Bool) :
    execDisp e s = .next (State.commanded (controlByte s.par.codes (setCtlBit (ctlMask s.par.codes.ctrlD) e s.ctl))
      { s with ctl := setCtlBit (ctlMask s.par.codes.ctrlD) e s.ctl, resp := some (.done none) }) := by
  rw [execDisp, ready_goes h, operate_setControl h]

theorem execCurs_eq {s : State} (h : Operable s) (e : Bool) :
    execCurs e s = .next (State.commanded (controlByte s.par.codes (setCtlBit (ctlMask s.par.codes.ctrlC) e s.ctl))
      { s with ctl := setCtlBit (ctlMask s.par.codes.ctrlC) e s.ctl, resp := some (.done none) }) := by
  rw [execCurs, ready_goes h, operate_setControl h]

theorem execBlink_eq {s : State} (h : Operable s) (e : Bool) :
    execBlink e s = .next (State.commanded (controlByte s.par.codes (setCtlBit (ctlMask s.par.codes.ctrlB) e s.ctl))
      { s with ctl := setCtlBit (ctlMask s.par.codes.ctrlB) e s.ctl, resp := some (.done none) }) := by
  rw [execBlink, ready_goes h, operate_setControl h]

/-- `CLEAR` and `HOME` (R118, R120). -/
theorem operate_commandAndReturn {s : State} (h : Operable s) (n : Nat) (b : Byte) :
    operate (commandAndReturn s.cfg n b ++ [.finish]) s =
      .next (State.sent (eventsOf (sendCommand s.cfg b) ++ [.delay n])
        (commandLines s.cfg (loNibble b) s.out)
        (commandInputs s.allDriven b ++ [.wait n])
        { s with cx := 0, cy := 0, resp := some (.done none) }) := by
  rw [operate, commandAndReturn, List.append_assoc]
  refine (drain_command (s := { s with resp := none }) (operable_pins h) h.1.2 _ _).trans ?_
  refine (drain_cursor _ _ _ (by exact h.1.2)).trans ?_
  refine (drain_delay_sent (s := { s with resp := none, cx := 0, cy := 0 }) h.1.2 _ _ _ n _).trans ?_
  refine (drain_finish_sent (s := { s with resp := none, cx := 0, cy := 0 }) h.1.2 _ _ _).trans ?_
  rfl

/-- `POS` inside the grid (R114). -/
theorem execPos_inside {s : State} (h : Operable s) (c : Byte) (r : BitVec 4)
    (hb : outOfBounds s.cfg c.toNat r.toNat = false) :
    execPos c r s = .next (State.commanded (positionByte s.par.codes c.toNat r.toNat)
      { s with cx := c.toNat, cy := r.toNat, resp := some (.done none) }) := by
  rw [execPos, ready_goes h, operate, setPosition, hb, if_neg Bool.false_ne_true, List.append_assoc]
  refine (drain_command (s := { s with resp := none }) (operable_pins h) h.1.2 _ _).trans ?_
  refine (drain_cursor _ _ _ (by exact h.1.2)).trans ?_
  exact drain_finish (by exact h.1.2)

/-- `POS` outside the grid (R115). -/
theorem execPos_outside {s : State} (h : Operable s) (c : Byte) (r : BitVec 4)
    (hb : outOfBounds s.cfg c.toNat r.toNat = true) :
    execPos c r s = .next { s with resp := some (.done none) } := by
  rw [execPos, ready_goes h, operate, setPosition, hb, if_pos rfl, List.nil_append]
  exact drain_finish (by exact h.1.2)

/-- The state after the data byte of `PUTC` (R109). -/
def State.written (b : Byte) (s : State) : State :=
  s.sent (.pin s.cfg.rs true :: eventsOf (nibblePair s.cfg b))
    (nibbleLines s.cfg (loNibble b) (setLatchBit s.out s.cfg.rs true)) (byteInputs s.allDriven true b)

theorem drain_data {s : State} (h : PinsOk s.cfg) (hw : s.wire = none) (b : Byte) (rest : List Action) :
    drain (.writePin s.cfg.rs true :: (nibblePair s.cfg b ++ rest)) s = drain rest (s.written b) := by
  have := drain_selected_sent h hw [] s.out [] true b rest
  rw [sent_nil] at this
  exact this

/-- `PUTC` without a column wrap (R109). -/
theorem execPutc_plain {s : State} (h : Operable s) (b : Byte) (hx : s.cx + 1 ≠ s.cfg.cols) :
    execPutc b s = .next (State.written b { s with cx := s.cx + 1, resp := some (.done none) }) := by
  rw [execPutc, ready_goes h, operate, writeChar]
  have ha : advance s.cfg s.cx s.cy = (s.cx + 1, s.cy, false) := by simp [advance, hx]
  rw [ha, List.append_assoc]
  refine (drain_data (s := { s with resp := none }) (operable_pins h) h.1.2 b _).trans ?_
  refine (drain_cursor _ _ _ (by exact h.1.2)).trans ?_
  exact drain_finish (by exact h.1.2)

/-- `PUTC` with a column wrap (R109, R110): the data byte, then the position command of the next row's start. -/
theorem execPutc_wrap {s : State} (h : Operable s) (b : Byte) (hx : s.cx + 1 = s.cfg.cols)
    (hy : s.cy < s.cfg.rows) :
    execPutc b s = .next (State.commanded
      (positionByte s.par.codes 0 (if s.cy + 1 = s.cfg.rows then 0 else s.cy + 1))
      (State.written b { s with
        cx := 0
        cy := if s.cy + 1 = s.cfg.rows then 0 else s.cy + 1
        resp := some (.done none) })) := by
  rw [execPutc, ready_goes h, operate, writeChar]
  have ha : advance s.cfg s.cx s.cy = (0, if s.cy + 1 = s.cfg.rows then 0 else s.cy + 1, true) := by
    simp [advance, hx]
  have hb : outOfBounds s.cfg 0 (if s.cy + 1 = s.cfg.rows then 0 else s.cy + 1) = false := by
    simp only [outOfBounds, Bool.or_eq_false_iff, decide_eq_false_iff_not]
    split <;> omega
  rw [ha, List.append_assoc]
  simp only [setPosition, hb, if_true, Bool.false_eq_true, if_false]
  refine (drain_data (s := { s with resp := none }) (operable_pins h) h.1.2 b _).trans ?_
  refine (drain_cursor _ _ _ (by exact h.1.2)).trans ?_
  change drain ((sendCommand s.cfg _ ++ [.cursor _ _]) ++ [.finish]) _ = _
  rw [List.append_assoc]
  refine (drain_command (s := { State.written b { s with resp := none } with
    cx := 0, cy := if s.cy + 1 = s.cfg.rows then 0 else s.cy + 1 }) (operable_pins h) h.1.2 _ _).trans ?_
  refine (drain_cursor _ _ _ (by exact h.1.2)).trans ?_
  exact drain_finish (by exact h.1.2)

/-! ### The pin operations (R81 to R83) -/

/-- `PINF` (R81). -/
theorem execPinf_eq {s : State} (hq : s.queue = []) (hw : s.wire = none) (hp : s.phase ≠ .fatal) (p : BitVec 6)
    (m : PinFn) (h : p.toNat < 54) :
    execPinf p m s = .next { s with
      fsel := s.fsel.setIfInBounds (p.toNat / 10) (withField p.toNat m (s.fselWord (p.toNat / 10)))
      bus := s.bus ++ [.rr (s.par.offsets.fselW + p.toNat / 10) (s.fselWord (p.toNat / 10)),
        .rw (s.par.offsets.fselW + p.toNat / 10) (withField p.toNat m (s.fselWord (p.toNat / 10)))]
      trace := s.trace ++ [.fsel p.toNat m]
      rx := (s.loosen p.toNat m).rx
      resp := some (.done none) } := by
  rw [execPinf, pin_goes hq hp, onPin_goes h, operate]
  refine (drain_cons_quiet (by exact hw) _ _).trans ?_
  rw [perform, setPinFunction_eq _ _ _ h, andThen_next]
  exact drain_finish (by exact hw)

/-- `PINW` where the strobe does not fall (R82). -/
theorem execPinw_eq {s : State} (hq : s.queue = []) (hw : s.wire = none) (hp : s.phase ≠ .fatal) (p : BitVec 6)
    (l : Level) (h : p.toNat < 54) (hs : s.strobeFalls p.toNat l = false) :
    execPinw p l s = .next (State.sent [.pin p.toNat l] (setLatchBit s.out p.toNat l) []
      { s with resp := some (.done none) }) := by
  rw [execPinw, pin_goes hq hp, onPin_goes h, operate]
  refine (drain_write _ (by exact hw) h (by exact hs)).trans ?_
  exact drain_finish (by exact hw)

/-- `PINW` that makes the strobe fall (R82, R95, R193). -/
theorem execPinw_fall {s : State} (hq : s.queue = []) (hw : s.wire = none) (hp : s.phase ≠ .fatal)
    (p : BitVec 6) (h : p.toNat < 54) (hc : p.toNat = s.cfg.strb) (hs : s.out.getLsbD p.toNat = true) :
    execPinw p false s = .next (State.sent [.pin p.toNat false] (setLatchBit s.out p.toNat false)
      [lineInput s.allDriven ((setLatchBit s.out p.toNat false).getLsbD s.cfg.rs)
        (dataNibble s.cfg (setLatchBit s.out p.toNat false))] { s with resp := some (.done none) }) := by
  rw [execPinw, pin_goes hq hp, onPin_goes h, operate, hc]
  rw [hc] at h hs
  refine (drain_fall (s := { s with resp := none }) _ hw h hs).trans ?_
  exact drain_finish (by exact hw)

/-- `PINR` (R83). -/
theorem execPinr_eq {s : State} (hq : s.queue = []) (hw : s.wire = none) (hp : s.phase ≠ .fatal) (p : BitVec 6)
    (h : p.toNat < 54) :
    execPinr p s = .next { s with
      bus := s.bus ++ [.rr (s.par.offsets.levW + pinBank p.toNat)
        (s.levWord (Config.levelDraw s.draws) (pinBank p.toNat))]
      draws := s.draws + 1
      resp := some (.done (some (s.level (Config.levelDraw s.draws) p.toNat)))
      trace := s.trace ++ [.read p.toNat (s.level (Config.levelDraw s.draws) p.toNat)] } := by
  rw [execPinr, pin_goes hq hp, onPin_goes h, operate]
  refine (drain_cons_quiet (by exact hw) _ _).trans ?_
  rw [perform, readPinLevel_eq _ _ h, andThen_next]
  refine (drain_nil_quiet (by exact hw)).trans ?_
  simp only [and_pinMask_ne_zero, levWord_bit]
  rfl

/-! ### INIT (R97) -/

/-- A pin made Output (R81): one read, one write, one event. -/
def State.outputPin (p : Nat) (s : State) : State :=
  { s with
    fsel := s.fsel.setIfInBounds (p / 10) (withField p .output (s.fselWord (p / 10)))
    bus := s.bus ++ [.rr (s.par.offsets.fselW + p / 10) (s.fselWord (p / 10)),
      .rw (s.par.offsets.fselW + p / 10) (withField p .output (s.fselWord (p / 10)))]
    trace := s.trace ++ [.fsel p .output] }

/-- The pins of a list made Output, in order (R99). -/
def State.outputPins : List Nat → State → State
  | [], s => s
  | p :: rest, s => State.outputPins rest (s.outputPin p)

theorem drain_setFn {s : State} (p : Nat) (rest : List Action) (hw : s.wire = none) (hp : p < 54) :
    drain (.setFn p .output :: rest) s = drain rest (s.outputPin p) := by
  rw [drain_cons_quiet hw, perform, setPinFunction_eq _ _ _ hp, andThen_next]
  have hl : (s.loosen p .output).rx = s.rx := by
    have : (PinFn.output == PinFn.input) = false := rfl
    simp [State.loosen, this]
  rw [hl]
  rfl

theorem drain_setFns {s : State} (ps : List Nat) (rest : List Action) (hw : s.wire = none)
    (hp : ∀ p ∈ ps, p < 54) :
    drain (ps.map (fun p => .setFn p .output) ++ rest) s = drain rest (State.outputPins ps s) := by
  induction ps generalizing s with
  | nil => rfl
  | cons p ps ih =>
    rw [List.map_cons, List.cons_append, drain_setFn _ _ hw (hp p (List.mem_cons_self ..))]
    exact ih (s := s.outputPin p) hw fun q hq => hp q (List.mem_cons_of_mem _ hq)

/-- Making pins Output touches the function words and the traces only. -/
theorem outputPins_eq (ps : List Nat) (s : State) :
    State.outputPins ps s = { s with
      fsel := (State.outputPins ps s).fsel
      bus := (State.outputPins ps s).bus
      trace := s.trace ++ ps.map (fun p => .fsel p .output) } := by
  induction ps generalizing s with
  | nil => simp [State.outputPins]
  | cons p ps ih =>
    rw [State.outputPins, ih]
    simp [State.outputPin]

theorem isOutput_outputPins (ps : List Nat) (s : State) (hp : ∀ p ∈ ps, p < 54) (q : Nat) :
    (State.outputPins ps s).isOutput q = (decide (q ∈ ps) || s.isOutput q) := by
  induction ps generalizing s with
  | nil => simp [State.outputPins]
  | cons p ps ih =>
    rw [State.outputPins, ih _ fun q hq => hp q (List.mem_cons_of_mem _ hq)]
    have h1 : (s.outputPin p).isOutput q = if q = p then true else s.isOutput q :=
      isOutput_set s p q .output (hp p (List.mem_cons_self ..))
    rw [h1]
    by_cases e : q = p <;> simp [e]

/-- The field of a pin outside the list is untouched (R81). -/
theorem pinField_outputPins (ps : List Nat) (s : State) (hp : ∀ p ∈ ps, p < 54) (q : Nat) (hq : q ∉ ps) :
    (State.outputPins ps s).pinField q = s.pinField q := by
  induction ps generalizing s with
  | nil => rfl
  | cons p ps ih =>
    rw [List.mem_cons, not_or] at hq
    rw [State.outputPins, ih _ (fun q hq => hp q (List.mem_cons_of_mem _ hq)) hq.2]
    have h1 : (s.outputPin p).pinField q = if q = p then (fnCode .output).truncate 3 else s.pinField q :=
      pinField_set s p q .output (hp p (List.mem_cons_self ..))
    rw [h1, if_neg hq.1]

theorem outputPins_allDriven {c : Cfg} (h : PinsOk c) (s : State) (hc : s.cfg = c) :
    (State.outputPins c.pins s).allDriven = true := by
  have hp : ∀ p ∈ c.pins, p < 54 := by
    simp only [Cfg.pins, List.mem_cons, List.not_mem_nil, or_false, forall_eq_or_imp, forall_eq]
    exact ⟨h.rs, h.strb, h.d0, h.d1, h.d2, h.d3⟩
  have hc' : (State.outputPins c.pins s).cfg = c := by rw [outputPins_eq]; exact hc
  rw [State.allDriven, hc', List.all_eq_true]
  intro p hp'
  rw [isOutput_outputPins _ _ hp, decide_eq_true hp', Bool.true_or]

/-- The six level writes of the set-up (R99, R191). -/
theorem drain_lows {s : State} (h : PinsOk s.cfg) (hw : s.wire = none) (hd : s.allDriven = true)
    (rest : List Action) :
    drain (s.cfg.pins.map (fun p => .writePin p false) ++ rest) s = drain rest (s.sent
      (s.cfg.pins.map (fun p => .pin p false)) (commandLines s.cfg 0 s.out) (setUpInputs s.cfg s.out)) := by
  obtain ⟨⟨r, r0, r1, r2, r3⟩, ⟨s0, s1, s2, s3⟩, -⟩ := h.distinct
  simp only [Cfg.pins, List.map_cons, List.map_nil, List.cons_append, List.nil_append]
  have hdn : dataNibble s.cfg (setLatchBit (setLatchBit s.out s.cfg.rs false) s.cfg.strb false) =
      dataNibble s.cfg s.out := by
    apply BitVec.eq_of_getLsbD_eq
    intro i hi
    rw [getLsbD_dataNibble _ _ _ hi, getLsbD_dataNibble _ _ _ hi]
    obtain rfl | rfl | rfl | rfl : i = 0 ∨ i = 1 ∨ i = 2 ∨ i = 3 := by omega
    · simp only [Cfg.dataPin, getLsbD_setLatchBit, s0.symm, r0.symm, false_and, if_false]
    · simp only [Cfg.dataPin, getLsbD_setLatchBit, s1.symm, r1.symm, false_and, if_false]
    · simp only [Cfg.dataPin, getLsbD_setLatchBit, s2.symm, r2.symm, false_and, if_false]
    · simp only [Cfg.dataPin, getLsbD_setLatchBit, s3.symm, r3.symm, false_and, if_false]
  have hrs : (setLatchBit (setLatchBit s.out s.cfg.rs false) s.cfg.strb false).getLsbD s.cfg.rs = false := by
    rw [getLsbD_setLatchBit_other _ _ _ _ r, getLsbD_setLatchBit_same _ _ _ h.rs]
  have step2 : ∀ rest, drain (.writePin s.cfg.strb false :: rest)
      (s.sent ([] ++ [.pin s.cfg.rs false]) (setLatchBit s.out s.cfg.rs false) []) =
      drain rest (s.sent ([.pin s.cfg.rs false, .pin s.cfg.strb false])
        (setLatchBit (setLatchBit s.out s.cfg.rs false) s.cfg.strb false) (setUpInputs s.cfg s.out)) := by
    intro rest
    have ho : (setLatchBit s.out s.cfg.rs false).getLsbD s.cfg.strb = s.out.getLsbD s.cfg.strb :=
      getLsbD_setLatchBit_other _ _ _ _ r.symm
    cases hs : s.out.getLsbD s.cfg.strb with
    | true =>
      rw [drain_fall_sent hw _ _ _ _ h.strb (ho.trans hs), hdn, hrs, hd, setUpInputs, hs]
      rfl
    | false =>
      rw [drain_write (s := s.sent _ _ _) rest hw h.strb
        (by simp only [State.strobeFalls, sent_cfg, sent_out, ho, hs, Bool.and_false]), sent_sent, setUpInputs, hs]
      rfl
  have step1 := drain_write_sent hw [] s.out [] (.writePin s.cfg.strb false :: .writePin s.cfg.d0 false ::
    .writePin s.cfg.d1 false :: .writePin s.cfg.d2 false :: .writePin s.cfg.d3 false :: rest) h.rs
    (l := false) (.inl r)
  rw [sent_nil] at step1
  rw [step1, step2, drain_write_sent hw _ _ _ _ h.d0 (.inl s0.symm), drain_write_sent hw _ _ _ _ h.d1 (.inl s1.symm),
    drain_write_sent hw _ _ _ _ h.d2 (.inl s2.symm), drain_write_sent hw _ _ _ _ h.d3 (.inl s3.symm)]
  congr 2
  unfold commandLines nibbleLines
  have z : ∀ i, (0 : Nibble).getLsbD i = false := fun i => BitVec.getLsbD_zero
  simp only [z]
  rw [setLatchBit_comm _ _ _ _ _ s0, setLatchBit_comm _ _ _ _ _ s1, setLatchBit_comm _ _ _ _ _ s2,
    setLatchBit_comm _ _ _ _ _ s3]

/-- One handshake write (R100, R101). -/
theorem drain_handshakeWrite {s : State} (h : PinsOk s.cfg) (hw : s.wire = none) (hd : s.allDriven = true)
    (e : List Event) (m : Nibble) (i : List RxInput) (b : Byte) (rest : List Action) :
    drain (handshakeWrite s.cfg b ++ rest) (s.sent e (commandLines s.cfg m s.out) i) = drain rest (s.sent
      (e ++ eventsOf (handshakeWrite s.cfg b)) (commandLines s.cfg (hiNibble b) s.out)
      (i ++ handshakeInputs (hiNibble b))) := by
  rw [handshakeWrite, List.append_assoc, drain_nibbleCommand_sent h hw]
  refine (drain_delay_sent hw _ _ _ _ _).trans ?_
  have := commandLines_again h m (hiNibble b) s.out
  rw [commandLines] at this
  rw [this, hd]
  simp [handshakeInputs, eventsOf, nibbleCommand, putNibble, strobe]

/-- One command after another (R93). -/
theorem drain_again {s : State} (h : PinsOk s.cfg) (hw : s.wire = none) (hd : s.allDriven = true)
    (e : List Event) (m : Nibble) (i : List RxInput) (b : Byte) (rest : List Action) :
    drain (sendCommand s.cfg b ++ rest) (s.sent e (commandLines s.cfg m s.out) i) = drain rest (s.sent
      (e ++ eventsOf (sendCommand s.cfg b)) (commandLines s.cfg (loNibble b) s.out)
      (i ++ commandInputs true b)) := by
  rw [drain_sendCommand_sent h hw, hd]
  have := commandLines_again h m (loNibble b) s.out
  rw [commandLines] at this
  rw [this]
  rfl

/-- The last nibble of a list of command bytes, after `m`. -/
def lastNibble (m : Nibble) : List Byte → Nibble
  | [] => m
  | b :: rest => lastNibble (loNibble b) rest

/-- The tail of `INIT` (R105). -/
theorem drain_tail {s : State} (h : PinsOk s.cfg) (hw : s.wire = none) (hd : s.allDriven = true)
    (e : List Event) (m : Nibble) (i : List RxInput) (bs : List Byte) (rest : List Action) :
    drain (sendTail s.cfg bs ++ rest) (s.sent e (commandLines s.cfg m s.out) i) = drain rest (s.sent
      (e ++ eventsOf (sendTail s.cfg bs)) (commandLines s.cfg (lastNibble m bs) s.out)
      (i ++ bs.flatMap (commandInputs true))) := by
  induction bs generalizing e m i with
  | nil => simp [sendTail, eventsOf, lastNibble]
  | cons b bs ih =>
    rw [sendTail, List.append_assoc, drain_again h hw hd, ih]
    simp [lastNibble, sendCommand, nibblePair, putNibble, strobe, eventsOf]

theorem eventsOf_append (a b : List Action) : eventsOf (a ++ b) = eventsOf a ++ eventsOf b := by
  induction a with
  | nil => rfl
  | cons x a ih => cases x <;> simp [eventsOf, ih]

/-- Part 6 of `INIT` (R103). -/
theorem drain_attributesOn {s : State} (h : PinsOk s.cfg) (hw : s.wire = none) (hd : s.allDriven = true)
    (e : List Event) (m : Nibble) (i : List RxInput) (k : Codes) (ctl : BitVec 3) (rest : List Action) :
    drain (attributesOn k s.cfg ctl ++ rest) (s.sent e (commandLines s.cfg m s.out) i) = drain rest (State.sent
      (e ++ eventsOf (attributesOn k s.cfg ctl))
      (commandLines s.cfg (loNibble (controlByte k (blinkOff k ctl))) s.out)
      (i ++ [controlByte k (displayOn k ctl), controlByte k (cursorOff k ctl),
        controlByte k (blinkOff k ctl)].flatMap (commandInputs true)) { s with ctl := blinkOff k ctl }) := by
  simp only [attributesOn, setControl, List.cons_append, List.append_assoc]
  refine (drain_control_sent hw _ _ _ _ _).trans ?_
  refine (drain_again (s := { s with ctl := displayOn k ctl }) h hw hd _ _ _ _ _).trans ?_
  refine (drain_control_sent (s := { s with ctl := displayOn k ctl }) hw _ _ _ _ _).trans ?_
  refine (drain_again (s := { s with ctl := cursorOff k ctl }) h hw hd _ _ _ _ _).trans ?_
  refine (drain_control_sent (s := { s with ctl := cursorOff k ctl }) hw _ _ _ _ _).trans ?_
  refine (drain_again (s := { s with ctl := blinkOff k ctl }) h hw hd _ _ _ _ _).trans ?_
  simp only [eventsOf, eventsOf_append, List.append_assoc, List.flatMap_cons, List.flatMap_nil, List.append_nil]
  rfl

/-- `INIT` (R97): an admitted configuration, memory for the record, phase Uninitialized. -/
theorem execInit_eq {s : State} (hq : s.queue = []) (hw : s.wire = none) (hp : s.phase = .uninitialized)
    (ha : s.cfg.Admitted s.par.codes) (hm : s.allocOk = true) :
    execInit s = .next (State.sent
      (eventsOf (s.cfg.pins.map (fun p => .writePin p false) ++ handshake s.par.codes s.cfg ++
        multiLine s.par.codes s.cfg ++ attributesOn s.par.codes s.cfg s.ctl ++
        sendCommand s.cfg s.par.codes.clear ++ [.delay s.par.clearExtraUs] ++
        sendTail s.cfg s.par.initTail))
      (commandLines s.cfg (lastNibble (loNibble s.par.codes.clear) s.par.initTail) s.out) (initInputs s.cfg s.par s.ctl s.out)
      (State.outputPins s.cfg.pins { s with
        phase := .ready, disp := some s.cfg, cx := 0, cy := 0, ctl := blinkOff s.par.codes s.ctl, resp := some (.done none) })) := by
  have hk := Cfg.Admitted.pinsOk ha
  have h1 : execInit s = operate (initActions s.cfg s.par s.ctl ++ [.finish]) s := by
    rw [execInit, request_go _ hq (by rw [hp]; rfl), if_neg (not_not.2 ha), hm, if_neg (by decide)]
  have hp54 : ∀ p ∈ s.cfg.pins, p < 54 := ha.2.2.2.2.2
  rw [h1, operate, initActions, setUpPins]
  simp only [List.append_assoc, List.cons_append, List.nil_append]
  refine (drain_record _ (by exact hw)).trans ?_
  refine (drain_cursor _ _ _ (by exact hw)).trans ?_
  refine (drain_setFns (s := { s with resp := none, disp := some s.cfg, cx := 0, cy := 0 }) _ _ hw hp54).trans ?_
  have hs : State.outputPins s.cfg.pins { s with
        phase := .ready, disp := some s.cfg, cx := 0, cy := 0, ctl := blinkOff s.par.codes s.ctl, resp := some (.done none) } =
      { State.outputPins s.cfg.pins { s with resp := none, disp := some s.cfg, cx := 0, cy := 0 } with
        phase := .ready, ctl := blinkOff s.par.codes s.ctl, resp := some (.done none) } := rfl
  rw [hs]
  have hd := outputPins_allDriven hk { s with resp := none, disp := some s.cfg, cx := 0, cy := 0 } rfl
  generalize hg : State.outputPins s.cfg.pins { s with resp := none, disp := some s.cfg, cx := 0, cy := 0 } = g
    at hd ⊢
  have hg' := outputPins_eq s.cfg.pins { s with resp := none, disp := some s.cfg, cx := 0, cy := 0 }
  rw [hg] at hg'
  have e1 : g.cfg = s.cfg := by rw [hg']
  have e2 : g.out = s.out := by rw [hg']
  have e3 : g.wire = none := by rw [hg']; exact hw
  have e4 : g.ctl = s.ctl := by rw [hg']
  have e7 : g.par = s.par := by rw [hg']
  have e5 : g.cx = 0 := by rw [hg']
  have e6 : g.cy = 0 := by rw [hg']
  rw [← e1] at hk ⊢
  rw [← e2, ← e4, ← e7]
  clear hg' hg hs hp54 h1
  rw [drain_lows hk e3 hd]
  simp only [handshake, List.append_assoc]
  rw [drain_handshakeWrite hk e3 hd, drain_handshakeWrite hk e3 hd, drain_handshakeWrite hk e3 hd,
    drain_handshakeWrite hk e3 hd]
  have hml : ∀ (e : List Event) (m : Nibble) (i : List RxInput) (rest : List Action), ∃ n,
      drain (multiLine g.par.codes g.cfg ++ rest) (g.sent e (commandLines g.cfg m g.out) i) = drain rest (g.sent
        (e ++ eventsOf (multiLine g.par.codes g.cfg)) (commandLines g.cfg n g.out)
        (i ++ if 1 < g.cfg.rows then commandInputs true (funcMultiByte g.par.codes) else [])) := by
    intro e m i rest
    unfold multiLine
    split
    · exact ⟨_, drain_again hk e3 hd e m i _ rest⟩
    · exact ⟨m, by simp [eventsOf]⟩
  obtain ⟨n, hml⟩ := hml _ _ _ _
  refine hml.trans ?_
  rw [drain_attributesOn hk e3 hd, commandAndReturn, List.append_assoc]
  refine (drain_again (s := { g with ctl := blinkOff g.par.codes g.ctl }) hk e3 hd _ _ _ _ _).trans ?_
  refine (drain_cursor_sent (s := { g with ctl := blinkOff g.par.codes g.ctl }) e3 _ _ _ _ _ _).trans ?_
  refine (drain_delay_sent (s := { g with ctl := blinkOff g.par.codes g.ctl, cx := 0, cy := 0 }) e3 _ _ _ _ _).trans ?_
  refine (drain_tail (s := { g with ctl := blinkOff g.par.codes g.ctl, cx := 0, cy := 0 }) hk e3 hd _ _ _ _ _).trans ?_
  refine (drain_phase _ _ (by exact e3)).trans ?_
  refine (drain_finish (by exact e3)).trans ?_
  have hb : (initBytes g.cfg g.par.codes g.ctl).flatMap (commandInputs true) =
      (if 1 < g.cfg.rows then commandInputs true (funcMultiByte g.par.codes) else []) ++
        [controlByte g.par.codes (displayOn g.par.codes g.ctl), controlByte g.par.codes (cursorOff g.par.codes g.ctl),
          controlByte g.par.codes (blinkOff g.par.codes g.ctl)].flatMap (commandInputs true) := by
    unfold initBytes
    rw [List.flatMap_append]
    split <;> rfl
  simp only [eventsOf_append, initInputs, hb, List.append_assoc, State.sent, e5, e6, eventsOf,
    Cfg.pins, List.map_cons, List.map_nil, List.cons_append, List.nil_append]
  rfl

end Sys2Proof.Machine
end

