-- ==== Sys2Proof/Laws/Wire.lean ====
section
/-! SUPPORT. The receiver over whole transfers: what one latch leaves of the bookkeeping, a byte taken by a
`Synced` receiver, and the handshake from any state. -/

namespace Sys2Proof.Machine

variable {κ : Codes}

/-! ### Bookkeeping (R155, R186) -/

theorem command_book (r : Receiver) (k : Nat) (f : Synced → Option Synced) :
    (r.command k f).progress = r.progress ∧ (r.command k f).elapsed = r.elapsed ∧
      (r.command k f).loose = r.loose ∧ (r.command k f).shifted = r.shifted := by
  unfold Receiver.command; split <;> exact ⟨rfl, rfl, rfl, rfl⟩

/-- Executing a byte leaves the handshake count, the clock and the pins alone. -/
theorem execute_book (r : Receiver) (i : Instr) :
    (r.execute κ i).progress = r.progress ∧ (r.execute κ i).elapsed = r.elapsed ∧ (r.execute κ i).loose = r.loose := by
  have key : ∀ (r : Receiver) k f, (r.command k f).progress = r.progress ∧ (r.command k f).elapsed = r.elapsed ∧
      (r.command k f).loose = r.loose := fun r k f =>
    ⟨(command_book r k f).1, (command_book r k f).2.1, (command_book r k f).2.2.1⟩
  cases i with
  | lcdClear => exact key _ _ _
  | lcdHome => exact key _ _ _
  | lcdEntry id sh => exact key (r.shift sh) _ _
  | lcdCtrl d c b => exact key _ _ _
  | lcdCdshift sc rl => exact key (r.shift sc) _ _
  | lcdFunc dl n f => exact key _ _ _
  | lcdDdram a => exact key _ _ _
  | lcdData v => exact key _ _ _
  | lcdFunc8Nibble | lcdFunc4Nibble | init | cmd _ | npair _ | nibc _ | putc _ | pos _ _ | clear | home
  | disp _ | curs _ | blink _ | pinf _ _ | pinw _ _ | pinr _ => exact ⟨rfl, rfl, rfl⟩

theorem takeByte_book (r : Receiver) (rs : Level) (v : Byte) :
    (r.takeByte κ rs v).progress = r.progress ∧ (r.takeByte κ rs v).elapsed = r.elapsed ∧
      (r.takeByte κ rs v).loose = r.loose := by
  unfold Receiver.takeByte
  split
  · exact execute_book (κ := κ) r (.lcdData v)
  · split
    · exact execute_book r _
    · exact ⟨rfl, rfl, rfl⟩

theorem pair_book (r : Receiver) (rs : Level) (n : Nibble) :
    (r.pair rs n).1.progress = r.progress ∧ (r.pair rs n).1.elapsed = r.elapsed ∧
      (r.pair rs n).1.loose = r.loose := by
  unfold Receiver.pair Receiver.lose
  split
  · exact ⟨rfl, rfl, rfl⟩
  · split
    · exact ⟨rfl, rfl, rfl⟩
    · split <;> exact ⟨rfl, rfl, rfl⟩

/-- A latch that does not end the handshake restarts the clock and counts. -/
theorem latch_book {r : Receiver} {rs : Level} {n : Nibble} (h : r.handshakeEnds rs n = false) :
    (r.latch κ rs n).progress = r.nextProgress rs n ∧ (r.latch κ rs n).elapsed = 0 ∧
      (r.latch κ rs n).loose = false := by
  have h1 := pair_book (r.arrive rs n) rs n
  unfold Receiver.latch
  rw [takeLatch_ordinary h]
  split
  · rename_i r' e; rw [e] at h1; exact h1
  · rename_i r' k v e
    rw [e] at h1
    have h2 := takeByte_book (κ := κ) r' k v
    exact ⟨h2.1.trans h1.1, h2.2.1.trans h1.2.1, h2.2.2.trans h1.2.2⟩

/-- The fourth latch (R155). -/
theorem latch_ends {r : Receiver} {rs : Level} {n : Nibble} (h : r.handshakeEnds rs n = true) :
    r.latch κ rs n = r.synchronise := by
  simp [Receiver.latch, Receiver.takeLatch, h]

/-! ### A byte taken by a Synced receiver (R143, R145) -/

/-- The first latch of a byte. -/
theorem latch_first {r : Receiver} {y : Synced} {rs : Level} {n : Nibble} (hs : r.sync = some y)
    (hh : y.half = none) (hd : r.due ≤ r.elapsed) (hl : r.loose = false)
    (he : r.handshakeEnds rs n = false) :
    r.latch κ rs n =
      Receiver.mk (some { y with half := some (rs, n) }) (r.nextProgress rs n) 0 0 false r.shifted := by
  have h1 : ¬ (r.elapsed < r.due ∨ r.loose = true) := by simp [hl]; omega
  have h2 : r.arrive rs n = Receiver.mk (some y) (r.nextProgress rs n) 0 0 false r.shifted := by
    simp only [Receiver.arrive, if_neg h1, hs]
  simp only [Receiver.latch, takeLatch_ordinary he, h2, Receiver.pair, hh]

/-- The second latch of a byte, at the same RS level. -/
theorem latch_second {r : Receiver} {y : Synced} {rs : Level} {m n : Nibble} (hs : r.sync = some y)
    (hh : y.half = some (rs, m)) (hd : r.due ≤ r.elapsed) (hl : r.loose = false)
    (he : r.handshakeEnds rs n = false) :
    r.latch κ rs n = Receiver.takeByte κ rs (joinNibbles m n)
      (Receiver.mk (some { y with half := none }) (r.nextProgress rs n) 0 0 false r.shifted) := by
  have h1 : ¬ (r.elapsed < r.due ∨ r.loose = true) := by simp [hl]; omega
  have h2 : r.arrive rs n = Receiver.mk (some y) (r.nextProgress rs n) 0 0 false r.shifted := by
    simp only [Receiver.arrive, if_neg h1, hs]
  simp only [Receiver.latch, takeLatch_ordinary he, h2, Receiver.pair, hh, if_true]

theorem join_nibbles (b : Byte) : joinNibbles (hiNibble b) (loNibble b) = b := by
  revert b; decide

/-- A byte transfer to a Synced receiver that is between bytes and settled (R143, R188): the byte is executed.
The handshake cannot end within it unless the high nibble is its fourth latch. -/
theorem feed_byte {r : Receiver} {y : Synced} (rs : Level) (b : Byte) (hs : r.sync = some y)
    (hh : y.half = none) (hd : r.due ≤ r.elapsed + 50) (hl : r.loose = false)
    (he : (r.wait 50).handshakeEnds rs (hiNibble b) = false) :
    ∃ p, Receiver.feed κ (byteInputs true rs b) r =
      (Receiver.takeByte κ rs b (Receiver.mk (some y) p 0 0 false r.shifted)).wait 50 := by
  have hy : ({ half := none, ac := y.ac, ddram := y.ddram, inc := y.inc, multi := y.multi, ctl := y.ctl } : Synced)
      = y := by cases y; cases hh; rfl
  have h1 := latch_first (κ := κ) (r := r.wait 50) (rs := rs) (n := hiNibble b) hs hh hd hl he
  have h2 := latch_second (κ := κ)
    (r := Receiver.mk (some { y with half := some (rs, hiNibble b) })
      ((r.wait 50).nextProgress rs (hiNibble b)) (0 + 50 + 50) 0 false r.shifted)
    (rs := rs) (m := hiNibble b) (n := loNibble b) rfl rfl (Nat.zero_le _) rfl
    (by simp [Receiver.handshakeEnds, Config.tInitUs])
  rw [join_nibbles] at h2
  refine ⟨Receiver.nextProgress rs (loNibble b) (Receiver.mk (some { y with half := some (rs, hiNibble b) })
      ((r.wait 50).nextProgress rs (hiNibble b)) (0 + 50 + 50) 0 false r.shifted), ?_⟩
  simp only [byteInputs, nibbleInputs, lineInput, if_true, List.cons_append, List.nil_append, feed_wait,
    feed_latch, feed_nil, Config.tStrobeUs]
  rw [hy] at h2
  rw [h1]
  exact congrArg (Receiver.wait 50) h2

/-! ### The handshake (R155) -/

/-- One handshake write (Low, 0x3) from a receiver that has waited long enough counts on; from any other it
counts from one. -/
theorem feed_handshake3 (r : Receiver) :
    let r' := Receiver.feed κ (handshakeInputs 0x3) r
    r'.elapsed = 35050 ∧ r'.loose = false ∧ 1 ≤ r'.progress ∧
      (35000 ≤ r.elapsed + 50 → r.loose = false → 1 ≤ r.progress → min 3 (r.progress + 1) = r'.progress) := by
  have he : (r.wait 50).handshakeEnds false 0x3 = false := by simp [Receiver.handshakeEnds]
  obtain ⟨h1, h2, h3⟩ := latch_book he
  simp only [handshakeInputs, nibbleInputs, lineInput, if_true, List.cons_append, List.nil_append, feed_wait,
    feed_latch, feed_nil, Config.tStrobeUs, Config.tInitUs]
  simp only [Receiver.wait] at h1 h2 h3 ⊢
  refine ⟨by rw [h2], h3, ?_, ?_⟩
  · rw [h1, Receiver.nextProgress, if_pos ⟨rfl, rfl⟩]; split <;> omega
  · intro ht hl hp
    rw [h1, Receiver.nextProgress, if_pos ⟨rfl, rfl⟩, if_pos]
    · simp [Receiver.counted, hl]
    · exact ⟨by simp [Receiver.counted, hl]; omega, ht⟩

/-- The four writes leave the receiver Synced with nothing else known, whatever it was (R155). -/
theorem feed_handshake (r : Receiver) :
    ∃ b, Receiver.feed κ (handshakeInputs 0x3 ++ handshakeInputs 0x3 ++ handshakeInputs 0x3 ++ handshakeInputs 0x2) r =
      Receiver.mk (some Synced.fresh) 0 35050 2000 false b := by
  simp only [feed_append]
  generalize hr1 : Receiver.feed κ (handshakeInputs 0x3) r = r1
  generalize hr2 : Receiver.feed κ (handshakeInputs 0x3) r1 = r2
  generalize hr3 : Receiver.feed κ (handshakeInputs 0x3) r2 = r3
  obtain ⟨a1, b1, c1, -⟩ := feed_handshake3 (κ := κ) r
  obtain ⟨a2, b2, c2, d2⟩ := feed_handshake3 (κ := κ) r1
  obtain ⟨a3, b3, c3, d3⟩ := feed_handshake3 (κ := κ) r2
  rw [hr1] at a1 b1 c1
  rw [hr2] at a2 b2 c2 d2
  rw [hr3] at a3 b3 c3 d3
  have e2 := d2 (by omega) b1 c1
  have e3 := d3 (by omega) b2 c2
  have hp : r3.progress = 3 := by omega
  have he : (r3.wait 50).handshakeEnds false 0x2 = true := by
    rw [handshakeEnds_iff]
    refine ⟨rfl, rfl, ?_, ?_⟩
    · simp [Receiver.counted, Receiver.wait, b3, hp]
    · show 35000 ≤ r3.elapsed + 50
      omega
  refine ⟨r3.shifted, ?_⟩
  simp only [handshakeInputs, nibbleInputs, lineInput, if_true, List.cons_append, List.nil_append, feed_wait,
    feed_latch, feed_nil, Config.tStrobeUs, Config.tInitUs]
  rw [latch_ends he]
  simp [Receiver.synchronise, Receiver.wait, Config.tCmdUs]

end Sys2Proof.Machine
end

