-- ==== Sys2Proof/Laws/InStep.lean ====
section
/-! SUPPORT. A receiver in step with the driver takes a command or a character whole, and stays in step. -/

namespace Sys2Proof.Machine

variable {κ : Codes}

/-- Only a (Low, 0x2) can end the handshake (R155). -/
theorem handshakeEnds_other {r : Receiver} {rs : Level} {n : Nibble} (h : rs = true ∨ n ≠ 2) :
    r.handshakeEnds rs n = false := by
  rcases h with h | h
  · simp [Receiver.handshakeEnds, h]
  · cases e : r.handshakeEnds rs n with
    | false => rfl
    | true => exact absurd ((handshakeEnds_iff r rs n).1 e).2.1 h

/-- A command whose high nibble is not 0x2 is taken as a byte; `w` is any further delay (R93, R118). -/
theorem feed_command {s : State} {y : Synced} (h : InStep s y) (b : Byte) (hb : hiNibble b ≠ 2) (w : Nat) :
    ∃ p, Receiver.feed κ (commandInputs s.allDriven b ++ [.wait w]) s.rx =
      (((Receiver.takeByte κ false b (Receiver.mk (some y) p 0 0 false s.rx.shifted)).wait 50).wait 2000).wait w := by
  obtain ⟨ho, -, hl, hs, hy, hh⟩ := h
  obtain ⟨p, hp⟩ := feed_byte (r := s.rx) false b hy hh hs hl.2.2 (handshakeEnds_other (.inr hb))
  refine ⟨p, ?_⟩
  rw [commandInputs, hl.1, feed_append, feed_append, hp]
  rfl

/-- A decoded command that leaves the receiver Synced. -/
theorem takeByte_command {y z : Synced} {b : Byte} {i : Instr} {p : Nat} {sh : Bool}
    {f : Synced → Option Synced} (hd : decodeCommandWith κ b = some i)
    (hx : ∀ r : Receiver, r.execute κ i = r.command 2000 f) (hf : f y = some z) :
    Receiver.takeByte κ false b (Receiver.mk (some y) p 0 0 false sh) = Receiver.mk (some z) p 0 2000 false sh := by
  simp [Receiver.takeByte, hd, hx, Receiver.command, hf]

/-- After a command that leaves the receiver Synced driver and receiver are in step again. -/
theorem inStep_command {s t : State} {y z : Synced} (h : InStep s y) {b : Byte} {w : Nat} {i : Instr}
    {f : Synced → Option Synced} (hb : hiNibble b ≠ 2) (hd : decodeCommandWith κ b = some i)
    (hx : ∀ r : Receiver, r.execute κ i = r.command 2000 f) (hf : f y = some z) (hz : z.half = none)
    (hp : t.phase = s.phase) (hc : t.cfg = s.cfg) (hq : t.queue = s.queue) (hw : t.wire = s.wire)
    (hfs : t.fsel = s.fsel) (hpar : t.par = s.par) (ho : ∃ n, t.out = commandLines s.cfg n s.out)
    (hr : t.rx = Receiver.feed κ (commandInputs s.allDriven b ++ [.wait w]) s.rx) :
    InStep t z ∧ t.rx.shifted = s.rx.shifted := by
  obtain ⟨p, hp'⟩ := feed_command h b hb w
  rw [takeByte_command hd hx hf] at hp'
  rw [hp'] at hr
  obtain ⟨⟨⟨h1, h2⟩, h3, h4⟩, hst, ⟨h5, h6, h7⟩, hs, hy, hh⟩ := h
  obtain ⟨n, ho⟩ := ho
  refine ⟨⟨⟨⟨hq.trans h1, hw.trans h2⟩, hp.trans h3, by rw [hc, hpar]; exact h4⟩,
    by rw [Standard, hpar]; exact hst, ⟨?_, ?_, by rw [hr]; rfl⟩, ?_, by rw [hr]; rfl, hz⟩,
    by rw [hr]; rfl⟩
  · rw [← h5]
    have : t.isOutput = s.isOutput := by
      funext p; simp [State.isOutput, State.pinField, State.fselWord, hfs]
    simp only [State.allDriven, hc, this]
  · rw [ho, hc]; exact strb_nibbleLines (Cfg.Admitted.pinsOk h4) _ _
  · rw [hr]; simp only [Receiver.wait, Settled, Config.tStrobeUs]; omega

/-- A character taken by a receiver in auto-increment with a known address counter (R140, R143). -/
theorem feed_character {r : Receiver} {y : Synced} (hl : r.loose = false) (hs : Settled r)
    (hy : r.sync = some y) (hh : y.half = none) (hi : y.inc = some true) {a : BitVec 7} (ha : y.ac = some a)
    (b : Byte) :
    ∃ p, Receiver.feed κ (byteInputs true true b) r =
      Receiver.mk (some { y with ddram := y.ddram.write a.toNat b, ac := some (a + 1) }) p 50 0 false
        r.shifted := by
  obtain ⟨p, hp⟩ := feed_byte (r := r) true b hy hh hs hl (handshakeEnds_other (.inl rfl))
  refine ⟨p, ?_⟩
  rw [hp]
  simp [Receiver.takeByte, Receiver.data, Receiver.command, Receiver.wait, hi, ha]

end Sys2Proof.Machine
end

