-- ==== Sys2Proof/Laws/PerInstr.lean ====
section
/-! SUPPORT. One family of statements per instruction: the encoding of an instruction lies in its row of the opcode
table (R58, R65). -/

namespace Sys2Proof.Laws.EncodeMatchesRow

/-- The word of an instruction has its row's match under its row's mask. -/
def Statement (i : Instr) : Prop := (encode i).bits &&& i.row.mask = i.row.pattern

theorem init : Statement .init := rfl
theorem cmd (b : Byte) : Statement (.cmd b) := by
  have h : ∀ b : Byte, (0x10#8 ++ b : BitVec 16) &&& 0xFF00 = 0x1000 := by decide
  exact h b
theorem npair (b : Byte) : Statement (.npair b) := by
  have h : ∀ b : Byte, (0x20#8 ++ b : BitVec 16) &&& 0xFF00 = 0x2000 := by decide
  exact h b
theorem nibc (n : Nibble) : Statement (.nibc n) := by
  have h : ∀ n : Nibble, (0x300#12 ++ n : BitVec 16) &&& 0xFFF0 = 0x3000 := by decide
  exact h n
theorem putc (b : Byte) : Statement (.putc b) := by
  have h : ∀ b : Byte, (0x40#8 ++ b : BitVec 16) &&& 0xFF00 = 0x4000 := by decide
  exact h b
theorem pos (c : Byte) (r : BitVec 4) : Statement (.pos c r) := by
  show (0x5#4 ++ r ++ c : BitVec 16) &&& 0xF000 = 0x5000
  apply BitVec.eq_of_getLsbD_eq
  intro i hi
  simp only [BitVec.getLsbD_and, BitVec.getLsbD_append]
  interval_cases i <;> first | rfl | simp
theorem clear : Statement .clear := rfl
theorem home : Statement .home := rfl
theorem disp (e : Bool) : Statement (.disp e) := by cases e <;> rfl
theorem curs (e : Bool) : Statement (.curs e) := by cases e <;> rfl
theorem blink (e : Bool) : Statement (.blink e) := by cases e <;> rfl
theorem pinf (p : BitVec 6) (m : PinFn) : Statement (.pinf p m) := by
  revert p
  cases m <;> unfold Statement <;> decide
theorem pinw (p : BitVec 6) (l : Level) : Statement (.pinw p l) := by
  revert p
  cases l <;> unfold Statement <;> decide
theorem pinr (p : BitVec 6) : Statement (.pinr p) := by
  have h : ∀ p : BitVec 6, (0x340#10 ++ p : BitVec 16) &&& 0xFFC0 = 0xD000 := by decide
  exact h p
theorem lcdClear : Statement .lcdClear := rfl
theorem lcdHome : Statement .lcdHome := rfl
theorem lcdEntry (id sh : Bool) : Statement (.lcdEntry id sh) := by cases id <;> cases sh <;> rfl
theorem lcdCtrl (d c b : Bool) : Statement (.lcdCtrl d c b) := by cases d <;> cases c <;> cases b <;> rfl
theorem lcdCdshift (sc rl : Bool) : Statement (.lcdCdshift sc rl) := by cases sc <;> cases rl <;> rfl
theorem lcdFunc (dl n f : Bool) : Statement (.lcdFunc dl n f) := by cases dl <;> cases n <;> cases f <;> rfl
theorem lcdDdram (a : BitVec 7) : Statement (.lcdDdram a) := by
  have h : ∀ a : BitVec 7, (0x1#1 ++ a : BitVec 8).zeroExtend 16 &&& 0x80 = 0x80 := by decide
  exact h a
theorem lcdData (v : Byte) : Statement (.lcdData v) := by
  show v.zeroExtend 16 &&& 0 = 0
  simp
theorem lcdFunc8Nibble : Statement .lcdFunc8Nibble := rfl
theorem lcdFunc4Nibble : Statement .lcdFunc4Nibble := rfl

end Sys2Proof.Laws.EncodeMatchesRow
end

