-- ==== Sys2Proof/Laws/Step.lean ====
section
/-! SUPPORT. What a run of items and a step can do: the fields no item touches, which instructions a request word
can be, and what a frame changes. -/

namespace Sys2Proof.Machine

/-- The fields no operation ever changes, and what it keeps of the receiver: its form, and that a display shift has
been commanded. -/
structure Kept (s t : State) : Prop where
  cfg      : t.cfg = s.cfg
  par      : t.par = s.par
  allocOk  : t.allocOk = s.allocOk
  host     : t.host = s.host
  queue    : t.queue = s.queue
  receiver : s.rx.Wf → t.rx.Wf
  shifted  : s.rx.shifted = true → t.rx.shifted = true

theorem Kept.refl (s : State) : Kept s s := ⟨rfl, rfl, rfl, rfl, rfl, id, id⟩

theorem Kept.trans {s t u : State} (a : Kept s t) (b : Kept t u) : Kept s u :=
  ⟨b.cfg.trans a.cfg, b.par.trans a.par, b.allocOk.trans a.allocOk, b.host.trans a.host,
    b.queue.trans a.queue, b.receiver ∘ a.receiver, b.shifted ∘ a.shifted⟩

theorem kept_settle (s : State) : Kept s (settle s) :=
  ⟨settle_cfg s, settle_par s, settle_allocOk s, settle_host s, settle_queue s, wf_settle, shifted_settle⟩

/-- One item (R12, R20). -/
theorem kept_perform {a : Action} {s t : State} (h : perform a s = .next t) : Kept s t := by
  cases a with
  | setFn p m =>
    by_cases hp : p < 54
    · rw [perform, setPinFunction_eq _ _ _ hp] at h
      cases h
      exact ⟨rfl, rfl, rfl, rfl, rfl, id, id⟩
    · rw [perform, setPinFunction, if_pos (by unfold Config.nPins; omega)] at h
      cases h
  | writePin p l =>
    by_cases hp : p < 54
    · rw [perform, writePinLevel_eq _ _ _ hp] at h
      cases h
      exact ⟨rfl, rfl, rfl, rfl, rfl, id, id⟩
    · rw [perform, writePinLevel, if_pos (by unfold Config.nPins; omega)] at h
      cases h
  | readPin p =>
    by_cases hp : p < 54
    · rw [perform, readPinLevel_eq _ _ hp] at h
      cases h
      exact ⟨rfl, rfl, rfl, rfl, rfl, id, id⟩
    · rw [perform, readPinLevel, if_pos (by unfold Config.nPins; omega)] at h
      cases h
  | delay n => cases h; exact ⟨rfl, rfl, rfl, rfl, rfl, wf_wait n, id⟩
  | record | cursor x y | control c | phase ph | finish => cases h; exact ⟨rfl, rfl, rfl, rfl, rfl, id, id⟩

/-- A run of items (R20). -/
theorem kept_drain {acts : List Action} {s t : State} (h : drain acts s = .next t) : Kept s t := by
  induction acts generalizing s with
  | nil => rw [drain] at h; cases h; exact kept_settle s
  | cons a rest ih =>
    rw [drain] at h
    obtain ⟨u, hu, h⟩ := andThen_eq_next h
    exact (kept_settle s).trans ((kept_perform hu).trans (ih h))

theorem kept_operate {acts : List Action} {s t : State} (h : operate acts s = .next t) : Kept s t := by
  have := kept_drain h
  exact ⟨this.cfg, this.par, this.allocOk, this.host, this.queue, this.receiver, this.shifted⟩

/-- A display or pin request, whatever becomes of it, keeps those fields. -/
theorem kept_request {admits : Phase → Bool} {body : State → Outcome} {s t : State}
    (hb : body s = .next t → Kept s t) (h : request admits body s = .next t) : Kept s t := by
  rcases request_cases admits body s with ⟨-, e⟩ | ⟨-, -, e⟩ | ⟨-, -, e⟩ <;> rw [e] at h
  · cases h; exact ⟨rfl, rfl, rfl, rfl, rfl, id, id⟩
  · cases h; exact ⟨rfl, rfl, rfl, rfl, rfl, id, id⟩
  · exact hb h

theorem kept_onPin {p : BitVec 6} {body : State → Outcome} {s t : State} (hb : body s = .next t → Kept s t)
    (h : onPin p body s = .next t) : Kept s t := by
  unfold onPin at h
  split at h
  · cases h; exact ⟨rfl, rfl, rfl, rfl, rfl, id, id⟩
  · exact hb h

/-- Executing a frame touches the receiver and the frame's place only (R4). -/
theorem exec_command_rx (i : Instr) (s : State)
    (h : i matches .lcdClear | .lcdHome | .lcdEntry .. | .lcdCtrl .. | .lcdCdshift .. | .lcdFunc .. |
      .lcdDdram .. | .lcdData ..) : exec i s = .next { s with rx := s.rx.execute s.par.codes i } := by
  cases i <;> first | rfl | cases h

/-- The instructions a frame can be. -/
theorem decodeFrame_some {k : Codes} {f : Frame} {i : Instr} (h : decodeFrame k f = some i) :
    (∃ n, f = .latch false n ∧ (i = .lcdFunc8Nibble ∧ n = 0x3 ∨ i = .lcdFunc4Nibble ∧ n = 0x2)) ∨
    (∃ v, f = .byte true v ∧ i = .lcdData v) ∨ (∃ v, f = .byte false v ∧ decodeCommandWith k v = some i) := by
  unfold decodeFrame frameCode at h
  cases f with
  | garbled => cases h
  | latch rs n =>
    cases rs with
    | true => cases h
    | false =>
      refine .inl ⟨n, rfl, ?_⟩
      simp only [Bool.false_eq_true, if_false, decodeWith, decodeNibble] at h
      by_cases h3 : n = 0x3
      · subst h3; simp [orReject] at h; exact .inl ⟨h.symm, rfl⟩
      · by_cases h2 : n = 0x2
        · subst h2; simp [orReject] at h; exact .inr ⟨h.symm, rfl⟩
        · rw [if_neg h3, if_neg h2] at h; cases h
  | byte rs v =>
    cases rs with
    | true => simp only [if_true, decodeWith] at h; cases h; exact .inr (.inl ⟨v, rfl, rfl⟩)
    | false =>
      refine .inr (.inr ⟨v, rfl, ?_⟩)
      simp only [Bool.false_eq_true, if_false, decodeWith] at h
      cases hc : decodeCommandWith k v with
      | none => rw [hc] at h; cases h
      | some j => rw [hc] at h; cases h; rfl

/-- A command byte is one of the seven commands of the table (R65). -/
theorem decodeCommandWith_some {k : Codes} {v : Byte} {i : Instr} (h : decodeCommandWith k v = some i) :
    i matches .lcdClear | .lcdHome | .lcdEntry .. | .lcdCtrl .. | .lcdCdshift .. | .lcdFunc .. | .lcdDdram .. := by
  unfold decodeCommandWith at h
  repeat' split at h
  all_goals cases h
  all_goals rfl

/-- Whatever the frame is, the step executes it as the receiver's own `receiveFrame` does. -/
theorem takeFrame_eq (f : Frame) (s : State) : takeFrame f s = .next (receiveFrame f s) := by
  unfold takeFrame
  cases h : decodeFrame s.par.codes f with
  | none => rfl
  | some i =>
    rcases decodeFrame_some h with ⟨n, rfl, ⟨rfl, rfl⟩ | ⟨rfl, rfl⟩⟩ | ⟨v, rfl, rfl⟩ | ⟨v, rfl, hc⟩
    · rfl
    · rfl
    · rfl
    · have hm := decodeCommandWith_some hc
      have : exec i s = .next { s with rx := s.rx.execute s.par.codes i } := by
        cases i <;> first | rfl | cases hm
      simp only [this, receiveFrame, Receiver.takeByte, hc, Bool.false_eq_true, if_false]

/-- The host operations, the instructions of the request table. -/
def isHost : Instr → Bool
  | .init | .cmd _ | .npair _ | .nibc _ | .putc _ | .pos _ _ | .clear | .home | .disp _ | .curs _ | .blink _
  | .pinf _ _ | .pinw _ _ | .pinr _ => true
  | .lcdClear | .lcdHome | .lcdEntry _ _ | .lcdCtrl _ _ _ | .lcdCdshift _ _ | .lcdFunc _ _ _ | .lcdDdram _
  | .lcdData _ | .lcdFunc8Nibble | .lcdFunc4Nibble => false

/-- A request word decodes to a host operation (R58). -/
theorem decodeRequest_isHost {w : BitVec 16} {i : Instr} (h : decodeRequest w = some i) : isHost i = true := by
  unfold decodeRequest at h
  dsimp only at h
  split at h <;> (try split at h) <;> first | (cases h; rfl) | cases h

theorem decode_request {w : BitVec 16} {i : Instr} (h : decode (.request w) = .ok i) :
    decodeRequest w = some i := by
  simp only [decode, decodeWith] at h
  cases hh : decodeRequest w with
  | none => rw [hh] at h; cases h
  | some j => rw [hh] at h; cases h; rfl

/-- A host operation, accepted or not, keeps the parameters, the port, the queue and the receiver's form; only a
fatal `INIT` empties the queue. -/
theorem kept_exec {i : Instr} {s t : State} (hi : isHost i = true) (hq : s.queue = [])
    (h : exec i s = .next t) : Kept s t := by
  cases i with
  | init =>
    rw [exec, execInit] at h
    refine kept_request (fun h => ?_) h
    split at h
    · cases h; exact ⟨rfl, rfl, rfl, rfl, rfl, id, id⟩
    · split at h
      · cases h; exact ⟨rfl, rfl, rfl, rfl, hq.symm, id, id⟩
      · exact kept_operate h
  | cmd b => rw [exec, execCmd] at h; exact kept_request kept_operate h
  | npair b => rw [exec, execNpair] at h; exact kept_request kept_operate h
  | nibc n => rw [exec, execNibc] at h; exact kept_request kept_operate h
  | putc b => rw [exec, execPutc] at h; exact kept_request kept_operate h
  | pos c r => rw [exec, execPos] at h; exact kept_request kept_operate h
  | clear => rw [exec, execClear] at h; exact kept_request kept_operate h
  | home => rw [exec, execHome] at h; exact kept_request kept_operate h
  | disp e => rw [exec, execDisp] at h; exact kept_request kept_operate h
  | curs e => rw [exec, execCurs] at h; exact kept_request kept_operate h
  | blink e => rw [exec, execBlink] at h; exact kept_request kept_operate h
  | pinf p m => rw [exec, execPinf] at h; exact kept_request (kept_onPin kept_operate) h
  | pinw p l => rw [exec, execPinw] at h; exact kept_request (kept_onPin kept_operate) h
  | pinr p => rw [exec, execPinr] at h; exact kept_request (kept_onPin kept_operate) h
  | lcdClear | lcdHome | lcdEntry _ _ | lcdCtrl _ _ _ | lcdCdshift _ _ | lcdFunc _ _ _ | lcdDdram _
  | lcdData _ | lcdFunc8Nibble | lcdFunc4Nibble => cases hi

/-- What a step is, seen from an idle driver. -/
theorem step_idle_cases {s t : State} (hq : s.queue = []) (h : step s = .next t) :
    (∃ f, s.wire = some f ∧ t = receiveFrame f { s with wire := none }) ∨
    (s.wire = none ∧ ∃ w rest, s.host = w :: rest ∧ present w { s with host := rest } = .next t) ∨
    (s.wire = none ∧ s.host = [] ∧ t = s) := by
  unfold step at h
  split at h
  · rename_i f hw
    rw [takeFrame_eq] at h
    cases h
    exact .inl ⟨f, hw, rfl⟩
  · rename_i hw
    split at h
    · rename_i a rest hq'; rw [hq] at hq'; cases hq'
    · split at h
      · rename_i w rest hh; exact .inr (.inl ⟨hw, w, rest, hh, h⟩)
      · rename_i hh; cases h; exact .inr (.inr ⟨hw, hh, rfl⟩)

end Sys2Proof.Machine
end

