-- ==== Sys2Proof/Tests/Slice0.lean ====
section
/-! SUPPORT. Tests. Expected values come from 95_test_vectors.md (V1 to V26) and the tables of 30_encoding.md, named
at each test; then a witness for the hypotheses of every statement. -/

namespace Sys2Proof.Tests

open Sys2Proof.Machine Sys2Proof.Spec

/-! ### Well-formedness: pins 54 to 63 (R45, R59) -/

theorem test_wf_pinf_refused : Instr.wellFormed (.pinf 54 .output) = false ∧ Instr.wellFormed (.pinf 53 .output) := by
  decide
theorem test_wf_pinw_refused : Instr.wellFormed (.pinw 63 true) = false ∧ Instr.wellFormed (.pinw 0 true) := by decide
theorem test_wf_pinr_refused : Instr.wellFormed (.pinr 60) = false ∧ Instr.wellFormed (.pinr 24) := by decide

/-! ### Decoding: words written out bit by bit from R58 and R65, or V26 -/

theorem test_decode_init : decode (.request 0b0000_0000_0000_0000) = .ok .init := by decide
theorem test_decode_cmd : decode (.request 0b0001_0000_0010_1000) = .ok (.cmd 0x28) := by decide
theorem test_decode_npair : decode (.request 0b0010_0000_1010_0101) = .ok (.npair 0xA5) := by decide
theorem test_decode_nibc : decode (.request 0b0011_0000_0000_0011) = .ok (.nibc 3) := by decide
theorem test_decode_putc : decode (.request 0b0100_0000_0100_0001) = .ok (.putc 0x41) := by decide
theorem test_decode_pos : decode (.request 0b0101_0001_0000_0100) = .ok (.pos 4 1) := by decide
theorem test_decode_clear : decode (.request 0b0110_0000_0000_0000) = .ok .clear := by decide
theorem test_decode_home : decode (.request 0b0111_0000_0000_0000) = .ok .home := by decide
theorem test_decode_disp : decode (.request 0b1000_0000_0000_0001) = .ok (.disp true) := by decide
theorem test_decode_curs : decode (.request 0b1001_0000_0000_0000) = .ok (.curs false) := by decide
theorem test_decode_blink : decode (.request 0b1010_0000_0000_0001) = .ok (.blink true) := by decide
theorem test_decode_pinf : decode (.request 0b1011_0001_0001_1001) = .ok (.pinf 25 .output) := by decide
theorem test_decode_pinw : decode (.request 0b1100_0001_0001_1000) = .ok (.pinw 24 true) := by decide
theorem test_decode_pinr : decode (.request 0b1101_0000_0001_1000) = .ok (.pinr 24) := by decide
theorem test_decode_lcdClear : decode (.command 0b0000_0001) = .ok .lcdClear := by decide
theorem test_decode_lcdHome : decode (.command 0b0000_0010) = .ok .lcdHome := by decide
theorem test_decode_lcdEntry : decode (.command 0b0000_0110) = .ok (.lcdEntry true false) := by decide
theorem test_decode_lcdCtrl : decode (.command 0b0000_1100) = .ok (.lcdCtrl true false false) := by decide
theorem test_decode_lcdCdshift : decode (.command 0b0001_1000) = .ok (.lcdCdshift true false) := by decide
theorem test_decode_lcdFunc : decode (.command 0b0010_1000) = .ok (.lcdFunc false true false) := by decide
theorem test_decode_lcdDdram : decode (.command 0b1100_0100) = .ok (.lcdDdram 0x44) := by decide
theorem test_decode_lcdData : decode (.data 0b0100_1000) = .ok (.lcdData 0x48) := by decide
theorem test_decode_func8 : decode (.nibble 0b0011) = .ok .lcdFunc8Nibble := by decide
theorem test_decode_func4 : decode (.nibble 0b0010) = .ok .lcdFunc4Nibble := by decide
/-- R59, V25: reserved words. -/
theorem test_decode_reserved :
    decodeRequest 0xE000 = none ∧ decodeRequest 0xF123 = none ∧ decodeRequest 0x0001 = none ∧
    decodeRequest 0x6001 = none ∧ decodeRequest 0x8002 = none ∧ decodeRequest 0x3010 = none ∧
    decodeRequest 0xB200 = none ∧ decodeRequest 0xC040 = none := by decide
/-- R72, V26: bytes of no row. -/
theorem test_decode_reserved_command : ∀ v ∈ [0x00#8, 0x03, 0x11, 0x21, 0x40], decodeCommand v = none := by decide
/-- R37, R58: no two rows of one format overlap. -/
theorem test_rows_disjoint :
    requestRows.Pairwise (fun a b => (a.1 &&& b.2) ≠ (b.1 &&& a.2)) := by decide

/-! ### The states of the tests -/

/-- The six LCD pins Output, nothing else (V21's end words). -/
def lcdOutputs : Vector Word 6 := #v[0, 0x1, 0x209240, 0, 0, 0]

/-- A receiver between bytes, all fields known, the last command's settling done. -/
def listening : Synced :=
  { half := none, ac := some 0, ddram := [], inc := some true, multi := some true, ctl := some 0b100 }

def settled : Receiver :=
  { sync := some listening, progress := 0, elapsed := 2000, due := 2000, loose := false, shifted := false }

/-- After `INIT` and `POS 0, 0`, but for the traces. -/
def ready : State :=
  { State.reset with phase := .ready, disp := some Config.cfgEx, ctl := 0b100, fsel := lcdOutputs, rx := settled }

/-- The same with the cursor elsewhere, the receiver's address counter with it. -/
def readyAt (x y : Nat) : State :=
  { ready with
    cx := x
    cy := y
    rx := { settled with sync := some { listening with ac := some (BitVec.ofNat 7 (ddramAddr Config.codes x y)) } } }

/-- `alloc_ok` false. -/
def starved : State := { State.reset with allocOk := false }

/-- A configuration with `CFG.ROWS = 4` (V22). -/
def misfit : State := { State.reset with cfg := { Config.cfgEx with rows := 4 } }

/-- `Fatal`. -/
def dead : State := { State.reset with phase := .fatal }

/-- Every pin Output, every latch High. -/
def allHigh : State := { State.reset with fsel := Vector.replicate 6 0x09249249, out := BitVec.allOnes 54 }

/-- What a next state holds. -/
def after {α : Type} (o : Outcome) (f : State → α) : Option α :=
  match o with
  | .next s => some (f s)
  | .fault _ => none
  | .refused _ => none

/-- 95_test_vectors.md's `Pp=l`. -/
def P (p : Nat) (l : Nat) : Event := .pin p (l == 1)
/-- 95_test_vectors.md's `Dn`. -/
def D (n : Nat) : Event := .delay n

/-- The register words seen by a pin request. -/
def words (w : BitVec 16) (s : State) : Option (List BusEvent) := after (present w s) (·.bus)

/-! ### The pin operations -/

/-- V1, row 3. -/
theorem test_pinf_clears_field :
    words 0xB019 { State.reset with fsel := #v[0, 0, 0x00249249, 0, 0, 0] } =
      some [.rr 2 0x00249249, .rw 2 0x00241249] := by decide
/-- V1, row 9. -/
theorem test_pinf_last_word :
    words 0xB035 { State.reset with fsel := #v[0, 0, 0, 0, 0, 0xFFFFFFFF] } =
      some [.rr 5 0xFFFFFFFF, .rw 5 0xFFFFF1FF] := by decide
/-- V2. -/
theorem test_pinw_banks :
    words 0xC11F State.reset = some [.rw 7 0x80000000] ∧ words 0xC020 State.reset = some [.rw 11 0x00000001] ∧
      words 0xC135 State.reset = some [.rw 8 0x00200000] := by decide
/-- V5, R42: clearing one latch leaves the others. -/
theorem test_pinw_clears_one :
    after (exec (.pinw 24 false) allHigh) (·.out) = some (BitVec.allOnes 54 - 0x1000000) := by decide
/-- V3: an Output latch at High reads High whatever the free bits are. -/
theorem test_pinr_output : ∃ t, exec (.pinr 53) allHigh = .next t ∧ t.resp = some (.done (some true)) :=
  ⟨_, execPinr_eq rfl rfl (by decide) 53 (by decide), by decide⟩

/-! ### Transfers, characters, cursor, attributes: the whole trace of one request -/

/-- V6. -/
theorem test_npair : after (exec (.npair 0xA5) ready) (·.trace) = some
    [P 23 0, P 10 1, P 27 0, P 22 1, P 24 1, D 50, P 24 0, D 50,
     P 23 1, P 10 0, P 27 1, P 22 0, P 24 1, D 50, P 24 0, D 50] := by decide
/-- V8. -/
theorem test_nibc : after (exec (.nibc 0x2) ready) (·.trace) = some
    [P 25 0, P 23 0, P 10 1, P 27 0, P 22 0, P 24 1, D 50, P 24 0, D 50] := by decide
/-- V9. -/
theorem test_cmd : after (exec (.cmd 0xC0) ready) (·.trace) = some
    [P 25 0, P 23 0, P 10 0, P 27 1, P 22 1, P 24 1, D 50, P 24 0, D 50,
     P 23 0, P 10 0, P 27 0, P 22 0, P 24 1, D 50, P 24 0, D 50, D 2000] := by decide
/-- V10. -/
theorem test_putc : after (exec (.putc 0x41) ready) (fun t => (t.trace, t.cx, t.cy)) = some
    ([P 25 1, P 23 0, P 10 0, P 27 1, P 22 0, P 24 1, D 50, P 24 0, D 50,
      P 23 1, P 10 0, P 27 0, P 22 0, P 24 1, D 50, P 24 0, D 50], 1, 0) := by decide
set_option maxRecDepth 8000 in
/-- V12: a row wrap. -/
theorem test_putc_row_wrap : after (exec (.putc 0x21) (readyAt 15 1))
    (fun t => ((latches t.cfg 0 t.trace).map Latch.value, t.trace.length, t.cx, t.cy)) = some
    ([(true, 2), (true, 1), (false, 8), (false, 0)], 35, 0, 0) := by decide
/-- V14: the full trace of `POS 15, 1`. -/
theorem test_pos : after (exec (.pos 15 1) ready) (fun t => (t.trace, t.cx, t.cy)) = some
    ([P 25 0, P 23 0, P 10 0, P 27 1, P 22 1, P 24 1, D 50, P 24 0, D 50,
      P 23 1, P 10 1, P 27 1, P 22 1, P 24 1, D 50, P 24 0, D 50, D 2000], 15, 1) := by decide
/-- V14: `POS 16, 0`. -/
theorem test_pos_outside :
    exec (.pos 16 0) (readyAt 3 1) = .next { readyAt 3 1 with resp := some (.done none) } := rfl
/-- V15. -/
theorem test_clear : after (exec .clear (readyAt 7 1)) (fun t => (t.trace, t.cx, t.cy, t.ctl)) = some
    ([P 25 0, P 23 0, P 10 0, P 27 0, P 22 0, P 24 1, D 50, P 24 0, D 50,
      P 23 1, P 10 0, P 27 0, P 22 0, P 24 1, D 50, P 24 0, D 50, D 2000, D 5000], 0, 0, 0b100) := by decide
/-- V16. -/
theorem test_home : after (exec .home (readyAt 7 1)) (fun t => (t.trace, t.cx, t.cy)) = some
    ([P 25 0, P 23 0, P 10 0, P 27 0, P 22 0, P 24 1, D 50, P 24 0, D 50,
      P 23 0, P 10 1, P 27 0, P 22 0, P 24 1, D 50, P 24 0, D 50, D 2000, D 5000], 0, 0) := by decide
/-- V18: `DISP 0` from 0b101 sends 0x09. -/
theorem test_disp : after (exec (.disp false) { ready with ctl := 0b101 })
    (fun t => ((latches t.cfg 0 t.trace).map Latch.value, t.ctl)) = some
    ([(false, 0), (false, 9)], 0b001) := by decide
/-- V19: `CURS 0` from 0b111 sends 0x0D. -/
theorem test_curs : after (exec (.curs false) { ready with ctl := 0b111 })
    (fun t => ((latches t.cfg 0 t.trace).map Latch.value, t.ctl)) = some
    ([(false, 0), (false, 0xD)], 0b101) := by decide
/-- V19: `BLINK 1` from 0b110 sends 0x0F. -/
theorem test_blink : after (exec (.blink true) { ready with ctl := 0b110 })
    (fun t => ((latches t.cfg 0 t.trace).map Latch.value, t.ctl)) = some
    ([(false, 0), (false, 0xF)], 0b111) := by decide

/-! ### INIT -/

set_option maxRecDepth 100000 in
/-- R97, V20: `INIT` completes from reset; V21: the register level of its part 2. -/
theorem test_init_ready : after (exec .init State.reset)
    (fun t => (t.phase, t.disp, t.cx, t.cy, t.ctl)) = some (.ready, some Config.cfgEx, 0, 0, 0b100) ∧
    after (exec .init State.reset) (fun t => (latches t.cfg 0 t.trace).map Latch.value) = some
     [(false, 3), (false, 3), (false, 3), (false, 2), (false, 2), (false, 8), (false, 0), (false, 0xC),
      (false, 0), (false, 0xC), (false, 0), (false, 0xC), (false, 0), (false, 1), (false, 0), (false, 6),
      (false, 1), (false, 4)] ∧
    after (exec .init State.reset) (fun t => (t.bus.take 18, t.fsel)) = some
     ([.rr 2 0x00000000, .rw 2 0x00008000, .rr 2 0x00008000, .rw 2 0x00009000, .rr 2 0x00009000, .rw 2 0x00009200,
       .rr 1 0x00000000, .rw 1 0x00000001, .rr 2 0x00009200, .rw 2 0x00209200, .rr 2 0x00209200, .rw 2 0x00209240,
       .rw 10 0x02000000, .rw 10 0x01000000, .rw 10 0x00800000, .rw 10 0x00000400, .rw 10 0x08000000,
       .rw 10 0x00400000], lcdOutputs) := by decide
set_option maxRecDepth 100000 in
/-- V22: `CTL_RESET = 0b011` sends 0x0F, 0x0D, 0x0C in part 6; `alloc_ok` false; `ROWS = 4`. -/
theorem test_init_variants :
    after (exec .init (State.resetOf Config.cfgEx { Config.defaultParams with ctlReset := 0b011 } true
        (Vector.replicate 6 0) 0)) (fun t => (((latches t.cfg 0 t.trace).map Latch.value).extract 6 12, t.ctl)) = some
      ([(false, 0), (false, 0xF), (false, 0), (false, 0xD), (false, 0), (false, 0xC)], 0b100) ∧
    exec .init starved = .next { starved with phase := .fatal, resp := some (.fatal .allocFail) } ∧
    exec .init misfit = .next { misfit with resp := some (.refused .badConfig) } :=
  ⟨by decide, rfl, rfl⟩

/-! ### The receiver's instructions (V23, R146 to R152, R155) -/

/-- V23: 0x01 makes every cell blank and `ac` 0. -/
theorem test_lcdClear : after (exec .lcdClear (readyAt 4 1))
    (fun t => (t.cell 0, t.cell 0x4F, t.cell 127, t.rx.sync.map (·.ac))) = some
    (some 0x20, some 0x20, some 0x20, some (some 0)) := by decide
/-- R147. -/
theorem test_lcdHome : after (exec .lcdHome (readyAt 4 1)) (fun t => t.rx.sync.map (·.ac)) =
    some (some (some 0)) := by decide
/-- R148: the display view goes with a shift. -/
theorem test_lcdEntry : after (exec (.lcdEntry false true) ready) (fun t => (t.rx.sync.map (·.inc), t.rx.shifted)) =
    some (some (some false), true) := by decide
/-- R149. -/
theorem test_lcdCtrl : after (exec (.lcdCtrl true false true) ready) (fun t => t.rx.sync.map (·.ctl)) =
    some (some (some 0b101)) := by decide
/-- V23, R151: 0x14 makes `ac` unknown and is no display shift. -/
theorem test_lcdCdshift : after (exec (.lcdCdshift false true) ready)
    (fun t => (t.rx.sync.map (·.ac), t.rx.shifted)) = some (some none, false) := by decide
/-- R150: 0x20 is one row; 0x30 as a byte loses the receiver. -/
theorem test_lcdFunc : after (exec (.lcdFunc false false false) ready) (fun t => t.rx.sync.map (·.multi)) =
      some (some (some false)) ∧
    after (exec (.lcdFunc true false false) ready) (·.rx.sync) = some none := by decide
/-- R139. -/
theorem test_lcdDdram : after (exec (.lcdDdram 0x44) ready) (fun t => t.rx.sync.map (·.ac)) =
    some (some (some 0x44)) := by decide
/-- V23: `'H'` lands in cell 0 and `ac` becomes 1. -/
theorem test_lcdData : after (exec (.lcdData 0x48) ready)
    (fun t => (t.cell 0, t.cell 1, t.rx.sync.map (·.ac), t.shown 0 0)) = some
    (some 0x48, none, some (some 1), some 0x48) := by decide
/-- V23: with `ac` unknown every cell becomes unknown. -/
theorem test_lcdData_unknown :
    after (exec (.lcdData 0x48)
      { ready with rx := { settled with sync := some { listening with ac := none, ddram := [(3, 0x41)] } } })
      (fun t => t.cell 3) = some none := by decide
/-- R155: three (Low, 3) count up only with their settling time. -/
theorem test_func8 : after (exec .lcdFunc8Nibble { State.reset with rx := { Receiver.reset with progress := 1, elapsed := 35000 } })
      (·.rx.progress) = some 2 ∧
    after (exec .lcdFunc8Nibble { State.reset with rx := { Receiver.reset with progress := 1, elapsed := 34999 } })
      (·.rx.progress) = some 1 := by decide
/-- R155: the fourth latch synchronises. -/
theorem test_func4 : after (exec .lcdFunc4Nibble { State.reset with rx := { Receiver.reset with progress := 3, elapsed := 35000 } })
    (·.rx.sync) = some (some Synced.fresh) := by decide

/-! ### Requests turned away (V25) -/

theorem test_refused : present 0x4041 State.reset = .next { State.reset with resp := some (.refused .wrongPhase) } ∧
    present 0x0000 ready = .next { ready with resp := some (.refused .wrongPhase) } ∧
    present 0xC105 dead = .next { dead with resp := some (.refused .wrongPhase) } ∧
    present 0xB136 State.reset = .next { State.reset with resp := some (.refused .badPin) } ∧
    present 0xE000 ready = .next { ready with resp := some (.refused .reservedRequest) } := ⟨rfl, rfl, rfl, rfl, rfl⟩
/-- V25: a pin operation needs no `INIT`. -/
theorem test_pin_before_init : after (present 0xC105 State.reset) (fun t => (t.resp, t.phase)) =
    some (some (.done none), .uninitialized) := by decide
/-- A step takes the next request word, and a placed word is the next instruction. -/
theorem test_step_runs_word : step (ready.withFetchWord 16 0x4041) = exec (.putc 0x41) ready ∧
    step (ready.withFetchWord 8 0xC4) = exec (.lcdDdram 0x44) ready := ⟨rfl, rfl⟩

/-! ### Witnesses: a state and operands that meet the hypotheses of each statement, at the ends of their ranges -/

theorem inv_ready : Inv ready :=
  ⟨rfl, by decide, by decide, by decide, by decide, by decide, by intro y h; cases h; decide⟩

theorem witness_StepKeepsInvariant : Inv { ready with host := [0x4041] } ∧
    ∃ t, step { ready with host := [0x4041] } = .next t :=
  ⟨⟨rfl, by decide, by decide, by decide, by decide, by decide, by intro y h; cases h; decide⟩, _, rfl⟩

theorem witness_IdleStatesAlwaysStep : Inv ready ∧ Inv State.reset :=
  ⟨inv_ready, ⟨rfl, by decide, by decide, by decide, by decide, by decide, by intro y h; cases h⟩⟩

theorem witness_StepKeepsParameters : ∃ t, step { ready with host := [0x6000] } = .next t := ⟨_, rfl⟩

theorem witness_PhaseTransitions : Inv { starved with host := [0x0000] } ∧
    ∃ t, step { starved with host := [0x0000] } = .next t ∧ t.phase ≠ starved.phase :=
  ⟨⟨rfl, by decide, by decide, by decide, by decide, by decide, by intro y h; cases h⟩, _, rfl, by decide⟩

theorem witness_PhaseTransitions_ready : Inv { State.reset with host := [0x0000] } ∧
    ∃ t, step { State.reset with host := [0x0000] } = .next t ∧ t.phase ≠ State.reset.phase :=
  ⟨⟨rfl, by decide, by decide, by decide, by decide, by decide, by intro y h; cases h⟩, _,
    execInit_eq rfl rfl rfl (by decide) rfl, by simp; decide⟩

theorem witness_PresumedNumbers : (39 : Nat) < 40 ∧ (1 : Nat) < 2 := by decide

theorem witness_EncodeOfDecode : decode (.request 0x5FFF) = .ok (.pos 255 15) ∧
    decode (.command 0xFF) = .ok (.lcdDdram 127) ∧ decode (.data 0x01) = .ok (.lcdData 1) ∧
    decode (.nibble 3) = .ok .lcdFunc8Nibble := by decide

/-- A word of each row of R58, and one of none. -/
theorem witness_RequestTable :
    (0x0000#16 &&& 0xFFFF = 0x0000) ∧ (0x10FF#16 &&& 0xFF00 = 0x1000) ∧ (0x2000#16 &&& 0xFF00 = 0x2000) ∧
    (0x300F#16 &&& 0xFFF0 = 0x3000) ∧ (0x40FF#16 &&& 0xFF00 = 0x4000) ∧ (0x5FFF#16 &&& 0xF000 = 0x5000) ∧
    (0x6000#16 &&& 0xFFFF = 0x6000) ∧ (0x7000#16 &&& 0xFFFF = 0x7000) ∧ (0x8001#16 &&& 0xFFFE = 0x8000) ∧
    (0x9000#16 &&& 0xFFFE = 0x9000) ∧ (0xA001#16 &&& 0xFFFE = 0xA000) ∧ (0xB13F#16 &&& 0xFEC0 = 0xB000) ∧
    (0xC03F#16 &&& 0xFEC0 = 0xC000) ∧ (0xD035#16 &&& 0xFFC0 = 0xD000) ∧
    ∀ row ∈ requestRows, 0xFFFF#16 &&& row.2 ≠ row.1 := by simp [requestRows]

/-- A byte of each row of R65 and of each kind of reserved byte. -/
theorem witness_CommandTable :
    (0x04#8 &&& 0xFC = 0x04) ∧ (0x07#8 &&& 0xFC = 0x04) ∧ (0x08#8 &&& 0xF8 = 0x08) ∧ (0x0F#8 &&& 0xF8 = 0x08) ∧
    (0x10#8 &&& 0xF3 = 0x10) ∧ (0x1C#8 &&& 0xF3 = 0x10) ∧ (0x20#8 &&& 0xE3 = 0x20) ∧ (0x3C#8 &&& 0xE3 = 0x20) ∧
    (0x80#8 &&& 0x80 = 0x80) ∧ (0xFF#8 &&& 0x80 = 0x80) ∧ (0x1D#8 &&& 0xF0 = 0x10 ∧ 0x1D#8 &&& 0x03 ≠ 0) ∧
    (0x23#8 &&& 0xE0 = 0x20 ∧ 0x23#8 &&& 0x03 ≠ 0) ∧ (0x7F#8 &&& 0xC0 = 0x40) := by decide

/-- A frame that is an instruction, one that is none; a queued item; a word that decodes, one that does not. -/
theorem witness_StepRunsDecodedInstruction :
    decodeFrame Config.codes (.byte false 0x01) = some .lcdClear ∧ decodeFrame Config.codes (.latch true 0x3) = none ∧
    decodeFrame Config.codes .garbled = none ∧ decodeFrame Config.codes (.latch false 0x3) = some .lcdFunc8Nibble ∧
    ready.wire = none ∧ ({ ready with queue := [.delay 1] } : State).queue = .delay 1 :: [] ∧
    Quiet { ready with host := [0x4041] } ∧ decode (.request 0x4041) = .ok (.putc 0x41) ∧
    decode (.request 0xF123) = .error .reservedRequest ∧ ready.host = [] := by decide

theorem witness_StepwiseAgreesWithBigStep : Quiet ready ∧ ∃ t, drain [.writePin 24 true, .delay 50, .writePin 24 false]
    ready = .next t := ⟨by decide, _, rfl⟩

/-- Each check of R164 with the ones before it passed. -/
theorem witness_OrderOfChecks :
    ({ ready with queue := [.finish] } : State).queue ≠ [] ∧ ready.queue = [] ∧
    decode (.request 0xE000) = .error .reservedRequest ∧
    (decode (.request 0x0000) = .ok .init ∧ admits .init ready.phase = false) ∧
    (decode (.request 0xB136) = .ok (.pinf 54 .output) ∧ admits (.pinf 54 .output) ready.phase = true ∧
      Instr.wellFormed (.pinf 54 .output) = false) ∧
    (admits .init misfit.phase = true ∧ ¬ misfit.cfg.Admitted misfit.par.codes) ∧
    (admits .init starved.phase = true ∧ starved.cfg.Admitted starved.par.codes ∧ starved.allocOk = false) := by decide

theorem witness_ReservedRequests : (ready.queue = [] ∧ ready.phase ≠ .fatal) ∧
    (∀ row ∈ requestRows, 0xE000#16 &&& row.2 ≠ row.1) ∧ (∀ row ∈ requestRows, 0xD040#16 &&& row.2 ≠ row.1) ∧
    54 ≤ (54#6).toNat ∧ 54 ≤ (63#6).toNat :=
  ⟨by decide, by simp [requestRows], by simp [requestRows], by decide, by decide⟩

theorem witness_FatalIsPreciseAndAbsorbing :
    (starved.queue = [] ∧ starved.phase = .uninitialized ∧ starved.cfg.Admitted starved.par.codes ∧ starved.allocOk = false) ∧
    (dead.queue = [] ∧ dead.phase = .fatal ∧ Quiet dead) := by decide

/-- Bits 0 and 31 of bank 0, bits 0 and 21 of bank 1, every pin Output. -/
theorem witness_FunctionAndLevelRegisters : allHigh.par.offsets = Config.offsets ∧
    allHigh.isOutput (32 * 0 + 0) = true ∧ allHigh.isOutput (32 * 0 + 31) = true ∧
    allHigh.isOutput (32 * 1 + 0) = true ∧ allHigh.isOutput (32 * 1 + 21) = true ∧ 32 * 1 + 21 < 54 := by decide

/-- The pins at the ends of the two banks, named by a word with that bit. -/
theorem witness_SetAndClearRegisters : State.reset.par.offsets = Config.offsets ∧
    (31 < 54 ∧ 31 / 32 = 0 ∧ (0x80000000 : Word).getLsbD (31 % 32) = true) ∧
    (32 < 54 ∧ 32 / 32 = 1 ∧ (0x1 : Word).getLsbD (32 % 32) = true) ∧
    (53 < 54 ∧ 53 / 32 = 1 ∧ (0x200000 : Word).getLsbD (53 % 32) = true) := by decide

theorem witness_NoOtherRegisters : State.reset.par.offsets = Config.offsets ∧
    6 ∉ [0, 1, 2, 3, 4, 5, 7, 8, 10, 11, 13, 14] ∧ 9 ∉ [0, 1, 2, 3, 4, 5, 7, 8, 10, 11, 13, 14] ∧
    12 ∉ [0, 1, 2, 3, 4, 5, 7, 8, 10, 11, 13, 14] ∧ 15 ∉ [0, 1, 2, 3, 4, 5, 7, 8, 10, 11, 13, 14] ∧
    1024 ∉ [0, 1, 2, 3, 4, 5, 7, 8, 10, 11, 13, 14] := by decide

/-- `PINF`, `PINW`, `PINR`: before `INIT` and after, the first pin and the last; a pin that is no strobe fall and
the strobe itself. -/
theorem witness_PinResults : PinReady State.reset ∧ PinReady ready ∧ (0#6).toNat < 54 ∧ (53#6).toNat < 54 ∧
    allHigh.isOutput (53#6).toNat = true ∧
    ¬ ((0#6).toNat = ready.cfg.strb ∧ true = false ∧ ready.out.getLsbD (0#6).toNat = true) := by decide

/-- The strobe's latch High, its lines driven and not driven. -/
theorem witness_StrobeFallLatches : PinReady allHigh ∧ (24#6).toNat < 54 ∧ (24#6).toNat = allHigh.cfg.strb ∧
    allHigh.out.getLsbD (24#6).toNat = true ∧ (∀ q ∈ lcdPins allHigh.cfg, allHigh.isOutput q = true) ∧
    ¬ (∀ q ∈ lcdPins State.reset.cfg, State.reset.isOutput q = true) := by decide

theorem witness_LoopBack : PinReady State.reset ∧ (53#6).toNat < 54 := by decide

theorem witness_BitIsolation : PinReady allHigh ∧ (0#6).toNat < 54 ∧ (53#6).toNat < 54 ∧ (0#6) ≠ 53#6 ∧
    allHigh.isOutput (53#6).toNat = true := by decide

/-- `NPAIR`, `NIBC`, `CMD`, `CLEAR`, `HOME`, the toggles, `TransferLatches`: an operable state. -/
theorem witness_Operable : Operable ready ∧ Operable (readyAt 15 1) ∧ ready.ctl = 0b100 ∧
    ready.par.codes = Config.codes := by decide

theorem witness_PulseCounts_LinesAtRest : Operable (readyAt 14 0) ∧ (readyAt 14 0).cx + 1 ≠ (readyAt 14 0).cfg.cols := by
  decide

theorem witness_OtherPinsUntouched : InGrid ready ∧ isDisplay (.putc 0x41) = true ∧ Startable State.reset ∧
    0 ∉ lcdPins ready.cfg ∧ 53 ∉ lcdPins ready.cfg := by decide

/-- `INIT` under two rows and under one, with the default parameters. -/
theorem witness_InitResults : Startable State.reset ∧ State.reset.par = Config.defaultParams ∧
    State.reset.ctl = 0b000 ∧ State.reset.cfg.rows = 2 ∧
    Startable { State.reset with cfg := { Config.cfgEx with rows := 1 } } := by decide

/-- Both tails, and the settling time exactly met. -/
theorem witness_HandshakeSynchronises : (35000 : Nat) ≤ 35000 ∧ State.reset.par.initTail = [0x06, 0x14] ∧
    Startable { State.reset with par := { Config.defaultParams with initTail := [0x06] } } ∧
    State.reset.cfg.rows = 2 ∧ State.reset.par.codes = Config.codes := by decide

/-- Each settling time one microsecond short, and a loose pin, from the reset receiver. -/
theorem witness_ShortHandshakeFails : State.reset.rx.sync = none ∧
    ((34999 : Nat) < 35000 ∨ (35000 : Nat) < 35000 ∨ (35000 : Nat) < 35000 ∨ false = true) ∧
    ((35000 : Nat) < 35000 ∨ (34999 : Nat) < 35000 ∨ (35000 : Nat) < 35000 ∨ false = true) ∧
    ((35000 : Nat) < 35000 ∨ (35000 : Nat) < 35000 ∨ (34999 : Nat) < 35000 ∨ false = true) ∧
    ((35000 : Nat) < 35000 ∨ (35000 : Nat) < 35000 ∨ (35000 : Nat) < 35000 ∨ true = true) := by decide

/-- One column before the wrap, at the wrap, at the wrap of the last row. -/
theorem witness_PutcResult :
    (InGrid (readyAt 14 0) ∧ (readyAt 14 0).cx + 1 ≠ (readyAt 14 0).cfg.cols) ∧
    (InGrid (readyAt 15 0) ∧ (readyAt 15 0).cx + 1 = (readyAt 15 0).cfg.cols ∧
      (readyAt 15 0).cy + 1 ≠ (readyAt 15 0).cfg.rows) ∧
    (InGrid (readyAt 15 1) ∧ (readyAt 15 1).cx + 1 = (readyAt 15 1).cfg.cols ∧
      (readyAt 15 1).cy + 1 = (readyAt 15 1).cfg.rows) := by decide

theorem witness_StringWraps : InGrid (readyAt 15 1) ∧ InGrid (readyAt 0 0) := by decide

/-- The last position inside; the first column and the first row outside. -/
theorem witness_PosResult : Operable ready ∧
    ((15#8).toNat < ready.cfg.cols ∧ (1#4).toNat < ready.cfg.rows) ∧
    ready.cfg.cols ≤ (16#8).toNat ∧ ready.cfg.rows ≤ (2#4).toNat := by decide

/-- The receiver's instructions: a Synced receiver, an address at the end of the counter, an unknown address, an
Unknown receiver. -/
theorem witness_ReceiverEffects : ready.rx.sync = some listening ∧ listening.inc = some true ∧
    ({ listening with ac := some 127 } : Synced).ac = some 127 ∧ ({ listening with ac := none } : Synced).ac = none ∧
    ({ listening with inc := some false } : Synced).inc ≠ some true ∧
    State.reset.rx.sync = none ∧ isCommand .lcdClear = true := by decide

/-- A display that has been shifted, and a step of it. -/
theorem witness_ShiftHidesForGood : ∃ t, step ({ ready with rx := { settled with shifted := true } }) = .next t ∧
    ({ settled with shifted := true } : Receiver).shifted = true := ⟨_, rfl, rfl⟩

/-- `UnknownAbsorbs`: a latch and a garbled latch on the wire of an Unknown receiver, on both sides of the
equivalence. -/
theorem witness_UnknownAbsorbs :
    ({ State.reset with wire := some (.latch false 0x2) } : State).wire = some (.latch false 0x2) ∧
    State.reset.rx.sync = none ∧ State.reset.rx.progress ≠ 3 ∧
    (({ Receiver.reset with progress := 3, elapsed := 35000 } : Receiver).sync = none ∧
      (3 = 3 ∧ Receiver.reset.loose = false ∧
        35000 ≤ ({ Receiver.reset with progress := 3, elapsed := 35000 } : Receiver).elapsed)) ∧
    ({ State.reset with wire := some .garbled } : State).wire = some .garbled := by decide

/-- `LatchesPairIntoBytes`: no half, a half of the same level, a half of the other, the settling just over. -/
theorem witness_LatchesPairIntoBytes :
    ready.rx.due ≤ ready.rx.elapsed ∧ ready.rx.due = 2000 ∧ ready.rx.elapsed = 2000 ∧ ready.rx.loose = false ∧
    ¬ ((true : Level) = false ∧ (0x3 : Nibble) = 0x2 ∧ ready.rx.progress = 3 ∧ 35000 ≤ ready.rx.elapsed) ∧
    ready.rx.sync = some listening ∧ listening.half = none ∧
    ({ listening with half := some (true, 4) } : Synced).half = some (true, 4) ∧
    ({ listening with half := some (false, 4) } : Synced).half = some (false, 4) ∧ false ≠ (true : Level) := by decide

theorem witness_ReservedCommandLoses : ready.par.codes = Config.codes ∧
    ({ ready with wire := some (.byte false 0x40) } : State).wire = some (.byte false 0x40) ∧
    0x40#8 &&& 0xC0 = 0x40 ∧ 0x7F#8 &&& 0xC0 = 0x40 := by decide

/-- One microsecond short; the fourth handshake latch exactly in time. -/
theorem witness_SettlingEnforced :
    ({ settled with elapsed := 1999 } : Receiver).elapsed < ({ settled with elapsed := 1999 } : Receiver).due ∧
    ¬ ((false : Level) = false ∧ (0x2 : Nibble) = 0x2 ∧ settled.progress = 3 ∧ 35000 ≤ settled.elapsed) ∧
    ({ ready with wire := some (.latch false 0x3) } : State).wire = some (.latch false 0x3) ∧
    ¬ ((false : Level) = false ∧ (0x3 : Nibble) = 0x2 ∧ settled.progress = 3 ∧ settled.loose = false ∧
      35000 ≤ settled.elapsed) ∧
    isCommand (.lcdDdram 0) = true ∧ ready.rx.sync = some listening ∧
    (3 = 3 ∧ Receiver.reset.loose = false ∧ 35000 ≤ ({ Receiver.reset with elapsed := 35000 } : Receiver).elapsed) := by
  decide

/-- Driver and receiver in step, at rest after a command. -/
theorem inStep_ready : InStep ready listening := by
  refine ⟨by decide, rfl, by decide, by decide, rfl, rfl⟩

theorem witness_PinOperationsOnLcdPins : Operable ready ∧ (22#6).toNat ∈ lcdPins ready.cfg ∧
    InStep ready listening ∧ (24#6).toNat = ready.cfg.strb ∧ ready.rx.due ≤ ready.rx.elapsed ∧ ready.rx.progress ≠ 3 :=
  ⟨by decide, by decide, inStep_ready, by decide, by decide, by decide⟩

theorem witness_DriverIgnoresReceiver : ∃ t, present 0x6000 ready = .next t := ⟨_, rfl⟩

theorem witness_CommandsReachReceiver : InStep ready listening ∧ listening.inc = some true ∧
    (15#8).toNat < ready.cfg.cols ∧ (1#4).toNat < ready.cfg.rows := ⟨inStep_ready, by decide, by decide, by decide⟩

/-- In agreement at (15, 1), where the next character wraps, with a display that shows. -/
theorem witness_CharacterLandsAtCursor : InGrid (readyAt 15 1) ∧ LinesReady (readyAt 15 1) ∧
    Standard (readyAt 15 1) ∧ Agrees (readyAt 15 1) ∧
    (∃ y v, (readyAt 15 1).rx.sync = some y ∧ y.multi = some (decide (1 < (readyAt 15 1).cfg.rows)) ∧
      y.ctl = some v ∧ v.getLsbD 2 = true ∧ (readyAt 15 1).rx.shifted = false) :=
  ⟨by decide, by decide, rfl, ⟨by decide, _, rfl, rfl, rfl, rfl⟩, _, _, rfl, by decide, rfl, by decide, rfl⟩

theorem witness_ProtocolMet : Startable State.reset ∧
    ∀ i ∈ [Instr.putc 0x41, .cmd 0x01, .pos 15 1, .home, .blink true], isDisplay i = true := by decide

/-- Every clause of R196 that asks something of the operands. -/
theorem witness_LeastTimes : InGrid (readyAt 14 0) ∧ InGrid (readyAt 15 0) ∧ (readyAt 15 0).par = Config.defaultParams ∧
    (readyAt 14 0).cx + 1 ≠ (readyAt 14 0).cfg.cols ∧ (readyAt 15 0).cx + 1 = (readyAt 15 0).cfg.cols ∧
    ((15#8).toNat < (readyAt 15 0).cfg.cols ∧ (1#4).toNat < (readyAt 15 0).cfg.rows) ∧
    ¬ ((16#8).toNat < (readyAt 15 0).cfg.cols ∧ (0#4).toNat < (readyAt 15 0).cfg.rows) ∧ (53#6).toNat < 54 := by decide

end Sys2Proof.Tests
end

section
/-! O6: `PHASE` moves only in `INIT` (R16). Every other item list holds no phase item, so a run of it keeps `PHASE`;
the list of `INIT` ends with the one that makes it Ready, and `fatal` makes it Fatal. -/

namespace Sys2Proof.Machine

/-! ### Items that keep `PHASE` (R20) -/

/-- The item leaves `PHASE` alone. -/
def Action.keepsPhase : Action → Bool
  | .phase _ => false
  | .setFn _ _ | .writePin _ _ | .readPin _ | .delay _ | .record | .cursor _ _ | .control _ | .finish => true

/-- No item of the list changes `PHASE`. -/
def phaseFree (acts : List Action) : Bool := acts.all Action.keepsPhase

@[simp] theorem phaseFree_cons (a : Action) (rest : List Action) :
    phaseFree (a :: rest) = (a.keepsPhase && phaseFree rest) := rfl

@[simp] theorem phaseFree_append (as bs : List Action) :
    phaseFree (as ++ bs) = (phaseFree as && phaseFree bs) := List.all_append

/-- A pin micro-operation that goes on has met its guard (R45). -/
theorem pin_lt_of_guard {p : Nat} {r : Refusal} {o : Outcome} {t : State}
    (h : (if Config.nPins ≤ p then .refused r else o) = .next t) : p < 54 := by
  refine Nat.lt_of_not_le fun hp => ?_
  rw [if_pos (show Config.nPins ≤ p from hp)] at h
  cases h

theorem perform_keeps_phase {a : Action} {s t : State} (ha : a.keepsPhase = true) (h : perform a s = .next t) :
    t.phase = s.phase := by
  cases a with
  | phase ph => cases ha
  | setFn p m => rw [perform, setPinFunction_eq _ _ _ (pin_lt_of_guard h)] at h; cases h; rfl
  | writePin p l => rw [perform, writePinLevel_eq _ _ _ (pin_lt_of_guard h)] at h; cases h; rfl
  | readPin p => rw [perform, readPinLevel_eq _ _ (pin_lt_of_guard h)] at h; cases h; rfl
  | delay n | record | cursor x y | control c | finish => cases h; rfl

theorem drain_keeps_phase {acts : List Action} {s t : State} (ha : phaseFree acts = true)
    (h : drain acts s = .next t) : t.phase = s.phase := by
  induction acts generalizing s with
  | nil => cases h; exact settle_phase s
  | cons a rest ih =>
    rw [phaseFree_cons, Bool.and_eq_true] at ha
    obtain ⟨u, hu, h⟩ := andThen_eq_next h
    calc t.phase = u.phase := ih ha.2 h
      _ = (settle s).phase := perform_keeps_phase ha.1 hu
      _ = s.phase := settle_phase s

/-- A list with a phase item after which none follows leaves that phase, whatever came before. -/
theorem drain_last_phase {as bs : List Action} {ph : Phase} {s t : State} (hb : phaseFree bs = true)
    (h : drain (as ++ .phase ph :: bs) s = .next t) : t.phase = ph := by
  rw [drain_append] at h
  obtain ⟨u, -, h⟩ := andThen_eq_next h
  exact drain_keeps_phase hb h

/-! ### The lists of the operations -/

@[simp] theorem phaseFree_nibblePair (c : Cfg) (b : Byte) : phaseFree (nibblePair c b) = true := rfl
@[simp] theorem phaseFree_nibbleCommand (c : Cfg) (n : Nibble) : phaseFree (nibbleCommand c n) = true := rfl
@[simp] theorem phaseFree_sendCommand (c : Cfg) (b : Byte) : phaseFree (sendCommand c b) = true := rfl
@[simp] theorem phaseFree_setControl (k : Codes) (cfg : Cfg) (mask : BitVec 3) (e : Bool) (ctl : BitVec 3) :
    phaseFree (setControl k cfg mask e ctl) = true := rfl
@[simp] theorem phaseFree_commandAndReturn (cfg : Cfg) (extra : Nat) (b : Byte) :
    phaseFree (commandAndReturn cfg extra b) = true := rfl

@[simp] theorem phaseFree_setPosition (k : Codes) (cfg : Cfg) (c r : Nat) :
    phaseFree (setPosition k cfg c r) = true := by
  unfold setPosition
  split <;> rfl

@[simp] theorem phaseFree_writeChar (k : Codes) (cfg : Cfg) (x y : Nat) (b : Byte) :
    phaseFree (writeChar k cfg x y b) = true := by
  unfold writeChar
  split
  · simp [Action.keepsPhase]
  · rfl

/-! ### Requests (R161, R164) -/

theorem request_keeps_phase {admits : Phase → Bool} {body : State → Outcome} {s t : State}
    (hb : body s = .next t → t.phase = s.phase) (h : request admits body s = .next t) : t.phase = s.phase := by
  rcases request_cases admits body s with ⟨-, e⟩ | ⟨-, -, e⟩ | ⟨-, -, e⟩ <;> rw [e] at h
  · cases h; rfl
  · cases h; rfl
  · exact hb h

theorem operate_keeps_phase {acts : List Action} {s t : State} (ha : phaseFree acts = true)
    (h : operate (acts ++ [.finish]) s = .next t) : t.phase = s.phase :=
  drain_keeps_phase (s := { s with resp := none }) (by rw [phaseFree_append, ha]; rfl) h

/-- A display operation whose list has no phase item (R57). -/
theorem display_keeps_phase {acts : List Action} {s t : State} (ha : phaseFree acts = true)
    (h : request whenReady (operate (acts ++ [.finish])) s = .next t) : t.phase = s.phase :=
  request_keeps_phase (operate_keeps_phase ha) h

/-- A pin operation whose list has no phase item (R80). -/
theorem pin_keeps_phase {acts : List Action} {p : BitVec 6} {s t : State} (ha : phaseFree acts = true)
    (h : request unlessFatal (onPin p (operate acts)) s = .next t) : t.phase = s.phase := by
  refine request_keeps_phase (fun h => ?_) h
  unfold onPin at h
  split at h
  · cases h; rfl
  · exact drain_keeps_phase (s := { s with resp := none }) ha h

/-- Every host operation but `INIT` keeps `PHASE` (R16). -/
theorem exec_keeps_phase {i : Instr} {s t : State} (hi : isHost i = true) (hne : i ≠ .init)
    (h : exec i s = .next t) : t.phase = s.phase := by
  cases i with
  | init => exact absurd rfl hne
  | cmd b => exact display_keeps_phase (phaseFree_sendCommand ..) h
  | npair b => exact display_keeps_phase (phaseFree_nibblePair ..) h
  | nibc n => exact display_keeps_phase (phaseFree_nibbleCommand ..) h
  | putc b => exact display_keeps_phase (phaseFree_writeChar ..) h
  | pos c r => exact display_keeps_phase (phaseFree_setPosition ..) h
  | clear | home => exact display_keeps_phase (phaseFree_commandAndReturn ..) h
  | disp e | curs e | blink e => exact display_keeps_phase (phaseFree_setControl ..) h
  | pinf p m => exact pin_keeps_phase (acts := [.setFn p.toNat m, .finish]) rfl h
  | pinw p l => exact pin_keeps_phase (acts := [.writePin p.toNat l, .finish]) rfl h
  | pinr p => exact pin_keeps_phase (acts := [.readPin p.toNat]) rfl h
  | lcdClear | lcdHome | lcdEntry _ _ | lcdCtrl _ _ _ | lcdCdshift _ _ | lcdFunc _ _ _ | lcdDdram _
  | lcdData _ | lcdFunc8Nibble | lcdFunc4Nibble => cases hi

/-- `INIT` that changes `PHASE` was called in Uninitialized and leaves Ready, or Fatal for want of memory (R97, R98). -/
theorem execInit_phase {s t : State} (h : execInit s = .next t) (hne : t.phase ≠ s.phase) :
    s.phase = .uninitialized ∧ (t.phase = .ready ∨ t.phase = .fatal) := by
  rw [execInit] at h
  rcases request_cases whenUninitialized _ s with ⟨-, e⟩ | ⟨-, -, e⟩ | ⟨-, hp, e⟩ <;> rw [e] at h
  · cases h; exact absurd rfl hne
  · cases h; exact absurd rfl hne
  · refine ⟨eq_of_beq hp, ?_⟩
    split at h
    · cases h; exact absurd rfl hne
    · split at h
      · cases h; exact .inr rfl
      · rw [operate, initActions, List.append_assoc] at h
        exact .inl (drain_last_phase rfl h)

/-! ### The request word of `INIT`, and the step -/

/-- The only request word of `INIT` (R58). -/
theorem eq_zero_of_decodeRequest_init {w : BitVec 16} (h : decodeRequest w = some .init) : w = 0x0000#16 := by
  unfold decodeRequest at h
  dsimp only at h
  split at h
  case h_1 hop =>
    split at h
    · rename_i hlow
      have hlow : (w.extractLsb' 0 12).toNat = 0 := by rw [hlow]; rfl
      simp only [BitVec.extractLsb'_toNat, Nat.shiftRight_eq_div_pow] at hop hlow
      apply BitVec.eq_of_toNat_eq
      simp only [BitVec.toNat_ofNat]
      omega
    · cases h
  case h_6 | h_15 => cases h
  all_goals split at h <;> cases h

/-- What an idle driver answers to a request word: the host operation it encodes, or a refusal that changes the reply
only (R56, R59). -/
theorem present_idle_cases {w : BitVec 16} {s t : State} (hq : s.queue = []) (h : present w s = .next t) :
    (∃ i, decodeRequest w = some i ∧ exec i s = .next t) ∨
    t = { s with resp := some (.refused .reservedRequest) } := by
  rw [present, if_neg (not_not.2 hq)] at h
  split at h
  · rename_i i hd
    exact .inl ⟨i, decode_request hd, h⟩
  · cases h; exact .inr rfl

/-- A request that changes `PHASE` of an idle driver is the word of `INIT` (R16). -/
theorem present_phase {w : BitVec 16} {s t : State} (hq : s.queue = []) (h : present w s = .next t)
    (hne : t.phase ≠ s.phase) :
    w = 0x0000#16 ∧ s.phase = .uninitialized ∧ (t.phase = .ready ∨ t.phase = .fatal) := by
  rcases present_idle_cases hq h with ⟨i, hd, hx⟩ | rfl
  · by_cases hi : i = .init
    · subst hi
      exact ⟨eq_zero_of_decodeRequest_init hd, execInit_phase hx hne⟩
    · exact absurd (exec_keeps_phase (decodeRequest_isHost hd) hi hx) hne
  · exact absurd rfl hne

theorem receiveFrame_phase (f : Frame) (s : State) : (receiveFrame f s).phase = s.phase := by
  rw [receiveFrame_eq]

/-- Settles O6: of what an idle driver's step can be, a frame and a pause keep `PHASE`, and a request that changes it
is `INIT`. -/
theorem phaseTransitions : Obligations.PhaseTransitions := by
  intro s t hs h hne
  rcases step_idle_cases hs.idle h with ⟨f, -, rfl⟩ | ⟨hw, w, rest, hh, hp⟩ | ⟨-, -, rfl⟩
  · exact absurd (receiveFrame_phase f _) hne
  · obtain ⟨rfl, hu, ht⟩ := present_phase (s := { s with host := rest }) hs.idle hp hne
    exact ⟨hu, ht, hw, rest, hh⟩
  · exact absurd rfl hne

end Sys2Proof.Machine
end

section
/-! O22, O24, O25, O26: `PINW` and `PINR` at the registers, and the laws of R84 and R85. One lemma per pin operation
says what its next state has of the latches and the function fields; the two laws chain these. -/

namespace Sys2Proof.Machine

open Sys2Proof.Spec

/-! ### The request words and the last pin (R45, R58, R59) -/

theorem decode_pinw_word (p : BitVec 6) (l : Level) :
    decode (.request (0xC000 ||| (if l then 0x100#16 else 0#16) ||| p.zeroExtend 16)) = .ok (.pinw p l) := by
  revert p
  cases l <;> decide

theorem decode_pinr_word (p : BitVec 6) : decode (.request (0xD000 ||| p.zeroExtend 16)) = .ok (.pinr p) := by
  revert p
  decide

theorem onPin_badPin {s : State} {p : BitVec 6} (h : 53 < p.toNat) (body : State → Outcome) :
    onPin p body s = turnAway .badPin s := by
  rw [onPin, if_pos (by unfold Config.nPins; omega)]

/-- What every pin operation has to show for its request word: the word decodes to it, and it goes through the checks
of R164. -/
theorem pinRequested_of_checks {w : BitVec 16} {p : BitVec 6} {i : Instr} {acts : List Action}
    (hd : decode (.request w) = .ok i) (hx : exec i = request unlessFatal (onPin p (operate acts))) :
    PinRequested w p i :=
  ⟨hd, fun s hq hp hlt => by rw [hx, pin_goes hq hp, onPin_badPin hlt]; rfl⟩

/-! ### What a pin operation leaves (R81 to R83) -/

theorem strobeFalls_iff (s : State) (p : Nat) (l : Level) :
    s.strobeFalls p l = true ↔ p = s.cfg.strb ∧ l = false ∧ s.out.getLsbD p = true := by
  simp [State.strobeFalls, and_assoc]

/-- `PINW`, the strobe falling or not: the event and the latch bit are the same; the receiver gets input only from a
fall (R82, R95). -/
theorem execPinw_sent {s : State} (h : PinReady s) (p : BitVec 6) (l : Level) (hp : p.toNat < 54) :
    ∃ ins, execPinw p l s = .next (State.sent [.pin p.toNat l] (setLatchBit s.out p.toNat l) ins
      { s with resp := some (.done none) }) ∧ (s.strobeFalls p.toNat l = false → ins = []) := by
  obtain ⟨⟨hq, hw⟩, hph⟩ := h
  cases hf : s.strobeFalls p.toNat l with
  | false => exact ⟨[], execPinw_eq hq hw hph p l hp hf, fun _ => rfl⟩
  | true =>
    obtain ⟨hstrb, rfl, hhigh⟩ := (strobeFalls_iff ..).1 hf
    exact ⟨_, execPinw_fall hq hw hph p hp hstrb hhigh, nofun⟩

/-- After `PINW` pin requests still run, its latch bit is set to the level, and every pin has its function (R82). -/
theorem exec_pinw_next {s : State} (h : PinReady s) (p : BitVec 6) (l : Level) (hp : p.toNat < 54) :
    ∃ t, exec (.pinw p l) s = .next t ∧ PinReady t ∧ t.out = setLatchBit s.out p.toNat l ∧
      ∀ q, t.isOutput q = s.isOutput q := by
  obtain ⟨ins, hx, -⟩ := execPinw_sent h p l hp
  exact ⟨_, hx, h, rfl, fun _ => rfl⟩

/-- After `PINF` pin requests still run, every latch is as before, and only its own pin's field has changed (R81). -/
theorem exec_pinf_next {s : State} (h : PinReady s) (p : BitVec 6) (m : PinFn) (hp : p.toNat < 54) :
    ∃ t, exec (.pinf p m) s = .next t ∧ PinReady t ∧ t.out = s.out ∧
      ∀ q, t.pinField q = if q = p.toNat then (fnCode m).truncate 3 else s.pinField q :=
  ⟨_, execPinf_eq h.1.1 h.1.2 h.2 p m hp, h, rfl, fun q => pinField_set s p.toNat q m hp⟩

/-- A pin whose field is the Output code is Output (R21). -/
theorem isOutput_of_pinField {s : State} {p : Nat} (h : s.pinField p = (fnCode .output).truncate 3) :
    s.isOutput p = true := beq_iff_eq.2 h

theorem execAll_cons_next {i : Instr} {s t : State} (h : exec i s = .next t) (rest : List Instr) :
    execAll (i :: rest) s = execAll rest t := by
  rw [execAll, h, andThen_next]

/-- `PINR` of an Output pin, last of a list of requests, answers the pin's latch (R83). -/
theorem execAll_pinr_output {s : State} (h : PinReady s) (p : BitVec 6) (hp : p.toNat < 54)
    (ho : s.isOutput p.toNat = true) :
    ∃ t, execAll [.pinr p] s = .next t ∧ t.resp = some (.done (some (s.out.getLsbD p.toNat))) :=
  ⟨_, execAll_cons_next (i := .pinr p) (execPinr_eq h.1.1 h.1.2 h.2 p hp) [], by rw [← level_output _ hp ho]⟩

/-! ### The results -/

/-- Settles O22: the next state is the one event's, whose register write and latch bit are read off; the receiver's
input is empty unless the strobe falls. -/
theorem pinwResult : Obligations.PinwResult := by
  intro p l
  refine ⟨pinRequested_of_checks (decode_pinw_word p l) rfl, fun s hs hp => ?_⟩
  obtain ⟨ins, hx, hins⟩ := execPinw_sent hs p l hp
  refine ⟨_, hx, rfl, fun q hq => ?_, fun hno => ?_⟩
  · rw [sent_out, getLsbD_setLatchBit]
    simp [hq]
  · have hf : s.strobeFalls p.toNat l = false := Bool.eq_false_iff.2 fun hf => hno ((strobeFalls_iff ..).1 hf)
    rw [hins hf, sent_rx, feed_nil]

/-- Settles O24: the word read is the level word of the pin's bank, and its bit is the pin's level. -/
theorem pinrResult : Obligations.PinrResult := by
  intro p
  refine ⟨pinRequested_of_checks (decode_pinr_word p) rfl, fun s hs hp => ?_⟩
  exact ⟨s.levWord (Config.levelDraw s.draws) (pinBank p.toNat), s.level (Config.levelDraw s.draws) p.toNat,
    (levWord_bit ..).symm, level_output _ hp, execPinr_eq hs.1.1 hs.1.2 hs.2 p hp⟩

/-- Settles O25: in either order the pin is Output with its latch at the level when `PINR` reads it. -/
theorem loopBack : Obligations.LoopBack := by
  intro p l s hs hp
  have hlatch := getLsbD_setLatchBit_same s.out p.toNat l hp
  constructor
  · obtain ⟨t, ht, hready, hkept, hfield⟩ := exec_pinf_next hs p .output hp
    obtain ⟨u, hu, hready, hout, hfn⟩ := exec_pinw_next hready p l hp
    have ho : t.isOutput p.toNat = true := isOutput_of_pinField (by rw [hfield, if_pos rfl])
    rw [execAll_cons_next ht, execAll_cons_next hu, ← hlatch, ← hkept, ← hout]
    exact execAll_pinr_output hready p hp ((hfn _).trans ho)
  · obtain ⟨t, ht, hready, hout, -⟩ := exec_pinw_next hs p l hp
    obtain ⟨u, hu, hready, hkept, hfield⟩ := exec_pinf_next hready p .output hp
    have ho : u.isOutput p.toNat = true := isOutput_of_pinField (by rw [hfield, if_pos rfl])
    rw [execAll_cons_next ht, execAll_cons_next hu, ← hlatch, ← hout, ← hkept]
    exact execAll_pinr_output hready p hp ho

/-- Settles O26: `PINW` changes one latch bit and no function, `PINF` one field and no latch. -/
theorem bitIsolation : Obligations.BitIsolation := by
  intro p1 p2 l m s hs hp1 hp2 hne
  have hne : p2.toNat ≠ p1.toNat := fun h => hne (BitVec.eq_of_toNat_eq h.symm)
  refine ⟨fun ho => ?_, ?_⟩
  · obtain ⟨t, ht, hready, hout, hfn⟩ := exec_pinw_next hs p1 l hp1
    rw [execAll_cons_next ht, ← getLsbD_setLatchBit_other s.out _ _ l hne, ← hout]
    exact execAll_pinr_output hready p2 hp2 ((hfn _).trans ho)
  · obtain ⟨t, ht, -, hout, hfield⟩ := exec_pinf_next hs p1 m hp1
    exact ⟨t, ht, by rw [hfield, if_neg hne], hout⟩

end Sys2Proof.Machine
end

section
/-! O27, O29, O31, O32: the strobe transfers `NPAIR`, `NIBC`, `CMD` and a character without a column wrap. Each sends
the events written out from the rules (R88 to R93, R109); pulses are counted along the events, and the lines at rest
are those of the last nibble. -/

namespace Sys2Proof.Machine

open Sys2Proof.Spec

/-! ### The request words, and the refusal outside Ready (R57, R58) -/

theorem decode_npair_word (b : Byte) : decode (.request (0x2000 ||| b.zeroExtend 16)) = .ok (.npair b) := by
  revert b
  decide

theorem decode_cmd_word (b : Byte) : decode (.request (0x1000 ||| b.zeroExtend 16)) = .ok (.cmd b) := by
  revert b
  decide

/-- What every display operation has to show for its request word: the word decodes to it, and it goes through the
checks of R164; its items may depend on the state. -/
theorem requested_of_checks {w : BitVec 16} {i : Instr} {acts : State → List Action}
    (hd : decode (.request w) = .ok i) (hx : ∀ s, exec i s = request whenReady (operate (acts s)) s) :
    Requested w i :=
  ⟨hd, fun s hq hp => by
    have hnot : whenReady s.phase = false := beq_eq_false_iff_ne.2 hp
    rw [hx, request_wrongPhase _ hq hnot, turnAway]⟩

/-! ### The transfers in the spec's own events (R91 to R93, R109) -/

theorem exec_npair_sent {s : State} (h : Operable s) (b : Byte) :
    exec (.npair b) s = .next (done (s.sent (byteEvents s.cfg b) (nibbleLines s.cfg (b.extractLsb' 0 4) s.out)
      (byteInputs s.allDriven (s.out.getLsbD s.cfg.rs) b))) :=
  execNpair_eq h b

theorem exec_nibc_sent {s : State} (h : Operable s) (n : Nibble) :
    exec (.nibc n) s = .next (done (s.sent (nibbleCommandEvents s.cfg n) (commandLines s.cfg n s.out)
      (nibbleInputs s.allDriven false n))) :=
  execNibc_eq h n

theorem exec_cmd_sent {s : State} (h : Operable s) (b : Byte) :
    exec (.cmd b) s = .next (done (s.sent (commandEvents s.cfg b) (commandLines s.cfg (b.extractLsb' 0 4) s.out)
      (commandInputs s.allDriven b))) :=
  execCmd_eq h b

/-- A character that does not end its row moves the cursor by one column (R109). -/
theorem exec_putc_sent {s : State} (h : Operable s) (b : Byte) (hx : s.cx + 1 ≠ s.cfg.cols) :
    exec (.putc b) s = .next (done (State.sent (dataEvents s.cfg b)
      (nibbleLines s.cfg (b.extractLsb' 0 4) (setLatchBit s.out s.cfg.rs true)) (byteInputs s.allDriven true b)
      { s with cx := s.cx + 1 })) :=
  execPutc_plain h b hx

/-! ### Pulses along a trace (R88, R94) -/

/-- Events that do not touch the strobe hold no pulse. -/
theorem pulses_zero {c : Cfg} {evs : List Event} (h : ∀ e ∈ evs, ∀ l, e ≠ .pin c.strb l) : Pulses c 0 evs := by
  refine ⟨List.filter_eq_nil_iff.2 fun e he => ?_, fun k hk => ?_⟩
  · simp [h e he]
  · exact absurd rfl (h _ (List.mem_of_getElem? hk) true)

/-- The strobe's four events are one pulse (R88). -/
theorem pulses_strobe (c : Cfg) : Pulses c 1 [.pin c.strb true, .delay 50, .pin c.strb false, .delay 50] := by
  refine ⟨by simp, fun k hk => ?_⟩
  match k, hk with
  | 0, _ => exact ⟨rfl, rfl, rfl⟩
  | 1, hk | 2, hk | 3, hk | _ + 4, hk => simp at hk

/-- Pulses of two stretches of a trace add up: a pulse that begins in the first also ends there. -/
theorem pulses_append {c : Cfg} {m n : Nat} {as bs : List Event} (ha : Pulses c m as) (hb : Pulses c n bs) :
    Pulses c (m + n) (as ++ bs) := by
  obtain ⟨hfa, hka⟩ := ha
  obtain ⟨hfb, hkb⟩ := hb
  refine ⟨by rw [List.filter_append, hfa, hfb, List.replicate_add, List.flatten_append], fun k hk => ?_⟩
  by_cases hlt : k < as.length
  · rw [List.getElem?_append_left hlt] at hk
    obtain ⟨h1, h2, h3⟩ := hka k hk
    have hlast : k + 3 < as.length := (List.getElem?_eq_some_iff.1 h3).1
    rw [List.getElem?_append_left (by omega), List.getElem?_append_left (by omega),
      List.getElem?_append_left hlast]
    exact ⟨h1, h2, h3⟩
  · obtain ⟨j, rfl⟩ := Nat.exists_eq_add_of_le (Nat.le_of_not_lt hlt)
    simp only [Nat.add_assoc, List.getElem?_append_right (Nat.le_add_right ..), Nat.add_sub_cancel_left] at hk ⊢
    exact hkb j hk

theorem pulses_nibble {c : Cfg} (h : PinsOk c) (n : Nibble) : Pulses c 1 (nibbleEvents c n) := by
  obtain ⟨-, ⟨s0, s1, s2, s3⟩, -⟩ := h.distinct
  refine pulses_append (as := [.pin c.d0 _, .pin c.d1 _, .pin c.d2 _, .pin c.d3 _]) (pulses_zero ?_)
    (pulses_strobe c)
  simp [s0.symm, s1.symm, s2.symm, s3.symm]

theorem pulses_byte {c : Cfg} (h : PinsOk c) (b : Byte) : Pulses c 2 (byteEvents c b) :=
  pulses_append (pulses_nibble h _) (pulses_nibble h _)

/-- Writing RS before a transfer adds no pulse. -/
theorem pulses_rs_cons {c : Cfg} (h : PinsOk c) {n : Nat} {evs : List Event} (hn : Pulses c n evs) (l : Level) :
    Pulses c n (.pin c.rs l :: evs) := by
  obtain ⟨⟨hrs, -⟩, -⟩ := h.distinct
  have hsum := pulses_append (as := [.pin c.rs l]) (pulses_zero (by simp [hrs])) hn
  rwa [Nat.zero_add] at hsum

theorem pulses_command {c : Cfg} (h : PinsOk c) (b : Byte) : Pulses c 2 (commandEvents c b) :=
  pulses_rs_cons h (pulses_append (pulses_byte h b) (pulses_zero (by simp))) false

/-! ### The lines at rest (R90, R96) -/

/-- After a transfer the strobe is Low, the data lines hold the last nibble, and RS is as it was. -/
theorem nibbleLines_rest {c : Cfg} (h : PinsOk c) (n : Nibble) (out : BitVec 54) :
    (nibbleLines c n out).getLsbD c.strb = false ∧ dataNibble c (nibbleLines c n out) = n ∧
      (nibbleLines c n out).getLsbD c.rs = out.getLsbD c.rs :=
  ⟨strb_nibbleLines h n out, dataNibble_written h n out, rs_nibbleLines h n out⟩

/-- After a transfer that wrote RS first, RS holds the level written. -/
theorem selectedLines_rest {c : Cfg} (h : PinsOk c) (n : Nibble) (l : Level) (out : BitVec 54) :
    (nibbleLines c n (setLatchBit out c.rs l)).getLsbD c.strb = false ∧
      dataNibble c (nibbleLines c n (setLatchBit out c.rs l)) = n ∧
      (nibbleLines c n (setLatchBit out c.rs l)).getLsbD c.rs = l := by
  have hrest := nibbleLines_rest h n (setLatchBit out c.rs l)
  rwa [getLsbD_setLatchBit_same _ _ _ h.rs] at hrest

/-! ### The results -/

/-- Settles O27: the pair runs whole, and outside Ready the phase check answers. -/
theorem npairResult : Obligations.NpairResult := fun b =>
  ⟨requested_of_checks (acts := fun s => nibblePair s.cfg b ++ [.finish]) (decode_npair_word b) fun _ => rfl,
    fun _ hs => exec_npair_sent hs b⟩

/-- Settles O29: the command runs whole whatever its byte is, and outside Ready the phase check answers. -/
theorem cmdResult : Obligations.CmdResult := fun b =>
  ⟨requested_of_checks (acts := fun s => sendCommand s.cfg b ++ [.finish]) (decode_cmd_word b) fun _ => rfl,
    fun _ hs => exec_cmd_sent hs b⟩

/-- Settles O31: the pulses of each operation's events, put together from one pulse per nibble. -/
theorem pulseCounts : Obligations.PulseCounts := by
  intro b n s hs
  have hp := operable_pins hs
  refine ⟨?npair, ?cmd, fun hx => ?putc, ?nibc⟩
  case npair => exact ⟨_, _, exec_npair_sent hs b, rfl, pulses_byte hp b⟩
  case cmd => exact ⟨_, _, exec_cmd_sent hs b, rfl, pulses_command hp b⟩
  case putc => exact ⟨_, _, exec_putc_sent hs b hx, rfl, pulses_rs_cons hp (pulses_byte hp b) true⟩
  case nibc => exact ⟨_, _, exec_nibc_sent hs n, rfl, pulses_rs_cons hp (pulses_nibble hp n) false⟩

/-- Settles O32: the latch bits each operation leaves are those after its last nibble. -/
theorem linesAtRest : Obligations.LinesAtRest := by
  intro b n s hs
  have hp := operable_pins hs
  refine ⟨?npair, ?nibc, ?cmd, fun hx => ?putc⟩
  case npair => exact ⟨_, exec_npair_sent hs b, nibbleLines_rest hp _ _⟩
  case nibc => exact ⟨_, exec_nibc_sent hs n, selectedLines_rest hp _ false _⟩
  case cmd => exact ⟨_, exec_cmd_sent hs b, selectedLines_rest hp _ false _⟩
  case putc => exact ⟨_, exec_putc_sent hs b hx, selectedLines_rest hp _ true _⟩

end Sys2Proof.Machine
end

section
/-! O35: the end state, the counts and the latches of `INIT` (R106). `INIT` is brought to the spec's own events (R97 to
R105). What the events cost is added up part by part, and so are the latches seen along the trace (R95): a transfer
shows its nibbles with the level RS rests at, and only a strobe that rises makes a latch. -/

namespace Sys2Proof.Machine

open Sys2Proof.Spec

/-! ### `INIT` in the spec's own events (R97 to R105) -/

theorem startable_pins {s : State} (h : Startable s) : PinsOk s.cfg := Cfg.Admitted.pinsOk h.2.2.1

theorem eventsOf_sendTail (c : Cfg) (bs : List Byte) : eventsOf (sendTail c bs) = bs.flatMap (commandEvents c) := by
  induction bs with
  | nil => rfl
  | cons b bs ih =>
    rw [sendTail, eventsOf_append, ih]
    rfl

/-- Parts 5 and 6 (R102, R103) are the commands of `initBytes`. -/
theorem eventsOf_modes (c : Cfg) (k : Codes) (ctl : BitVec 3) :
    eventsOf (multiLine k c ++ attributesOn k c ctl) = (initBytes c k ctl).flatMap (commandEvents c) := by
  have hattr : eventsOf (attributesOn k c ctl) =
      ((initCtls k ctl).map fun v => k.ctrl ||| v.zeroExtend 8).flatMap (commandEvents c) := rfl
  rw [eventsOf_append, hattr, multiLine, initBytes, List.flatMap_append]
  split <;> rfl

/-- `INIT` from any state it can run in (R97): its events, the lines of its last nibble, the receiver's input, and the
six pins Output. -/
theorem exec_init_sent {s : State} (h : Startable s) :
    exec .init s = .next (State.sent (initEvents s.cfg s.par s.ctl)
      (commandLines s.cfg (lastNibble (loNibble s.par.codes.clear) s.par.initTail) s.out)
      (initInputs s.cfg s.par s.ctl s.out)
      (State.outputPins s.cfg.pins { s with
        phase := .ready, disp := some s.cfg, cx := 0, cy := 0, ctl := blinkOff s.par.codes s.ctl
        resp := some (.done none) })) := by
  obtain ⟨⟨hqueue, hwire⟩, hphase, hcfg, halloc⟩ := h
  refine (execInit_eq hqueue hwire hphase hcfg halloc).trans ?_
  have hevents : eventsOf (s.cfg.pins.map (fun p => .writePin p false) ++ handshake s.par.codes s.cfg ++
      multiLine s.par.codes s.cfg ++ attributesOn s.par.codes s.cfg s.ctl ++ sendCommand s.cfg s.par.codes.clear ++
      [.delay s.par.clearExtraUs] ++ sendTail s.cfg s.par.initTail) = initEvents s.cfg s.par s.ctl := by
    rw [List.append_assoc _ (multiLine _ _)]
    simp only [eventsOf_append, eventsOf_sendTail]
    rw [← eventsOf_append (multiLine _ _), eventsOf_modes]
    rfl
  rw [hevents]

/-- The whole of `INIT`'s trace: six `SetFn`s, then `initEvents` (R97, R99). -/
def initTrace (c : Cfg) (par : Params) (ctl : BitVec 3) : List Event :=
  (lcdPins c).map (fun p => .fsel p .output) ++ initEvents c par ctl

theorem exec_init_trace {s : State} (h : Startable s) :
    ∃ t, exec .init s = .next t ∧ t.trace = s.trace ++ initTrace s.cfg s.par s.ctl ∧
      t.phase = .ready ∧ t.cx = 0 ∧ t.cy = 0 ∧ t.ctl = blinkOff s.par.codes s.ctl ∧
      (∀ p ∈ lcdPins s.cfg, t.isOutput p = true) ∧
      t.out = commandLines s.cfg (lastNibble (loNibble s.par.codes.clear) s.par.initTail) s.out := by
  have hexec := exec_init_sent h
  obtain ⟨-, -, ⟨-, -, -, -, -, hp⟩, -⟩ := h
  refine ⟨_, hexec, ?trace, ?phase, ?cx, ?cy, ?ctl, fun p hmem => ?driven, rfl⟩
  case driven =>
    rw [sent_isOutput, isOutput_outputPins _ _ hp, decide_eq_true (show p ∈ s.cfg.pins from hmem), Bool.true_or]
  case trace =>
    rw [sent_trace, outputPins_eq, initTrace, List.append_assoc]
    rfl
  case phase | cx | cy | ctl => rw [State.sent, outputPins_eq]

/-! ### Counts (R106) -/

/-- The counts of R106: events, `DELAY`s and their sum; `FSEL`s; `PIN`s. -/
def tally (evs : List Event) : (Nat × Nat × Nat) × Nat × Nat :=
  (cost evs, (evs.filter Event.isFsel).length, (evs.filter Event.isPin).length)

theorem delaySum_append (as bs : List Event) : delaySum (as ++ bs) = delaySum as + delaySum bs := by
  induction as with
  | nil => exact (Nat.zero_add _).symm
  | cons e as ih => cases e <;> simp [delaySum, ih, Nat.add_assoc]

theorem tally_append (as bs : List Event) : tally (as ++ bs) = tally as + tally bs := by
  simp [tally, cost, delaySum_append]

/-- A list of parts with the same tally. -/
theorem tally_flatMap {α : Type} {f : α → List Event} {k : (Nat × Nat × Nat) × Nat × Nat}
    (hk : ∀ x, tally (f x) = k) (l : List α) : tally (l.flatMap f) = l.length • k := by
  induction l with
  | nil => exact (zero_nsmul k).symm
  | cons x l ih => rw [List.flatMap_cons, tally_append, hk, ih, List.length_cons, succ_nsmul']

theorem tally_nibble (c : Cfg) (n : Nibble) : tally (nibbleEvents c n) = ((8, 2, 100), 0, 6) := rfl

theorem tally_pin (p : Nat) (l : Level) : tally [.pin p l] = ((1, 0, 0), 0, 1) := rfl

theorem tally_delay (n : Nat) : tally [.delay n] = ((1, 1, n), 0, 0) := rfl

theorem tally_handshake (c : Cfg) (n : Nibble) : tally (handshakeEvents c n) = ((10, 3, 35100), 0, 7) := by
  rw [handshakeEvents, nibbleCommandEvents, ← List.singleton_append]
  simp only [tally_append, tally_nibble, tally_pin, tally_delay, Prod.mk_add_mk, Nat.reduceAdd]

theorem tally_command (c : Cfg) (b : Byte) : tally (commandEvents c b) = ((18, 5, 2200), 0, 13) := by
  rw [commandEvents, byteEvents, ← List.singleton_append]
  simp only [tally_append, tally_nibble, tally_pin, tally_delay, Prod.mk_add_mk, Nat.reduceAdd]

/-- `INIT` costs a fixed part and one command for each byte of parts 5 and 6 (R102, R103, R106). -/
theorem tally_initTrace {c : Cfg} {ctl : BitVec 3} {modes : List Byte} (h : initBytes c Config.codes ctl = modes) :
    tally (initTrace c Config.defaultParams ctl) =
      ((107 + modes.length * 18, 28 + modes.length * 5, 152000 + modes.length * 2200), 6,
        73 + modes.length * 13) := by
  have hfsels : tally ((lcdPins c).map fun p => .fsel p .output) = ((6, 0, 0), 6, 0) := rfl
  have hlows : tally ((lcdPins c).map fun p => .pin p false) = ((6, 0, 0), 0, 6) := rfl
  have hextra : Config.defaultParams.clearExtraUs = 5000 := rfl
  have htail : Config.defaultParams.initTail.length = 2 := rfl
  have hcodes : Config.defaultParams.codes = Config.codes := rfl
  simp only [initTrace, initEvents, tally_append, hfsels, hlows, tally_delay, hextra, tally_handshake, tally_command,
    tally_flatMap (tally_command c), htail, hcodes, h, Prod.mk_add_mk, Prod.smul_mk, smul_eq_mul, Prod.mk.injEq]
  omega

/-! ### Latches along a trace (R95) -/

theorem dataNibble_strobe {c : Cfg} (h : PinsOk c) (out : BitVec 54) (l : Level) :
    dataNibble c (setLatchBit out c.strb l) = dataNibble c out := by
  obtain ⟨-, ⟨s0, s1, s2, s3⟩, -⟩ := h.distinct
  apply BitVec.eq_of_getLsbD_eq
  intro i hi
  rw [getLsbD_dataNibble _ _ _ hi, getLsbD_dataNibble _ _ _ hi]
  refine getLsbD_setLatchBit_other _ _ _ _ ?_
  match i with
  | 0 => exact s0.symm
  | 1 => exact s1.symm
  | 2 => exact s2.symm
  | _ + 3 => exact s3.symm

theorem run_append (c : Cfg) (w : Walk) (as bs : List Event) : w.run c (as ++ bs) = (w.run c as).run c bs :=
  List.foldl_append

theorem next_line {c : Cfg} {p : Nat} (hp : p ≠ c.strb) (w : Walk) (l : Level) :
    w.next c (.pin p l) = { w with lines := setLatchBit w.lines p l } := by
  rw [Walk.next, if_neg hp]

theorem next_delay (c : Cfg) (w : Walk) (n : Nat) :
    w.next c (.delay n) = { w with gap := w.gap + n, since := w.since + n } := rfl

theorem next_rise {c : Cfg} {w : Walk} (hw : w.high = false) :
    w.next c (.pin c.strb true) =
      { w with high := true, lowTime := w.since, since := 0, lines := setLatchBit w.lines c.strb true } := by
  simp [Walk.next, hw]

theorem next_fall {c : Cfg} {w : Walk} (hw : w.high = true) :
    w.next c (.pin c.strb false) =
      { w with
        high := false, gap := 0, since := 0, lines := setLatchBit w.lines c.strb false
        latches := w.latches ++
          [{ rs := w.lines.getLsbD c.rs, nib := dataNibble c w.lines, gap := w.gap, high := w.since,
             low := w.lowTime }] } := by
  simp [Walk.next, hw]

/-- A transfer from a Low strobe is one latch of its nibble, with the level RS has (R89, R95). -/
theorem run_nibble {c : Cfg} (h : PinsOk c) (n : Nibble) {w : Walk} (hw : w.high = false) :
    w.run c (nibbleEvents c n) =
      { lines := nibbleLines c n w.lines, high := false, gap := 50, since := 50, lowTime := w.since
        latches := w.latches ++
          [{ rs := w.lines.getLsbD c.rs, nib := n, gap := w.gap + 50, high := 50, low := w.since }] } := by
  obtain ⟨⟨hrs, -⟩, ⟨s0, s1, s2, s3⟩, -⟩ := h.distinct
  have hdata := dataNibble_written h n w.lines
  have hsel := rs_nibbleLines h n w.lines
  rw [nibbleLines, dataNibble_strobe h] at hdata
  rw [nibbleLines, getLsbD_setLatchBit_other _ _ _ _ hrs] at hsel
  simp only [nibbleEvents, Walk.run, List.foldl_cons, List.foldl_nil, next_line s0.symm, next_line s1.symm,
    next_line s2.symm, next_line s3.symm]
  rw [next_rise (by exact hw), next_delay, next_fall rfl, next_delay]
  simp only [dataNibble_strobe h, hdata, getLsbD_setLatchBit_other _ _ _ _ hrs, hsel, rise_fall_lines, Nat.zero_add]

/-- From a Low strobe and RS at `l`, the events leave both so and make the latches `(l, n)` for the nibbles `n` of a
list, in order (R95). -/
def Sends (c : Cfg) (l : Level) (ns : List Nibble) (evs : List Event) : Prop :=
  ∀ w : Walk, w.high = false → w.lines.getLsbD c.rs = l →
    (w.run c evs).high = false ∧ (w.run c evs).lines.getLsbD c.rs = l ∧
      (w.run c evs).latches.map Latch.value = w.latches.map Latch.value ++ ns.map (l, ·)

section
variable {c : Cfg} {l : Level}

theorem sends_append {ms ns : List Nibble} {as bs : List Event} (ha : Sends c l ms as) (hb : Sends c l ns bs) :
    Sends c l (ms ++ ns) (as ++ bs) := by
  intro w hw hl
  obtain ⟨hwa, hla, hva⟩ := ha w hw hl
  obtain ⟨hwb, hlb, hvb⟩ := hb _ hwa hla
  rw [run_append]
  exact ⟨hwb, hlb, by rw [hvb, hva, List.map_append, List.append_assoc]⟩

theorem sends_flatMap {α : Type} {f : α → List Nibble} {g : α → List Event} (h : ∀ x, Sends c l (f x) (g x))
    (xs : List α) : Sends c l (xs.flatMap f) (xs.flatMap g) := by
  induction xs with
  | nil => exact fun w hw hl => ⟨hw, hl, (List.append_nil _).symm⟩
  | cons x xs ih => exact sends_append (h x) ih

theorem sends_delay (n : Nat) : Sends c l [] [.delay n] := fun _ hw hl => ⟨hw, hl, (List.append_nil _).symm⟩

theorem sends_nibble (h : PinsOk c) (n : Nibble) : Sends c l [n] (nibbleEvents c n) := by
  intro w hw hl
  rw [run_nibble h n hw]
  exact ⟨rfl, (rs_nibbleLines h n w.lines).trans hl, by simp [Latch.value, hl]⟩

theorem sends_byte (h : PinsOk c) (b : Byte) :
    Sends c l [b.extractLsb' 4 4, b.extractLsb' 0 4] (byteEvents c b) :=
  sends_append (sends_nibble h _) (sends_nibble h _)

end

/-- With the strobe and RS Low, writing any pin Low makes no latch. -/
theorem sends_low (c : Cfg) (p : Nat) : Sends c false [] [.pin p false] := by
  intro w hw hl
  have hnext : w.run c [.pin p false] = { w with lines := setLatchBit w.lines p false } := by
    by_cases hp : p = c.strb
    · simp [Walk.run, Walk.next, hp, hw]
    · exact next_line hp w false
  rw [hnext]
  refine ⟨hw, ?_, (List.append_nil _).symm⟩
  rw [getLsbD_setLatchBit]
  split
  · rfl
  · exact hl

theorem sends_lows (c : Cfg) (ps : List Nat) : Sends c false [] (ps.map fun p => .pin p false) := by
  induction ps with
  | nil => exact fun w hw hl => ⟨hw, hl, (List.append_nil _).symm⟩
  | cons p ps ih => exact sends_append (sends_low c p) ih

/-- A handshake write is one latch (R100, R101). -/
theorem sends_handshake {c : Cfg} (h : PinsOk c) (n : Nibble) : Sends c false [n] (handshakeEvents c n) :=
  sends_append (sends_append (sends_low c c.rs) (sends_nibble h n)) (sends_delay _)

/-- The nibbles of a byte in the order they are sent (R91). -/
def nibblesOf (b : Byte) : List Nibble := [hiNibble b, loNibble b]

/-- A command is its two nibbles (R93). -/
theorem sends_command {c : Cfg} (h : PinsOk c) (b : Byte) : Sends c false (nibblesOf b) (commandEvents c b) :=
  sends_append (sends_low c c.rs) (sends_append (sends_byte h b) (sends_delay _))

/-- The first write to RS sets the level of every latch after it, whatever pins were made Output before (R95). -/
theorem latches_selected {c : Cfg} (h : PinsOk c) {l : Level} {ns : List Nibble} {evs : List Event}
    (hs : Sends c l ns evs) (ps : List Nat) (out : BitVec 54) :
    (latches c out (ps.map (fun p => .fsel p .output) ++ .pin c.rs l :: evs)).map Latch.value = ns.map (l, ·) := by
  have hfsel : (Walk.start out).run c (ps.map fun p => .fsel p .output) = Walk.start out := by
    induction ps with
    | nil => rfl
    | cons p ps ih => exact ih
  rw [latches, run_append, hfsel, Walk.run, List.foldl_cons, next_line h.distinct.1.1]
  exact (hs _ rfl (getLsbD_setLatchBit_same _ _ _ h.rs)).2.2

/-- The nibbles `INIT` sends: the handshake, parts 5 and 6, the clear, the tail (R100 to R105). -/
def initNibbles (c : Cfg) (par : Params) (ctl : BitVec 3) : List Nibble :=
  let first := hiNibble (par.codes.func ||| par.codes.funcDl)
  [first, first, first, hiNibble par.codes.func] ++ (initBytes c par.codes ctl).flatMap nibblesOf ++
    nibblesOf par.codes.clear ++ par.initTail.flatMap nibblesOf

theorem latches_initTrace {c : Cfg} (h : PinsOk c) (par : Params) (ctl : BitVec 3) (out : BitVec 54) :
    (latches c out (initTrace c par ctl)).map Latch.value = (initNibbles c par ctl).map (false, ·) := by
  have hshake := sends_handshake h (hiNibble (par.codes.func ||| par.codes.funcDl))
  have hsetup := sends_append (sends_append (sends_append (sends_append
    (sends_lows c [c.strb, c.d0, c.d1, c.d2, c.d3]) hshake) hshake) hshake)
    (sends_handshake h (hiNibble par.codes.func))
  have hmodes := sends_append hsetup (sends_flatMap (sends_command h) (initBytes c par.codes ctl))
  have hclear := sends_append (sends_append hmodes (sends_command h par.codes.clear)) (sends_delay par.clearExtraUs)
  have htail := sends_append hclear (sends_flatMap (sends_command h) par.initTail)
  rw [List.append_nil] at htail
  exact latches_selected h htail (lcdPins c) out

/-! ### The result -/

theorem initBytes_two {c : Cfg} (h : c.rows = 2) : initBytes c Config.codes 0b000 = [0x28, 0x0C, 0x0C, 0x0C] := by
  rw [initBytes, h]
  rfl

theorem initBytes_one {c : Cfg} (h : c.rows = 1) : initBytes c Config.codes 0b000 = [0x0C, 0x0C, 0x0C] := by
  rw [initBytes, h]
  rfl

theorem initNibbles_default {c : Cfg} {ctl : BitVec 3} {modes : List Byte} (h : initBytes c Config.codes ctl = modes) :
    initNibbles c Config.defaultParams ctl = [3, 3, 3, 2] ++ modes.flatMap nibblesOf ++ [0, 1] ++ [0, 6, 1, 4] := by
  rw [← h]
  rfl

/-- Settles O35: the end state is read off the next state of `INIT`; counts and latches are those of the fixed parts and
of the bytes of parts 5 and 6, four for two rows and three for one. -/
theorem initEndStateAndCounts : Obligations.InitEndStateAndCounts := by
  intro s hs hpar hctl
  have hpins := startable_pins hs
  obtain ⟨t, hexec, htrace, hphase, hcx, hcy, htctl, hdriven, hout⟩ := exec_init_trace hs
  rw [hpar, hctl] at htrace htctl
  rw [hpar] at hout
  have hlines : t.out = nibbleLines s.cfg 0x4 (setLatchBit s.out s.cfg.rs false) := hout
  obtain ⟨hstrb, hdata, hrs⟩ := selectedLines_rest hpins 0x4 false s.out
  rw [← hlines] at hstrb hdata hrs
  have hcounts {modes : List Byte} (h : initBytes s.cfg Config.codes 0b000 = modes) := tally_initTrace h
  simp only [tally, Prod.mk.injEq] at hcounts
  have hlatches {modes : List Byte} (h : initBytes s.cfg Config.codes 0b000 = modes) :=
    initNibbles_default h ▸ latches_initTrace hpins Config.defaultParams 0b000 s.out
  refine ⟨t, initTrace s.cfg Config.defaultParams 0b000, hexec, htrace, hphase, hcx, hcy, htctl, hdriven, hrs, hstrb,
    hdata, (hcounts rfl).2.1, fun hrows => ?two, fun hrows => ?one⟩
  case two =>
    obtain ⟨hcost, -, hpin⟩ := hcounts (initBytes_two hrows)
    exact ⟨hcost, hpin, hlatches (initBytes_two hrows)⟩
  case one =>
    obtain ⟨hcost, -, hpin⟩ := hcounts (initBytes_one hrows)
    exact ⟨hcost, hpin, hlatches (initBytes_one hrows)⟩

end Sys2Proof.Machine
end

section
/-! O38, O39, O40: characters and the software cursor. A character with a column wrap is its data byte and then the
position command, brought together as one sending (R109); `POS` is that command or nothing (R114, R115). A text is
characters one after the other: what `n` of them leave is one relation, and it composes (R112, R113). -/

namespace Sys2Proof.Machine

open Sys2Proof.Spec

/-! ### The request words (R58) -/

theorem decode_putc_word (b : Byte) : decode (.request (0x4000 ||| b.zeroExtend 16)) = .ok (.putc b) := by
  revert b
  decide

/-- A request word with op 5 is `POS`, its column in the low byte and its row in the nibble above (R58). -/
theorem decode_pos_of_op {w : BitVec 16} (h : w.extractLsb' 12 4 = 5#4) :
    decode (.request w) = .ok (.pos (w.extractLsb' 0 8) (w.extractLsb' 8 4)) := by
  rw [decode, decodeWith, decodeRequest, h]
  rfl

/-- The three fields of the word of `POS c, r`, bit by bit. -/
theorem pos_word_fields (c : Byte) (r : BitVec 4) {w : BitVec 16}
    (h : w = 0x5000 ||| (r.zeroExtend 16 <<< 8) ||| c.zeroExtend 16) :
    w.extractLsb' 12 4 = 5#4 ∧ w.extractLsb' 8 4 = r ∧ w.extractLsb' 0 8 = c := by
  subst h
  refine ⟨?op, ?row, ?column⟩
  all_goals
    ext i hi
    interval_cases i <;> simp

theorem decode_pos_word (c : Byte) (r : BitVec 4) :
    decode (.request (0x5000 ||| (r.zeroExtend 16 <<< 8) ||| c.zeroExtend 16)) = .ok (.pos c r) := by
  obtain ⟨hop, hrow, hcol⟩ := pos_word_fields c r rfl
  rw [decode_pos_of_op hop, hrow, hcol]

/-! ### Positions (R109, R110, R115) -/

theorem outOfBounds_iff (c : Cfg) (x y : Nat) : outOfBounds c x y = true ↔ c.cols ≤ x ∨ c.rows ≤ y := by
  simp [outOfBounds]

/-- The row after `y`, the last row's next being row 0 (R109, R110). -/
theorem nextRow_eq_mod {y rows : Nat} (hy : y < rows) : (if y + 1 = rows then 0 else y + 1) = (y + 1) % rows := by
  split
  · simp [*]
  · rw [Nat.mod_eq_of_lt (by omega)]

/-! ### A character that wraps, in the spec's own events (R109) -/

/-- A data byte and a command after it are one sending; the lines rest as the command leaves them (R96, R109). -/
theorem commanded_written {s : State} (h : PinsOk s.cfg) (b v : Byte) :
    (s.written b).commanded v = s.sent (dataEvents s.cfg b ++ commandEvents s.cfg v)
      (commandLines s.cfg (v.extractLsb' 0 4) s.out)
      (byteInputs s.allDriven true b ++ commandInputs s.allDriven v) := by
  have hlines : commandLines s.cfg (loNibble v) (s.written b).out = commandLines s.cfg (loNibble v) s.out :=
    lines_again h _ _ _ _ _
  calc (s.written b).commanded v
    _ = (s.written b).sent (commandEvents s.cfg v) (commandLines s.cfg (loNibble v) (s.written b).out)
          (commandInputs s.allDriven v) := rfl
    _ = _ := by rw [hlines]; exact sent_sent ..

/-- A character that ends its row is followed by the position command of the next row's start (R109). -/
theorem exec_putc_wrap_sent {s : State} (h : InGrid s) (b : Byte) (hx : s.cx + 1 = s.cfg.cols) {y : Nat}
    (hy : y = if s.cy + 1 = s.cfg.rows then 0 else s.cy + 1) :
    exec (.putc b) s = .next (done (State.sent
      (dataEvents s.cfg b ++ commandEvents s.cfg (addressByte s.par.codes 0 y))
      (commandLines s.cfg ((addressByte s.par.codes 0 y).extractLsb' 0 4) s.out)
      (byteInputs s.allDriven true b ++ commandInputs s.allDriven (addressByte s.par.codes 0 y))
      { s with cx := 0, cy := y })) := by
  obtain ⟨hs, -, hrow⟩ := h
  refine (execPutc_wrap hs b hx hrow).trans ?_
  rw [← hy]
  exact congrArg Host.Outcome.next
    (commanded_written (s := { s with cx := 0, cy := y, resp := some (.done none) }) (operable_pins hs) ..)

/-! ### A text as one relation (R112, R113) -/

/-- What a text of `n` characters makes of a state in the grid, as far as R112 and R113 say it. -/
structure Typed (n : Nat) (s t : State) : Prop where
  grid : InGrid t
  cfg : t.cfg = s.cfg
  column : t.cx = (s.cx + n) % s.cfg.cols
  row : t.cy = (s.cy + (s.cx + n) / s.cfg.cols) % s.cfg.rows
  ctl : t.ctl = s.ctl
  fsel : t.fsel = s.fsel
  sent : ∃ evs, t.trace = s.trace ++ evs ∧ evs.length = 17 * n + 18 * ((s.cx + n) / s.cfg.cols)

theorem Typed.refl {s : State} (h : InGrid s) : Typed 0 s s where
  grid := h
  cfg := rfl
  column := (Nat.mod_eq_of_lt h.2.1).symm
  row := by rw [Nat.add_zero, Nat.div_eq_of_lt h.2.1]; exact (Nat.mod_eq_of_lt h.2.2).symm
  ctl := rfl
  fsel := rfl
  sent := ⟨[], (List.append_nil _).symm, by rw [Nat.add_zero, Nat.div_eq_of_lt h.2.1]; rfl⟩

/-- The wraps of two stretches add up: the second counts from where the first left the column. -/
theorem wraps_add (x m n cols : Nat) : (x + (m + n)) / cols = (x + m) / cols + ((x + m) % cols + n) / cols := by
  rcases Nat.eq_zero_or_pos cols with rfl | hpos
  · simp
  · conv_lhs => rw [← Nat.add_assoc, ← Nat.div_add_mod (x + m) cols, Nat.add_assoc, Nat.mul_add_div hpos]

theorem Typed.trans {m n : Nat} {s t u : State} (a : Typed m s t) (b : Typed n t u) : Typed (m + n) s u where
  grid := b.grid
  cfg := b.cfg.trans a.cfg
  column := by rw [b.column, a.cfg, a.column, Nat.mod_add_mod, Nat.add_assoc]
  row := by rw [b.row, a.cfg, a.row, a.column, Nat.mod_add_mod, Nat.add_assoc, ← wraps_add]
  ctl := b.ctl.trans a.ctl
  fsel := b.fsel.trans a.fsel
  sent := by
    obtain ⟨as, ha, hla⟩ := a.sent
    obtain ⟨bs, hb, hlb⟩ := b.sent
    rw [a.cfg, a.column] at hlb
    refine ⟨as ++ bs, by rw [hb, ha, List.append_assoc], ?_⟩
    rw [List.length_append, hla, hlb, wraps_add]
    omega

/-- One character is a text of length one, the wrap being the case that column `COLS` is reached (R109, R112). -/
theorem exec_putc_typed {s : State} (h : InGrid s) (b : Byte) : ∃ t, exec (.putc b) s = .next t ∧ Typed 1 s t := by
  obtain ⟨hs, hcol, hrow⟩ := h
  by_cases hx : s.cx + 1 = s.cfg.cols
  · have hwraps : (s.cx + 1) / s.cfg.cols = 1 := by rw [hx]; exact Nat.div_self (by omega)
    refine ⟨_, exec_putc_wrap_sent ⟨hs, hcol, hrow⟩ b hx rfl, ⟨hs, ?colIn, ?rowIn⟩, rfl, ?col, ?row, rfl, rfl, _, rfl,
      ?count⟩
    case colIn => exact Nat.zero_lt_of_lt hcol
    case rowIn => exact (nextRow_eq_mod hrow).trans_lt (Nat.mod_lt _ (Nat.zero_lt_of_lt hrow))
    case col => rw [hx, Nat.mod_self]; rfl
    case row => rw [hwraps]; exact nextRow_eq_mod hrow
    case count => rw [hwraps]; rfl
  · have hlt : s.cx + 1 < s.cfg.cols := by omega
    have hwraps : (s.cx + 1) / s.cfg.cols = 0 := Nat.div_eq_of_lt hlt
    refine ⟨_, exec_putc_sent hs b hx, ⟨hs, hlt, hrow⟩, rfl, ?col, ?row, rfl, rfl, _, rfl, ?count⟩
    case col => exact (Nat.mod_eq_of_lt hlt).symm
    case row => rw [hwraps]; exact (Nat.mod_eq_of_lt hrow).symm
    case count => rw [hwraps]; rfl

/-- A text is typed whole, character after character (R74, R112, R113). -/
theorem execAll_puts_typed (text : List Byte) {s : State} (h : InGrid s) :
    ∃ t, execAll (Instr.puts text) s = .next t ∧ Typed text.length s t ∧ (text = [] → t = s) := by
  induction text generalizing s with
  | nil => exact ⟨s, rfl, Typed.refl h, fun _ => rfl⟩
  | cons b text ih =>
    obtain ⟨t, ht, hone⟩ := exec_putc_typed h b
    obtain ⟨u, hu, hrest, -⟩ := ih hone.grid
    refine ⟨u, (execAll_cons_next ht _).trans hu, ?_, nofun⟩
    rw [List.length_cons, Nat.add_comm]
    exact hone.trans hrest

/-! ### The results -/

/-- Settles O39: the text is typed character by character, and what that leaves is in the relation `Typed`. -/
theorem stringWraps : Obligations.StringWraps := by
  intro text s hs
  obtain ⟨t, ht, hx, hempty⟩ := execAll_puts_typed text hs
  obtain ⟨evs, htrace, hlength⟩ := hx.sent
  obtain ⟨⟨-, hphase, -⟩, -⟩ := hx.grid
  exact ⟨t, evs, ht, htrace, hx.column, hx.row, hlength, hx.ctl, hphase, hx.fsel, hempty⟩

/-- Settles O38: a character without a wrap is its data byte; with one, the position command follows. -/
theorem putcResult : Obligations.PutcResult := fun b =>
  ⟨requested_of_checks (acts := fun s => writeChar s.par.codes s.cfg s.cx s.cy b ++ [.finish]) (decode_putc_word b)
    fun _ => rfl,
   fun _ hs => ⟨exec_putc_sent hs.1 b, fun hx _ hy => exec_putc_wrap_sent hs b hx hy⟩⟩

/-- Settles O40: the bounds check of R115 decides between the position command and nothing. -/
theorem posResult : Obligations.PosResult := by
  intro c r
  refine ⟨requested_of_checks (acts := fun s => setPosition s.par.codes s.cfg c.toNat r.toNat ++ [.finish])
    (decode_pos_word c r) fun _ => rfl, fun s hs => ⟨fun hc hr => ?inside, fun hout => ?outside⟩⟩
  case inside =>
    exact execPos_inside hs c r (Bool.eq_false_iff.2 fun h => by rw [outOfBounds_iff] at h; omega)
  case outside => exact execPos_outside hs c r ((outOfBounds_iff ..).2 hout)

end Sys2Proof.Machine
end

section
/-! O44: `DISP`, `CURS` and `BLINK` are independent (R127). A toggle is one assignment to a bit of `CTL` and leaves a
state in which the next one can run, so a list of toggles is the composition of its assignments; assignments to
different bits commute. -/

namespace Sys2Proof.Machine

open Sys2Proof.Spec

/-! ### One assignment to `CTL` (R123) -/

/-- The bits of the mask take the operand, every other bit keeps its value. -/
theorem getLsbD_setCtlBit (mask : BitVec 3) (e : Bool) (ctl : BitVec 3) (i : Nat) :
    (setCtlBit mask e ctl).getLsbD i = if mask.getLsbD i then e else ctl.getLsbD i := by
  cases e with
  | true => cases hi : mask.getLsbD i <;> simp [setCtlBit, hi]
  | false =>
    cases hi : mask.getLsbD i
    · have hwidth : ctl.getLsbD i = true → i < 3 := BitVec.lt_of_getLsbD
      simpa [setCtlBit, hi] using hwidth
    · simp [setCtlBit, hi]

/-- Assignments under masks with no bit in common commute. -/
theorem setCtlBit_comm {m n : BitVec 3} (h : m &&& n = 0#3) (a b : Bool) (ctl : BitVec 3) :
    setCtlBit n b (setCtlBit m a ctl) = setCtlBit m a (setCtlBit n b ctl) := by
  refine BitVec.eq_of_getLsbD_eq fun i _ => ?_
  have hi : (m.getLsbD i && n.getLsbD i) = false := by rw [← BitVec.getLsbD_and, h, BitVec.getLsbD_zero]
  simp only [getLsbD_setCtlBit]
  cases hm : m.getLsbD i with
  | false => rfl
  | true =>
    rw [hm, Bool.true_and] at hi
    rw [hi]
    rfl

/-! ### The toggles under the flags of R8 (log 12) -/

/-- The state `t` can take the next toggle, and its `CTL` is `ctl`. -/
structure Controlled (ctl : BitVec 3) (t : State) : Prop where
  operable : Operable t
  standard : Standard t
  ctl_eq : t.ctl = ctl

/-- The operation sets the bits of `mask` in `CTL` to `e`. -/
def Toggles (i : Instr) (mask : BitVec 3) (e : Bool) : Prop :=
  ∀ s : State, Operable s → Standard s → ∃ t, exec i s = .next t ∧ Controlled (setCtlBit mask e s.ctl) t

theorem toggles_disp (d : Bool) : Toggles (.disp d) 0b100 d := fun _ hs hk =>
  ⟨_, execDisp_eq hs d, hs, hk, by rw [hk]; rfl⟩

theorem toggles_curs (c : Bool) : Toggles (.curs c) 0b010 c := fun _ hs hk =>
  ⟨_, execCurs_eq hs c, hs, hk, by rw [hk]; rfl⟩

theorem toggles_blink (b : Bool) : Toggles (.blink b) 0b001 b := fun _ hs hk =>
  ⟨_, execBlink_eq hs b, hs, hk, by rw [hk]; rfl⟩

/-! ### Toggles one after the other -/

/-- The operations, one after the other, change `CTL` by `f`. -/
def Controls (ops : List Instr) (f : BitVec 3 → BitVec 3) : Prop :=
  ∀ s : State, Operable s → Standard s → ∃ t, execAll ops s = .next t ∧ Controlled (f s.ctl) t

theorem controls_nil : Controls [] id := fun s hs hk => ⟨s, rfl, hs, hk, rfl⟩

theorem Toggles.cons {i : Instr} {mask : BitVec 3} {e : Bool} {ops : List Instr} {f : BitVec 3 → BitVec 3}
    (hi : Toggles i mask e) (hops : Controls ops f) : Controls (i :: ops) (f ∘ setCtlBit mask e) := by
  intro s hs hk
  obtain ⟨t, ht, hmid⟩ := hi s hs hk
  obtain ⟨u, hu, hend⟩ := hops t hmid.operable hmid.standard
  rw [hmid.ctl_eq] at hend
  exact ⟨u, (execAll_cons_next ht ops).trans hu, hend⟩

/-- Two toggles of different bits leave the same `CTL` in either order. -/
theorem Toggles.commute {i j : Instr} {m n : BitVec 3} {a b : Bool} (hi : Toggles i m a) (hj : Toggles j n b)
    (h : m &&& n = 0#3) {s : State} (hs : Operable s) (hk : Standard s) :
    ∃ t u, execAll [i, j] s = .next t ∧ execAll [j, i] s = .next u ∧ t.ctl = u.ctl := by
  obtain ⟨t, ht, hij⟩ := hi.cons (hj.cons controls_nil) s hs hk
  obtain ⟨u, hu, hji⟩ := hj.cons (hi.cons controls_nil) s hs hk
  refine ⟨t, u, ht, hu, ?_⟩
  calc t.ctl = setCtlBit n b (setCtlBit m a s.ctl) := hij.ctl_eq
    _ = setCtlBit m a (setCtlBit n b s.ctl) := setCtlBit_comm h a b s.ctl
    _ = u.ctl := hji.ctl_eq.symm

/-- A toggle completes, and each bit of `CTL` is the operand or as before. -/
theorem Toggles.bits {i : Instr} {mask : BitVec 3} {e : Bool} (hi : Toggles i mask e) {s : State} (hs : Operable s)
    (hk : Standard s) : ∃ t, exec i s = .next t ∧
      ∀ k, t.ctl.getLsbD k = if mask.getLsbD k then e else s.ctl.getLsbD k := by
  obtain ⟨t, ht, hend⟩ := hi s hs hk
  exact ⟨t, ht, fun k => by rw [hend.ctl_eq, getLsbD_setCtlBit]⟩

/-! ### The result -/

/-- Settles O44: the three masks have no bit in common, so each toggle keeps the others' bits and any two commute. -/
theorem attributesIndependent : Obligations.AttributesIndependent := by
  intro d c b s hs hk
  refine ⟨?disp, ?curs, ?blink, ?commute, ?survives⟩
  case disp =>
    obtain ⟨t, ht, hbit⟩ := (toggles_disp d).bits hs hk
    exact ⟨t, ht, hbit 2, hbit 1, hbit 0⟩
  case curs =>
    obtain ⟨t, ht, hbit⟩ := (toggles_curs c).bits hs hk
    exact ⟨t, ht, hbit 2, hbit 1, hbit 0⟩
  case blink =>
    obtain ⟨t, ht, hbit⟩ := (toggles_blink b).bits hs hk
    exact ⟨t, ht, hbit 2, hbit 1, hbit 0⟩
  case commute =>
    simp only [List.forall_mem_cons]
    exact ⟨(toggles_disp d).commute (toggles_curs c) rfl hs hk, (toggles_disp d).commute (toggles_blink b) rfl hs hk,
      (toggles_curs c).commute (toggles_blink b) rfl hs hk, nofun⟩
  case survives =>
    intro hctl
    obtain ⟨t, ht, hend⟩ :=
      (toggles_blink true).cons ((toggles_disp false).cons ((toggles_disp true).cons controls_nil)) s hs hk
    rw [hctl] at hend
    exact ⟨t, ht, hend.ctl_eq⟩

end Sys2Proof.Machine
end

section
/-! O55: what the driver does never depends on the receiver (R162). Two runs whose states differ in the receiver only
stay so: an item uses the receiver only to update it, and what the receiver leaves behind when it catches up, a
completed byte on the wire included, is gone before the driver goes on (`settle_eq`). A request chooses its branch and
its items by the other fields. -/

namespace Sys2Proof.Machine

/-! ### Runs that agree but for the receiver (R162) -/

/-- If the run `o` goes on, `o'` goes on to the same state with some receiver. -/
def AgreesButRx (o o' : Outcome) : Prop := ∀ t, o = .next t → ∃ r', o' = .next { t with rx := r' }

/-- The operation goes on alike under any other receiver. -/
def RxBlind (f : State → Outcome) : Prop := ∀ (s : State) (r : Receiver), AgreesButRx (f s) (f { s with rx := r })

theorem agreesButRx_next (t : State) (r : Receiver) : AgreesButRx (.next t) (.next { t with rx := r }) := by
  rintro _ ⟨⟩
  exact ⟨r, rfl⟩

theorem AgreesButRx.ite {c : Prop} [Decidable c] {a a' b b' : Outcome} (ha : AgreesButRx a a')
    (hb : AgreesButRx b b') : AgreesButRx (if c then a else b) (if c then a' else b') := by
  split
  · exact ha
  · exact hb

theorem AgreesButRx.andThen {o o' : Outcome} {k : State → Outcome} (ho : AgreesButRx o o') (hk : RxBlind k) :
    AgreesButRx (andThen o k) (andThen o' k) := by
  intro t h
  obtain ⟨u, hu, h⟩ := andThen_eq_next h
  obtain ⟨r, hr⟩ := ho u hu
  rw [hr, andThen_next]
  exact hk u r t h

/-! ### Items and lists of items (R12, R20) -/

/-- Catching up leaves nothing on the wire, so it leaves the same but for the receiver. -/
theorem settle_with_rx (s : State) (r : Receiver) : ∃ r', settle { s with rx := r } = { settle s with rx := r' } := by
  refine ⟨(settle { s with rx := r }).rx, ?_⟩
  rw [settle_eq, settle_eq s]

theorem rxBlind_perform (a : Action) : RxBlind (perform a) := by
  intro s r
  cases a with
  | setFn p m =>
    intro t h
    have hp := pin_lt_of_guard h
    rw [perform, setPinFunction_eq _ _ _ hp] at h ⊢
    exact agreesButRx_next _ _ t h
  | writePin p l =>
    intro t h
    have hp := pin_lt_of_guard h
    rw [perform, writePinLevel_eq _ _ _ hp] at h ⊢
    exact agreesButRx_next _ _ t h
  | readPin p =>
    intro t h
    have hp := pin_lt_of_guard h
    rw [perform, readPinLevel_eq _ _ hp] at h ⊢
    exact agreesButRx_next _ _ t h
  | delay n | record | cursor x y | control c | phase ph | finish => exact agreesButRx_next _ _

theorem rxBlind_drain (acts : List Action) : RxBlind (drain acts) := by
  induction acts with
  | nil =>
    intro s r
    obtain ⟨r', hr⟩ := settle_with_rx s r
    rw [drain, drain, hr]
    exact agreesButRx_next _ _
  | cons a rest ih =>
    intro s r
    obtain ⟨r', hr⟩ := settle_with_rx s r
    rw [drain, drain, hr]
    exact (rxBlind_perform a _ r').andThen ih

theorem rxBlind_operate (acts : List Action) : RxBlind (operate acts) := fun s r =>
  rxBlind_drain acts { s with resp := none } r

/-! ### Requests (R158, R161, R164) -/

theorem rxBlind_turnAway (why : Reason) : RxBlind (turnAway why) := fun _ _ => agreesButRx_next _ _

theorem rxBlind_goFatal (code : FatalCode) : RxBlind (goFatal code) := fun _ _ => agreesButRx_next _ _

theorem rxBlind_request (admits : Phase → Bool) {body : State → Outcome} (hb : RxBlind body) :
    RxBlind (request admits body) := fun s r =>
  .ite (rxBlind_turnAway .busy s r) (.ite (rxBlind_turnAway .wrongPhase s r) (hb s r))

theorem rxBlind_onPin (p : BitVec 6) {body : State → Outcome} (hb : RxBlind body) : RxBlind (onPin p body) :=
  fun s r => .ite (rxBlind_turnAway .badPin s r) (hb s r)

/-- A display operation: its items are fixed before it runs (R57). -/
theorem rxBlind_display (acts : List Action) : RxBlind (request whenReady (operate acts)) :=
  rxBlind_request whenReady (rxBlind_operate acts)

/-- A pin operation (R80). -/
theorem rxBlind_pin (p : BitVec 6) (acts : List Action) : RxBlind (request unlessFatal (onPin p (operate acts))) :=
  rxBlind_request unlessFatal (rxBlind_onPin p (rxBlind_operate acts))

theorem rxBlind_execInit : RxBlind execInit :=
  rxBlind_request whenUninitialized fun s r =>
    .ite (rxBlind_turnAway .badConfig s r) (.ite (rxBlind_goFatal .allocFail s r) (rxBlind_operate _ s r))

/-- Every host operation computes its items from fields other than the receiver. -/
theorem rxBlind_exec {i : Instr} (hi : isHost i = true) : RxBlind (exec i) := by
  intro s r
  cases i with
  | init => exact rxBlind_execInit s r
  | cmd _ | npair _ | nibc _ | putc _ | pos _ _ | clear | home | disp _ | curs _ | blink _ =>
    exact rxBlind_display _ s r
  | pinf p _ | pinw p _ | pinr p => exact rxBlind_pin p _ s r
  | lcdClear | lcdHome | lcdEntry _ _ | lcdCtrl _ _ _ | lcdCdshift _ _ | lcdFunc _ _ _ | lcdDdram _
  | lcdData _ | lcdFunc8Nibble | lcdFunc4Nibble => cases hi

theorem rxBlind_present (w : BitVec 16) : RxBlind (present w) := by
  intro s r
  refine .ite (rxBlind_turnAway .busy s r) ?_
  split
  case h_1 i hd => exact rxBlind_exec (decodeRequest_isHost (decode_request hd)) s r
  case h_2 => exact rxBlind_turnAway .reservedRequest s r

/-! ### The result -/

/-- Settles O55: a request word is a refusal or a host operation, and both go on alike under any receiver. -/
theorem driverIgnoresReceiver : Obligations.DriverIgnoresReceiver := fun w r s t h => rxBlind_present w s r t h

end Sys2Proof.Machine
end

section
/-! O7, O8, O9, O10, O11, O12: the encodings. A request word is its operation nibble and its operand fields, joined; so
a word whose fixed fields are a row's is the encoding of that row's instruction, and decoding needs to be computed for
encodings only. -/

namespace Sys2Proof.Machine

open Sys2Proof.Spec

/-! ### A request word put together from its fields (R56, R58) -/

section
variable {w : BitVec 16} {op : BitVec 4}

theorem word_of_low (hop : w.extractLsb' 12 4 = op) (hlow : w.extractLsb' 0 12 = 0#12) : op ++ 0#12 = w := by
  rw [← hop, ← hlow]
  simp only [BitVec.extractLsb'_append_extractLsb'_eq_extractLsb', BitVec.extractLsb'_eq_self]

theorem word_of_pos (hop : w.extractLsb' 12 4 = op) : op ++ w.extractLsb' 8 4 ++ w.extractLsb' 0 8 = w := by
  rw [← hop]
  simp only [BitVec.extractLsb'_append_extractLsb'_eq_extractLsb', BitVec.extractLsb'_eq_self]

theorem word_of_byte (hop : w.extractLsb' 12 4 = op) (hmid : w.extractLsb' 8 4 = 0#4) :
    op ++ 0#4 ++ w.extractLsb' 0 8 = w := by
  rw [← hmid, word_of_pos hop]

theorem word_of_nibble (hop : w.extractLsb' 12 4 = op) (hmid : w.extractLsb' 4 8 = 0#8) :
    op ++ 0#8 ++ w.extractLsb' 0 4 = w := by
  rw [← hop, ← hmid]
  simp only [BitVec.extractLsb'_append_extractLsb'_eq_extractLsb', BitVec.extractLsb'_eq_self]

theorem bit1_getLsbD (v : BitVec 16) (k : Nat) : bit1 (v.getLsbD k) = v.extractLsb' k 1 := by
  refine BitVec.eq_of_getLsbD_eq fun i hi => ?_
  obtain rfl : i = 0 := by omega
  simp [bit1]

theorem word_of_flag (hop : w.extractLsb' 12 4 = op) (hmid : w.extractLsb' 1 11 = 0#11) :
    op ++ 0#11 ++ bit1 (w.getLsbD 0) = w := by
  rw [← hop, ← hmid, bit1_getLsbD]
  simp only [BitVec.extractLsb'_append_extractLsb'_eq_extractLsb', BitVec.extractLsb'_eq_self]

theorem word_of_pin (hop : w.extractLsb' 12 4 = op) (h9 : w.extractLsb' 9 3 = 0#3) (h6 : w.extractLsb' 6 2 = 0#2) :
    op ++ 0#3 ++ bit1 (w.getLsbD 8) ++ 0#2 ++ w.extractLsb' 0 6 = w := by
  rw [← hop, ← h9, ← h6, bit1_getLsbD]
  simp only [BitVec.extractLsb'_append_extractLsb'_eq_extractLsb', BitVec.extractLsb'_eq_self]

theorem word_of_read (hop : w.extractLsb' 12 4 = op) (hmid : w.extractLsb' 6 6 = 0#6) :
    op ++ 0#6 ++ w.extractLsb' 0 6 = w := by
  rw [← hop, ← hmid]
  simp only [BitVec.extractLsb'_append_extractLsb'_eq_extractLsb', BitVec.extractLsb'_eq_self]

end

/-! ### The encoder, field by field (R58) -/

theorem encode_init : encode .init = .request (0#4 ++ 0#12) := rfl
theorem encode_clear : encode .clear = .request (6#4 ++ 0#12) := rfl
theorem encode_home : encode .home = .request (7#4 ++ 0#12) := rfl
theorem encode_cmd (b : Byte) : encode (.cmd b) = .request (1#4 ++ 0#4 ++ b) := rfl
theorem encode_npair (b : Byte) : encode (.npair b) = .request (2#4 ++ 0#4 ++ b) := rfl
theorem encode_nibc (n : Nibble) : encode (.nibc n) = .request (3#4 ++ 0#8 ++ n) := rfl
theorem encode_putc (b : Byte) : encode (.putc b) = .request (4#4 ++ 0#4 ++ b) := rfl
theorem encode_pos (c : Byte) (r : BitVec 4) : encode (.pos c r) = .request (5#4 ++ r ++ c) := rfl
theorem encode_disp (e : Bool) : encode (.disp e) = .request (8#4 ++ 0#11 ++ bit1 e) := rfl
theorem encode_curs (e : Bool) : encode (.curs e) = .request (9#4 ++ 0#11 ++ bit1 e) := rfl
theorem encode_blink (e : Bool) : encode (.blink e) = .request (10#4 ++ 0#11 ++ bit1 e) := rfl
theorem encode_pinf (p : BitVec 6) (m : PinFn) :
    encode (.pinf p m) = .request (11#4 ++ 0#3 ++ bit1 m.bit ++ 0#2 ++ p) := rfl
theorem encode_pinw (p : BitVec 6) (l : Level) :
    encode (.pinw p l) = .request (12#4 ++ 0#3 ++ bit1 l ++ 0#2 ++ p) := rfl
theorem encode_pinr (p : BitVec 6) : encode (.pinr p) = .request (13#4 ++ 0#6 ++ p) := rfl

@[simp] theorem bit_ofBit (b : Bool) : (PinFn.ofBit b).bit = b := by cases b <;> rfl

theorem eq_ofNat_of_toNat {n k : Nat} {x : BitVec n} (h : x.toNat = k) : x = BitVec.ofNat n k := by
  rw [← h, BitVec.ofNat_toNat, BitVec.setWidth_eq]

/-- What decodes to an instruction is the word of its fields (R58). -/
theorem encode_of_decodeRequest {w : BitVec 16} {i : Instr} (h : decodeRequest w = some i) :
    encode i = .request w := by
  unfold decodeRequest at h
  dsimp only at h
  split at h
  case h_6 hop =>
    cases h
    rw [encode_pos, word_of_pos (eq_ofNat_of_toNat hop)]
  case h_15 => cases h
  all_goals
    rename_i hop
    replace hop := eq_ofNat_of_toNat hop
    obtain ⟨hzero, ⟨⟩⟩ := Option.ite_none_right_eq_some.1 h
  case h_1 => rw [encode_init, word_of_low hop hzero]
  case h_2 => rw [encode_cmd, word_of_byte hop hzero]
  case h_3 => rw [encode_npair, word_of_byte hop hzero]
  case h_4 => rw [encode_nibc, word_of_nibble hop hzero]
  case h_5 => rw [encode_putc, word_of_byte hop hzero]
  case h_7 => rw [encode_clear, word_of_low hop hzero]
  case h_8 => rw [encode_home, word_of_low hop hzero]
  case h_9 => rw [encode_disp, word_of_flag hop hzero]
  case h_10 => rw [encode_curs, word_of_flag hop hzero]
  case h_11 => rw [encode_blink, word_of_flag hop hzero]
  case h_12 => rw [encode_pinf, bit_ofBit, word_of_pin hop hzero.1 hzero.2]
  case h_13 => rw [encode_pinw, word_of_pin hop hzero.1 hzero.2]
  case h_14 => rw [encode_pinr, word_of_read hop hzero]

/-! ### Decoding an encoding (R58, R65) -/

/-- The three fields of a word put together from an operation, a nibble and a byte. -/
theorem fields_append (op mid : BitVec 4) (b : Byte) :
    (op ++ mid ++ b).extractLsb' 12 4 = op ∧ (op ++ mid ++ b).extractLsb' 8 4 = mid ∧
      (op ++ mid ++ b).extractLsb' 0 8 = b := by
  refine ⟨?op, ?mid, BitVec.extractLsb'_append_eq_right⟩
  case op => rw [BitVec.extractLsb'_append_eq_of_le (by decide)]; exact BitVec.extractLsb'_append_eq_left
  case mid => rw [BitVec.extractLsb'_append_eq_of_le (by decide)]; exact BitVec.extractLsb'_append_eq_right

/-- Every instruction is decoded from its own encoding, ill-formed pin numbers among them. -/
theorem decode_encode (i : Instr) : decode (encode i) = .ok i := by
  cases i with
  | init | clear | home => rfl
  | cmd b =>
    obtain ⟨hop, hzero, hb⟩ := fields_append 1#4 0#4 b
    rw [encode_cmd, decode, decodeWith, decodeRequest, hop, hzero, hb]
    rfl
  | npair b =>
    obtain ⟨hop, hzero, hb⟩ := fields_append 2#4 0#4 b
    rw [encode_npair, decode, decodeWith, decodeRequest, hop, hzero, hb]
    rfl
  | putc b =>
    obtain ⟨hop, hzero, hb⟩ := fields_append 4#4 0#4 b
    rw [encode_putc, decode, decodeWith, decodeRequest, hop, hzero, hb]
    rfl
  | nibc n => revert n; decide
  | pos c r =>
    obtain ⟨hop, hrow, hcol⟩ := fields_append 5#4 r c
    rw [encode_pos, decode_pos_of_op hop, hrow, hcol]
  | disp e | curs e | blink e => cases e <;> rfl
  | pinf p m => revert p; cases m <;> decide
  | pinw p l => revert p; cases l <;> decide
  | pinr p => revert p; decide
  | lcdClear | lcdHome | lcdData _ | lcdFunc8Nibble | lcdFunc4Nibble => rfl
  | lcdEntry i h => revert i h; decide
  | lcdCtrl d c b => revert d c b; decide
  | lcdCdshift sc rl => revert sc rl; decide
  | lcdFunc dl n f => revert dl n f; decide
  | lcdDdram a => revert a; decide

/-- Encoding a decoded command byte gives the byte back (R65). -/
theorem encode_of_decodeCommand {v : Byte} {i : Instr} (h : decodeCommand v = some i) : encode i = .command v := by
  have hall : ∀ v : Byte, (decodeCommand v).all fun i => encode i == .command v := by decide
  have hv := hall v
  rw [h] at hv
  exact eq_of_beq hv

/-- Encoding a decoded handshake nibble gives the nibble back (R100, R101). -/
theorem encode_of_decodeNibble {n : Nibble} {i : Instr} (h : decodeNibble n = some i) : encode i = .nibble n := by
  unfold decodeNibble at h
  split at h
  · cases h; subst_vars; rfl
  · split at h
    · cases h; subst_vars; rfl
    · cases h

theorem orReject_eq_ok {why : Reject} {o : Option Instr} {i : Instr} (h : orReject why o = .ok i) : o = some i := by
  cases o with
  | none => cases h
  | some j => cases h; rfl

/-- No word has two meanings. -/
theorem encode_decode {c : Code} {i : Instr} (h : decode c = .ok i) : encode i = c := by
  cases c with
  | request w => exact encode_of_decodeRequest (orReject_eq_ok h)
  | command v => exact encode_of_decodeCommand (orReject_eq_ok h)
  | data v => cases h; rfl
  | nibble n => exact encode_of_decodeNibble (orReject_eq_ok h)

/-! ### Rows (R58) -/

/-- Where the mask is all ones, the field of a word that matches is the field of the pattern. -/
theorem field_of_masked {n : Nat} {w m p : BitVec n} (h : w &&& m = p) {start len : Nat} {f : BitVec len}
    (hm : m.extractLsb' start len = BitVec.allOnes len) (hp : p.extractLsb' start len = f) :
    w.extractLsb' start len = f := by
  rw [← hp, ← h, BitVec.extractLsb'_and, hm, BitVec.and_allOnes]

/-- The encoding of an instruction lies in its row. -/
theorem encode_row (i : Instr) : (encode i).bits &&& i.row.mask = i.row.pattern := by
  open Laws.EncodeMatchesRow in
  cases i with
  | init => exact init
  | cmd b => exact cmd b
  | npair b => exact npair b
  | nibc n => exact nibc n
  | putc b => exact putc b
  | pos c r => exact pos c r
  | clear => exact clear
  | home => exact home
  | disp e => exact disp e
  | curs e => exact curs e
  | blink e => exact blink e
  | pinf p m => exact pinf p m
  | pinw p l => exact pinw p l
  | pinr p => exact pinr p
  | lcdClear => exact lcdClear
  | lcdHome => exact lcdHome
  | lcdEntry id sh => exact lcdEntry id sh
  | lcdCtrl d c b => exact lcdCtrl d c b
  | lcdCdshift sc rl => exact lcdCdshift sc rl
  | lcdFunc dl n f => exact lcdFunc dl n f
  | lcdDdram a => exact lcdDdram a
  | lcdData v => exact lcdData v
  | lcdFunc8Nibble => exact lcdFunc8Nibble
  | lcdFunc4Nibble => exact lcdFunc4Nibble

/-- The row of a host operation is one of the request table's. -/
theorem row_mem_requestRows {i : Instr} (h : isHost i = true) : (i.row.pattern, i.row.mask) ∈ requestRows := by
  cases i with
  | init | cmd _ | npair _ | nibc _ | putc _ | pos _ _ | clear | home | disp _ | curs _ | blink _ | pinf _ _
  | pinw _ _ | pinr _ => simp [Instr.row, requestRows]
  | lcdClear | lcdHome | lcdEntry _ _ | lcdCtrl _ _ _ | lcdCdshift _ _ | lcdFunc _ _ _ | lcdDdram _
  | lcdData _ | lcdFunc8Nibble | lcdFunc4Nibble => cases h

/-- A word of no row is reserved (R59). -/
theorem decode_reserved {w : BitVec 16} (h : ∀ row ∈ requestRows, w &&& row.2 ≠ row.1) :
    decode (.request w) = .error .reservedRequest := by
  cases hd : decodeRequest w with
  | none => rw [decode, decodeWith, hd]; rfl
  | some i =>
    have hrow := encode_row i
    rw [encode_of_decodeRequest hd] at hrow
    exact absurd hrow (h _ (row_mem_requestRows (decodeRequest_isHost hd)))

/-- No word matches two rows: their patterns differ under the bits both masks fix. -/
theorem requestRows_disjoint : requestRows.Pairwise fun a b => a.1 &&& b.2 ≠ b.1 &&& a.2 := by decide

/-- A word lies in at most one row (R58). -/
theorem matching_rows_le_one (w : BitVec 16) :
    (requestRows.filter fun row => w &&& row.2 == row.1).length ≤ 1 := by
  have hpair := requestRows_disjoint.filter fun row => w &&& row.2 == row.1
  have hmatch : ∀ row ∈ requestRows.filter fun row => w &&& row.2 == row.1, w &&& row.2 = row.1 :=
    fun row h => eq_of_beq (List.mem_filter.1 h).2
  generalize requestRows.filter (fun row => w &&& row.2 == row.1) = rows at hpair hmatch ⊢
  match rows with
  | [] => exact Nat.zero_le 1
  | [_] => exact Nat.le_refl 1
  | a :: b :: rest =>
    have ha : w &&& a.2 = a.1 := hmatch a (by simp)
    have hb : w &&& b.2 = b.1 := hmatch b (by simp)
    refine absurd ?_ ((List.pairwise_cons.1 hpair).1 b (by simp))
    rw [← ha, ← hb, BitVec.and_assoc, BitVec.and_assoc, BitVec.and_comm a.2]

/-- A word that is an instruction's encoding decodes to it. -/
theorem decode_of_encode {w : BitVec 16} {i : Instr} (h : encode i = .request w) : decode (.request w) = .ok i :=
  h ▸ decode_encode i

/-! ### The results -/

/-- Settles O9: instruction by instruction, the fields of the word are the operands. -/
theorem decodeOfEncode : Obligations.DecodeOfEncode := decode_encode

/-- Settles O10: a request word that decodes is put together from its fields; the other formats are small. -/
theorem encodeOfDecode : Obligations.EncodeOfDecode := fun _ _ => encode_decode

/-- Settles O11: a word with the fixed fields of a row is that row's encoding; a word that decodes is in its row, so one
of no row does not. -/
theorem requestTable : Obligations.RequestTable := by
  intro w
  refine ⟨fun h => ?init, fun h => ?cmd, fun h => ?npair, fun h => ?nibc, fun h => ?putc, fun h => ?pos, fun h => ?clear,
    fun h => ?home, fun h => ?disp, fun h => ?curs, fun h => ?blink, fun h => ?pinf, fun h => ?pinw, fun h => ?pinr,
    decode_reserved, matching_rows_le_one w⟩
  all_goals apply decode_of_encode
  case init => rw [encode_init]; exact congrArg Code.request (word_of_low (field_of_masked h rfl rfl) (field_of_masked h rfl rfl))
  case cmd => rw [encode_cmd]; exact congrArg Code.request (word_of_byte (field_of_masked h rfl rfl) (field_of_masked h rfl rfl))
  case npair => rw [encode_npair]; exact congrArg Code.request (word_of_byte (field_of_masked h rfl rfl) (field_of_masked h rfl rfl))
  case nibc => rw [encode_nibc]; exact congrArg Code.request (word_of_nibble (field_of_masked h rfl rfl) (field_of_masked h rfl rfl))
  case putc => rw [encode_putc]; exact congrArg Code.request (word_of_byte (field_of_masked h rfl rfl) (field_of_masked h rfl rfl))
  case pos => rw [encode_pos]; exact congrArg Code.request (word_of_pos (field_of_masked h rfl rfl))
  case clear => rw [encode_clear]; exact congrArg Code.request (word_of_low (field_of_masked h rfl rfl) (field_of_masked h rfl rfl))
  case home => rw [encode_home]; exact congrArg Code.request (word_of_low (field_of_masked h rfl rfl) (field_of_masked h rfl rfl))
  case disp => rw [encode_disp]; exact congrArg Code.request (word_of_flag (field_of_masked h rfl rfl) (field_of_masked h rfl rfl))
  case curs => rw [encode_curs]; exact congrArg Code.request (word_of_flag (field_of_masked h rfl rfl) (field_of_masked h rfl rfl))
  case blink => rw [encode_blink]; exact congrArg Code.request (word_of_flag (field_of_masked h rfl rfl) (field_of_masked h rfl rfl))
  case pinf =>
    rw [encode_pinf, ← PinFn.ofBit, bit_ofBit]
    exact congrArg Code.request
      (word_of_pin (field_of_masked h rfl rfl) (field_of_masked h rfl rfl) (field_of_masked h rfl rfl))
  case pinw =>
    rw [encode_pinw]
    exact congrArg Code.request
      (word_of_pin (field_of_masked h rfl rfl) (field_of_masked h rfl rfl) (field_of_masked h rfl rfl))
  case pinr => rw [encode_pinr]; exact congrArg Code.request (word_of_read (field_of_masked h rfl rfl) (field_of_masked h rfl rfl))

/-- Settles O7: the sixteen words are decoded. -/
theorem specWordsDecode : Obligations.SpecWordsDecode := by
  unfold Obligations.SpecWordsDecode
  decide

/-- Settles O12: every byte is decoded and compared with its row. -/
theorem commandTable : Obligations.CommandTable := by
  unfold Obligations.CommandTable
  decide

/-- Below 128 the Set DDRAM address code and the address have no bit in common (R67). -/
theorem ddram_or_eq_add {a : Nat} (h : a < 128) : 0x80#8 ||| BitVec.ofNat 8 a = BitVec.ofNat 8 (0x80 + a) := by
  revert a
  decide

/-- Settles O8: the records are the numbers written out; the address bytes are a code and an address below it. -/
theorem presumedNumbers : Obligations.PresumedNumbers := by
  refine ⟨rfl, rfl, rfl, rfl, fun c r hc hr => ?_⟩
  have haddr : 0 + r * 0x40 + c = 0x40 * r + c := by omega
  rw [← ddram_or_eq_add (by omega), ← haddr]
  rfl

end Sys2Proof.Machine
end

section
/-! O28, O30, O33, O34, O41, O42, O43, O60: the operations in the spec's own events. What a display operation sends is
one function of the instruction and the state; what it leaves of everything but the receiver is one relation, so that
frame, counts and completion are read off it for all of them. `INIT` is brought to the register events of R99. -/

namespace Sys2Proof.Machine

open Sys2Proof.Spec

/-! ### The request words (R58) -/

theorem decode_nibc_word (n : Nibble) : decode (.request (0x3000 ||| n.zeroExtend 16)) = .ok (.nibc n) := by
  revert n
  decide

theorem decode_toggle_words (e : Bool) :
    decode (.request (if e then 0x8001 else 0x8000)) = .ok (.disp e) ∧
      decode (.request (if e then 0x9001 else 0x9000)) = .ok (.curs e) ∧
      decode (.request (if e then 0xA001 else 0xA000)) = .ok (.blink e) := by
  cases e <;> decide

/-! ### The remaining operations in the spec's own events (R114, R118, R120, R123) -/

theorem exec_clear_sent {s : State} (h : Operable s) :
    exec .clear s = .next (done (State.sent (commandEvents s.cfg s.par.codes.clear ++ [.delay s.par.clearExtraUs])
      (commandLines s.cfg (s.par.codes.clear.extractLsb' 0 4) s.out)
      (commandInputs s.allDriven s.par.codes.clear ++ [.wait s.par.clearExtraUs]) { s with cx := 0, cy := 0 })) :=
  (ready_goes h _).trans (operate_commandAndReturn h _ _)

theorem exec_home_sent {s : State} (h : Operable s) :
    exec .home s = .next (done (State.sent (commandEvents s.cfg s.par.codes.home ++ [.delay s.par.clearExtraUs])
      (commandLines s.cfg (s.par.codes.home.extractLsb' 0 4) s.out)
      (commandInputs s.allDriven s.par.codes.home ++ [.wait s.par.clearExtraUs]) { s with cx := 0, cy := 0 })) :=
  (ready_goes h _).trans (operate_commandAndReturn h _ _)

/-- What a command that also moves the cursor and sets `CTL` leaves (R93, R114, R123). -/
def commandLeaves (b : Byte) (x y : Nat) (ctl : BitVec 3) (s : State) : State :=
  done (State.sent (commandEvents s.cfg b) (commandLines s.cfg (b.extractLsb' 0 4) s.out)
    (commandInputs s.allDriven b) { s with cx := x, cy := y, ctl := ctl })

theorem exec_disp_sent {s : State} (h : Operable s) (e : Bool) :
    exec (.disp e) s = .next (commandLeaves
      (controlByte s.par.codes (setCtlBit (ctlMask s.par.codes.ctrlD) e s.ctl)) s.cx s.cy
      (setCtlBit (ctlMask s.par.codes.ctrlD) e s.ctl) s) := execDisp_eq h e

theorem exec_curs_sent {s : State} (h : Operable s) (e : Bool) :
    exec (.curs e) s = .next (commandLeaves
      (controlByte s.par.codes (setCtlBit (ctlMask s.par.codes.ctrlC) e s.ctl)) s.cx s.cy
      (setCtlBit (ctlMask s.par.codes.ctrlC) e s.ctl) s) := execCurs_eq h e

theorem exec_blink_sent {s : State} (h : Operable s) (e : Bool) :
    exec (.blink e) s = .next (commandLeaves
      (controlByte s.par.codes (setCtlBit (ctlMask s.par.codes.ctrlB) e s.ctl)) s.cx s.cy
      (setCtlBit (ctlMask s.par.codes.ctrlB) e s.ctl) s) := execBlink_eq h e

theorem exec_pos_sent {s : State} (h : Operable s) (c : Byte) (r : BitVec 4)
    (hb : outOfBounds s.cfg c.toNat r.toNat = false) :
    exec (.pos c r) s = .next (commandLeaves (addressByte s.par.codes c.toNat r.toNat) c.toNat r.toNat s.ctl s) :=
  execPos_inside h c r hb

/-! ### What a display operation does (R57, R88 to R126) -/

/-- The display operations, which run in Ready only (R57). -/
def isReadyOp : Instr → Bool
  | .cmd _ | .npair _ | .nibc _ | .putc _ | .pos _ _ | .clear | .home | .disp _ | .curs _ | .blink _ => true
  | .init | .pinf _ _ | .pinw _ _ | .pinr _ | .lcdClear | .lcdHome | .lcdEntry _ _ | .lcdCtrl _ _ _
  | .lcdCdshift _ _ | .lcdFunc _ _ _ | .lcdDdram _ | .lcdData _ | .lcdFunc8Nibble | .lcdFunc4Nibble => false

theorem isReadyOp_of_isDisplay {i : Instr} (h : isDisplay i = true) : isReadyOp i = true := by
  cases i with
  | cmd _ | putc _ | pos _ _ | clear | home | disp _ | curs _ | blink _ => rfl
  | npair _ | nibc _ | init | pinf _ _ | pinw _ _ | pinr _ | lcdClear | lcdHome | lcdEntry _ _ | lcdCtrl _ _ _
  | lcdCdshift _ _ | lcdFunc _ _ _ | lcdDdram _ | lcdData _ | lcdFunc8Nibble | lcdFunc4Nibble => cases h

/-- The events a display operation sends (R91 to R93, R109, R114, R118, R120, R123). -/
def displayEvents (s : State) : Instr → List Event
  | .cmd b => commandEvents s.cfg b
  | .npair b => byteEvents s.cfg b
  | .nibc n => nibbleCommandEvents s.cfg n
  | .putc b =>
    if s.cx + 1 = s.cfg.cols then
      dataEvents s.cfg b ++
        commandEvents s.cfg (addressByte s.par.codes 0 (if s.cy + 1 = s.cfg.rows then 0 else s.cy + 1))
    else dataEvents s.cfg b
  | .pos c r =>
    if outOfBounds s.cfg c.toNat r.toNat then []
    else commandEvents s.cfg (addressByte s.par.codes c.toNat r.toNat)
  | .clear => commandEvents s.cfg s.par.codes.clear ++ [.delay s.par.clearExtraUs]
  | .home => commandEvents s.cfg s.par.codes.home ++ [.delay s.par.clearExtraUs]
  | .disp e => commandEvents s.cfg (controlByte s.par.codes (setCtlBit (ctlMask s.par.codes.ctrlD) e s.ctl))
  | .curs e => commandEvents s.cfg (controlByte s.par.codes (setCtlBit (ctlMask s.par.codes.ctrlC) e s.ctl))
  | .blink e => commandEvents s.cfg (controlByte s.par.codes (setCtlBit (ctlMask s.par.codes.ctrlB) e s.ctl))
  | .init | .pinf _ _ | .pinw _ _ | .pinr _ | .lcdClear | .lcdHome | .lcdEntry _ _ | .lcdCtrl _ _ _
  | .lcdCdshift _ _ | .lcdFunc _ _ _ | .lcdDdram _ | .lcdData _ | .lcdFunc8Nibble | .lcdFunc4Nibble => []

/-- The latches of the pins outside `CFG` are as before (R52). -/
def OthersKept (c : Cfg) (out out' : BitVec 54) : Prop := ∀ p, p ∉ lcdPins c → out'.getLsbD p = out.getLsbD p

/-- A transfer writes no pin outside `CFG`. -/
theorem nibbleLines_others (c : Cfg) (n : Nibble) (out : BitVec 54) : OthersKept c out (nibbleLines c n out) := by
  intro p hp
  simp only [lcdPins, List.mem_cons, List.not_mem_nil, or_false, not_or] at hp
  exact other_nibbleLines n out p hp.2

/-- Nor does one that writes RS first. -/
theorem selectedLines_others (c : Cfg) (n : Nibble) (l : Level) (out : BitVec 54) :
    OthersKept c out (nibbleLines c n (setLatchBit out c.rs l)) := by
  intro p hp
  have hrs : p ≠ c.rs := fun h => hp (h ▸ List.mem_cons_self ..)
  rw [nibbleLines_others c n _ p hp, getLsbD_setLatchBit_other _ _ _ _ hrs]

/-- What a display operation that sent `evs` leaves, but for the receiver. -/
structure Displayed (evs : List Event) (s t : State) : Prop where
  grid : InGrid t
  cfg : t.cfg = s.cfg
  par : t.par = s.par
  disp : t.disp = s.disp
  fsel : t.fsel = s.fsel
  trace : t.trace = s.trace ++ evs
  others : OthersKept s.cfg s.out t.out

/-- Events that leave the other pins and a cursor in the grid are all a display operation may leave. -/
theorem displayed_done {s : State} (h : InGrid s) {evs : List Event} {out : BitVec 54} {ins : List RxInput} {x y : Nat}
    {ctl : BitVec 3} (hx : x < s.cfg.cols) (hy : y < s.cfg.rows)
    (hout : OthersKept s.cfg s.out out) :
    Displayed evs s (done (State.sent evs out ins { s with cx := x, cy := y, ctl := ctl })) :=
  ⟨⟨h.1, hx, hy⟩, rfl, rfl, rfl, rfl, rfl, hout⟩

theorem displayed_command {s : State} (h : InGrid s) (b : Byte) {x y : Nat} {ctl : BitVec 3} (hx : x < s.cfg.cols)
    (hy : y < s.cfg.rows) : Displayed (commandEvents s.cfg b) s (commandLeaves b x y ctl s) :=
  displayed_done h hx hy (selectedLines_others _ _ _ _)

/-- A display operation runs whole from any Ready state with the cursor in the grid, and leaves such a state. -/
theorem exec_display {i : Instr} (hi : isReadyOp i = true) {s : State} (h : InGrid s) :
    ∃ t, exec i s = .next t ∧ Displayed (displayEvents s i) s t := by
  obtain ⟨hs, hcol, hrow⟩ := h
  have hgrid : InGrid s := ⟨hs, hcol, hrow⟩
  have hcol0 : 0 < s.cfg.cols := Nat.zero_lt_of_lt hcol
  have hrow0 : 0 < s.cfg.rows := Nat.zero_lt_of_lt hrow
  cases i with
  | cmd b => exact ⟨_, exec_cmd_sent hs b, displayed_command hgrid b hcol hrow⟩
  | npair b => exact ⟨_, exec_npair_sent hs b, displayed_done hgrid hcol hrow (nibbleLines_others _ _ _)⟩
  | nibc n => exact ⟨_, exec_nibc_sent hs n, displayed_done hgrid hcol hrow (selectedLines_others _ _ _ _)⟩
  | putc b =>
    by_cases hx : s.cx + 1 = s.cfg.cols
    · refine ⟨_, exec_putc_wrap_sent hgrid b hx rfl, ?_⟩
      rw [displayEvents, if_pos hx]
      exact displayed_done hgrid hcol0 (by split <;> omega) (selectedLines_others _ _ _ _)
    · refine ⟨_, exec_putc_sent hs b hx, ?_⟩
      rw [displayEvents, if_neg hx]
      exact displayed_done hgrid (by omega) hrow (selectedLines_others _ _ _ _)
  | pos c r =>
    cases hb : outOfBounds s.cfg c.toNat r.toNat with
    | true =>
      refine ⟨_, execPos_outside hs c r hb, ?_⟩
      rw [displayEvents, hb]
      exact ⟨hgrid, rfl, rfl, rfl, rfl, (List.append_nil _).symm, fun _ _ => rfl⟩
    | false =>
      refine ⟨_, exec_pos_sent hs c r hb, ?_⟩
      rw [displayEvents, hb]
      simp only [outOfBounds, Bool.or_eq_false_iff, decide_eq_false_iff_not, Nat.not_le] at hb
      exact displayed_command hgrid _ hb.1 hb.2
  | clear => exact ⟨_, exec_clear_sent hs, displayed_done hgrid hcol0 hrow0 (selectedLines_others _ _ _ _)⟩
  | home => exact ⟨_, exec_home_sent hs, displayed_done hgrid hcol0 hrow0 (selectedLines_others _ _ _ _)⟩
  | disp e => exact ⟨_, exec_disp_sent hs e, displayed_command hgrid _ hcol hrow⟩
  | curs e => exact ⟨_, exec_curs_sent hs e, displayed_command hgrid _ hcol hrow⟩
  | blink e => exact ⟨_, exec_blink_sent hs e, displayed_command hgrid _ hcol hrow⟩
  | init | pinf _ _ | pinw _ _ | pinr _ | lcdClear | lcdHome | lcdEntry _ _ | lcdCtrl _ _ _ | lcdCdshift _ _
  | lcdFunc _ _ _ | lcdDdram _ | lcdData _ | lcdFunc8Nibble | lcdFunc4Nibble => cases hi

/-! ### `INIT` (R97, R99) -/

/-- Making pins Output one after the other is the spec's `madeOutput` on function words and bus (R81, R99). -/
theorem outputPins_madeOutput (ps : List Nat) (s : State) :
    (State.outputPins ps s).fsel = (madeOutput s.par.offsets ps s.fsel).1 ∧
      (State.outputPins ps s).bus = s.bus ++ (madeOutput s.par.offsets ps s.fsel).2 := by
  induction ps generalizing s with
  | nil => exact ⟨rfl, (List.append_nil _).symm⟩
  | cons p ps ih =>
    obtain ⟨hfsel, hbus⟩ := ih (s.outputPin p)
    refine ⟨hfsel, hbus.trans ?_⟩
    exact List.append_assoc s.bus [_, _] _

/-- The lines rest at the low nibble of the last byte of the tail, of the clear if there is none (R105). -/
theorem lastNibble_eq_getLast (b : Byte) (bs : List Byte) :
    lastNibble (loNibble b) bs = (bs.getLast?.getD b).extractLsb' 0 4 := by
  induction bs generalizing b with
  | nil => rfl
  | cons c bs ih =>
    rw [lastNibble, ih c, List.getLast?_cons, Option.getD_some]

/-- `INIT` from any state it can run in, field by field (R97 to R105). -/
theorem exec_init_eq {s : State} (h : Startable s) :
    exec .init s = .next { s with
      phase := .ready
      disp := some s.cfg
      cx := 0
      cy := 0
      ctl := blinkOff s.par.codes s.ctl
      trace := s.trace ++ (lcdPins s.cfg).map (fun p => .fsel p .output) ++ initEvents s.cfg s.par s.ctl
      bus := s.bus ++ (madeOutput s.par.offsets (lcdPins s.cfg) s.fsel).2 ++
        (initEvents s.cfg s.par s.ctl).flatMap (Event.onBus s.par.offsets)
      fsel := (madeOutput s.par.offsets (lcdPins s.cfg) s.fsel).1
      out := commandLines s.cfg ((s.par.initTail.getLast?.getD s.par.codes.clear).extractLsb' 0 4) s.out
      rx := Receiver.feed s.par.codes (initInputs s.cfg s.par s.ctl s.out) s.rx
      resp := some (.done none) } := by
  have hmade := outputPins_madeOutput s.cfg.pins { s with
    phase := .ready, disp := some s.cfg, cx := 0, cy := 0, ctl := blinkOff s.par.codes s.ctl, resp := some (.done none) }
  rw [exec_init_sent h, outputPins_eq, lastNibble_eq_getLast, hmade.1, hmade.2]
  rfl

/-! ### Costs (R196) -/

theorem cost_append (as bs : List Event) : cost (as ++ bs) = cost as + cost bs := congrArg Prod.fst (tally_append as bs)

theorem cost_nibble (c : Cfg) (n : Nibble) : cost (nibbleEvents c n) = (8, 2, 100) := congrArg Prod.fst (tally_nibble c n)

theorem cost_command (c : Cfg) (b : Byte) : cost (commandEvents c b) = (18, 5, 2200) :=
  congrArg Prod.fst (tally_command c b)

theorem cost_byte (c : Cfg) (b : Byte) : cost (byteEvents c b) = (16, 4, 200) := by
  rw [byteEvents, cost_append, cost_nibble, cost_nibble]
  rfl

/-- A level write costs one event before what follows. -/
theorem cost_pin_cons (p : Nat) (l : Level) (evs : List Event) : cost (.pin p l :: evs) = (1, 0, 0) + cost evs :=
  cost_append [.pin p l] evs

theorem cost_data (c : Cfg) (b : Byte) : cost (dataEvents c b) = (17, 4, 200) := by
  rw [dataEvents, cost_pin_cons, cost_byte]
  rfl

theorem cost_nibbleCommand (c : Cfg) (n : Nibble) : cost (nibbleCommandEvents c n) = (9, 2, 100) := by
  rw [nibbleCommandEvents, cost_pin_cons, cost_nibble]
  rfl

theorem cost_delay (n : Nat) : cost [.delay n] = (1, 1, n) := rfl

/-- A display operation costs what its events cost. -/
theorem exec_display_cost {i : Instr} (hi : isReadyOp i = true) {s : State} (h : InGrid s) {k : Nat × Nat × Nat}
    (hk : cost (displayEvents s i) = k) :
    ∃ t evs, exec i s = .next t ∧ t.trace = s.trace ++ evs ∧ cost evs = k := by
  obtain ⟨t, ht, hd⟩ := exec_display hi h
  exact ⟨t, _, ht, hd.trace, hk⟩

/-- A pin operation is one event, no `DELAY` (R81 to R83). -/
theorem exec_pin_cost {s : State} (h : PinReady s) {p : BitVec 6} (hp : p.toNat < 54) {i : Instr}
    (hi : i = .pinr p ∨ (∃ m, i = .pinf p m) ∨ ∃ l, i = .pinw p l) :
    ∃ t evs, exec i s = .next t ∧ t.trace = s.trace ++ evs ∧ cost evs = (1, 0, 0) := by
  have ⟨⟨hq, hw⟩, hph⟩ := h
  obtain rfl | ⟨m, rfl⟩ | ⟨l, rfl⟩ := hi
  · exact ⟨_, _, execPinr_eq hq hw hph p hp, rfl, rfl⟩
  · exact ⟨_, _, execPinf_eq hq hw hph p m hp, rfl, rfl⟩
  · obtain ⟨ins, hx, -⟩ := execPinw_sent h p l hp
    exact ⟨_, _, hx, rfl, rfl⟩

/-! ### The results -/

/-- Settles O28: the nibble write runs whole, and outside Ready the phase check answers. -/
theorem nibcResult : Obligations.NibcResult := fun n =>
  ⟨requested_of_checks (acts := fun s => nibbleCommand s.cfg n ++ [.finish]) (decode_nibc_word n) fun _ => rfl,
    fun _ hs => exec_nibc_sent hs n⟩

/-- Settles O41: the command, the cursor, the extra delay, in one sending. -/
theorem clearResult : Obligations.ClearResult :=
  ⟨requested_of_checks (acts := fun s => commandAndReturn s.cfg s.par.clearExtraUs s.par.codes.clear ++ [.finish]) rfl
    fun _ => rfl, fun _ hs => exec_clear_sent hs⟩

/-- Settles O42: as `CLEAR`, with the other command. -/
theorem homeResult : Obligations.HomeResult :=
  ⟨requested_of_checks (acts := fun s => commandAndReturn s.cfg s.par.clearExtraUs s.par.codes.home ++ [.finish]) rfl
    fun _ => rfl, fun _ hs => exec_home_sent hs⟩

/-- Settles O43: `CTL` takes the bit and the command carries the new `CTL`. -/
theorem toggleResults : Obligations.ToggleResults := by
  intro e
  obtain ⟨hdisp, hcurs, hblink⟩ := decode_toggle_words e
  exact ⟨⟨requested_of_checks hdisp fun _ => rfl, requested_of_checks hcurs fun _ => rfl,
    requested_of_checks hblink fun _ => rfl⟩,
    fun _ hs => ⟨exec_disp_sent hs e, exec_curs_sent hs e, exec_blink_sent hs e⟩⟩

/-- Settles O30: the latches of each operation's events, put together from one per nibble. -/
theorem transferLatches : Obligations.TransferLatches := by
  intro b n s hs
  have hp := operable_pins hs
  refine ⟨?npair, ?nibc, ?cmd⟩
  case npair => exact ⟨_, _, exec_npair_sent hs b, rfl, (sends_byte hp b (Walk.start s.out) rfl rfl).2.2⟩
  case nibc => exact ⟨_, _, exec_nibc_sent hs n, rfl, latches_selected hp (sends_nibble hp n) [] s.out⟩
  case cmd =>
    exact ⟨_, _, exec_cmd_sent hs b, rfl,
      latches_selected hp (sends_append (sends_byte hp b) (sends_delay _)) [] s.out⟩

/-- Settles O33: a display operation keeps functions and other latches; `INIT` sets the fields of its six pins only. -/
theorem otherPinsUntouched : Obligations.OtherPinsUntouched := by
  refine ⟨fun i s hi hs => ?display, fun s hs => ?init⟩
  case display =>
    have hready : isReadyOp i = true := by
      obtain hi | ⟨b, rfl⟩ | ⟨n, rfl⟩ := hi
      · exact isReadyOp_of_isDisplay hi
      · rfl
      · rfl
    obtain ⟨t, ht, hd⟩ := exec_display hready hs
    exact ⟨t, ht, hd.fsel, hd.others⟩
  case init =>
    have hpins : ∀ p ∈ s.cfg.pins, p < 54 := hs.2.2.1.2.2.2.2.2
    refine ⟨_, exec_init_sent hs, fun p hp => ?_, fun p hp => ⟨?_, ?_⟩⟩
    · rw [sent_isOutput, isOutput_outputPins _ _ hpins, decide_eq_true (show p ∈ s.cfg.pins from hp), Bool.true_or]
    · exact selectedLines_others _ _ _ _ p hp
    · exact pinField_outputPins _ _ hpins p hp

/-- Settles O34: the next state of `INIT` is read field by field, and outside Uninitialized the phase check answers. -/
theorem initResult : Obligations.InitResult := by
  refine ⟨rfl, fun s hq hp => ?_, fun s hs => exec_init_eq hs⟩
  have hnot : whenUninitialized s.phase = false := beq_eq_false_iff_ne.2 hp
  rw [exec, execInit, request_wrongPhase _ hq hnot, turnAway]

/-- Settles O60: each row of the table is the cost of that operation's events, added up from transfers and delays. -/
theorem leastTimes : Obligations.LeastTimes := by
  intro s hs hpar i k hrow
  have hextra : s.par.clearExtraUs = 5000 := by rw [hpar]; rfl
  obtain ⟨⟨n, rfl⟩, rfl⟩ | ⟨⟨b, rfl⟩, rfl⟩ | ⟨⟨b, rfl⟩, rfl⟩ | ⟨⟨b, rfl⟩, hx, rfl⟩ | ⟨⟨b, rfl⟩, hx, rfl⟩ |
    ⟨⟨c, r, rfl, hc, hr⟩, rfl⟩ | ⟨⟨c, r, rfl, hout⟩, rfl⟩ | ⟨hi, rfl⟩ | ⟨⟨e, hi⟩, rfl⟩ | ⟨⟨p, hp, hi⟩, rfl⟩ := hrow
  · exact exec_display_cost rfl hs (cost_nibbleCommand ..)
  · exact exec_display_cost rfl hs (cost_byte ..)
  · exact exec_display_cost rfl hs (cost_command ..)
  · refine exec_display_cost rfl hs ?_
    rw [displayEvents, if_neg hx, cost_data]
  · refine exec_display_cost rfl hs ?_
    rw [displayEvents, if_pos hx, cost_append, cost_data, cost_command]
    rfl
  · have hb : outOfBounds s.cfg c.toNat r.toNat = false :=
      Bool.eq_false_iff.2 fun h => by rw [outOfBounds_iff] at h; omega
    refine exec_display_cost rfl hs ?_
    rw [displayEvents, hb]
    exact cost_command ..
  · have hb : outOfBounds s.cfg c.toNat r.toNat = true := (outOfBounds_iff ..).2 (by omega)
    refine exec_display_cost rfl hs ?_
    rw [displayEvents, hb]
    rfl
  · obtain rfl | rfl := hi
    all_goals
      refine exec_display_cost rfl hs ?_
      rw [displayEvents, cost_append, cost_command, cost_delay, hextra]
      rfl
  · obtain rfl | rfl | rfl := hi
    all_goals exact exec_display_cost rfl hs (cost_command ..)
  · exact exec_pin_cost ⟨hs.1.1, by rw [hs.1.2.1]; decide⟩ hp hi

end Sys2Proof.Machine
end

section
/-! O1, O2, O3, O4, O5, O13, O14, O15, O16, O17, O47: steps and the checks of a request. A host operation is its phase
check and a body; from an idle state each of them completes and leaves the driver's part of the invariant, and what no
step changes holds in every branch of `step`. A queue performed item by item is the big step because no item reads the
queue. -/

namespace Sys2Proof.Machine

open Sys2Proof.Spec

/-! ### Reset (R28) -/

/-- Settles O1: `State.resetOf` puts each of these fields there. -/
theorem resetValues : Obligations.ResetValues :=
  ⟨fun _ _ _ _ _ => ⟨rfl, rfl, rfl, rfl, rfl, rfl, rfl, rfl, rfl, rfl, rfl, rfl⟩, ⟨_, _, rfl⟩, rfl⟩

/-- Settles O2: reset is idle, not Ready, and its receiver Unknown with count 0. -/
theorem resetMeetsInvariant : Obligations.ResetMeetsInvariant := fun _ _ _ _ _ =>
  ⟨rfl, nofun, nofun, nofun, nofun, Nat.zero_le _, nofun⟩

/-! ### The checks of a request (R161, R164) -/

theorem present_busy {s : State} (w : BitVec 16) (h : s.queue ≠ []) : present w s = turnAway .busy s := if_pos h

theorem present_decoded {s : State} {w : BitVec 16} {i : Instr} (hq : s.queue = [])
    (hd : decode (.request w) = .ok i) : present w s = exec i s := by
  rw [present, if_neg (not_not.2 hq), hd]

theorem present_reserved {s : State} {w : BitVec 16} {e : Reject} (hq : s.queue = [])
    (hd : decode (.request w) = .error e) : present w s = turnAway .reservedRequest s := by
  rw [present, if_neg (not_not.2 hq), hd]

theorem decode_isHost {w : BitVec 16} {i : Instr} (h : decode (.request w) = .ok i) : isHost i = true :=
  decodeRequest_isHost (decode_request h)

/-- Every host operation begins with its phase check (R57). -/
theorem exec_checked {i : Instr} (hi : isHost i = true) : ∃ body, exec i = request (admits i) body := by
  cases i with
  | init | cmd _ | npair _ | nibc _ | putc _ | pos _ _ | clear | home | disp _ | curs _ | blink _ | pinf _ _
  | pinw _ _ | pinr _ => exact ⟨_, rfl⟩
  | lcdClear | lcdHome | lcdEntry _ _ | lcdCtrl _ _ _ | lcdCdshift _ _ | lcdFunc _ _ _ | lcdDdram _
  | lcdData _ | lcdFunc8Nibble | lcdFunc4Nibble => cases hi

theorem exec_wrongPhase {i : Instr} (hi : isHost i = true) {s : State} (hq : s.queue = [])
    (hp : admits i s.phase = false) : exec i s = turnAway .wrongPhase s := by
  obtain ⟨body, hbody⟩ := exec_checked hi
  rw [hbody, request_wrongPhase body hq hp]

/-- An ill-formed operation is a pin operation, and its phase check passed the pin check answers (R45, R164). -/
theorem exec_badPin {i : Instr} (hi : i.wellFormed = false) {s : State} (hq : s.queue = [])
    (hp : admits i s.phase = true) : exec i s = turnAway .badPin s := by
  cases i with
  | pinf p _ | pinw p _ | pinr p =>
    have hlt : 53 < p.toNat := Nat.lt_of_not_le fun h => of_decide_eq_false hi (Nat.lt_succ_of_le h)
    exact (request_go _ hq hp).trans (onPin_badPin hlt _)
  | init | cmd _ | npair _ | nibc _ | putc _ | pos _ _ | clear | home | disp _ | curs _ | blink _ | lcdClear
  | lcdHome | lcdEntry _ _ | lcdCtrl _ _ _ | lcdCdshift _ _ | lcdFunc _ _ _ | lcdDdram _ | lcdData _
  | lcdFunc8Nibble | lcdFunc4Nibble => cases hi

theorem exec_init_badConfig {s : State} (hq : s.queue = []) (hp : s.phase = .uninitialized)
    (hc : ¬ s.cfg.Admitted s.par.codes) : exec .init s = turnAway .badConfig s := by
  rw [exec, execInit, request_go _ hq (by rw [hp]; rfl), if_pos hc]

/-- Want of memory is fatal, and nothing but the phase and the reply changes (R98, R158). -/
theorem exec_init_starved {s : State} (hq : s.queue = []) (hp : s.phase = .uninitialized)
    (hc : s.cfg.Admitted s.par.codes) (hm : s.allocOk = false) :
    exec .init s = .next { s with phase := .fatal, resp := some (.fatal .allocFail) } := by
  rw [exec, execInit, request_go _ hq (by rw [hp]; rfl), if_neg (not_not.2 hc), if_pos hm, goFatal, ← hq]

theorem admits_fatal {i : Instr} (hi : isHost i = true) : admits i .fatal = false := by
  cases i with
  | init | cmd _ | npair _ | nibc _ | putc _ | pos _ _ | clear | home | disp _ | curs _ | blink _ | pinf _ _
  | pinw _ _ | pinr _ => rfl
  | lcdClear | lcdHome | lcdEntry _ _ | lcdCtrl _ _ _ | lcdCdshift _ _ | lcdFunc _ _ _ | lcdDdram _ | lcdData _
  | lcdFunc8Nibble | lcdFunc4Nibble => cases hi

/-- Settles O15: one lemma per check, in the order `present`, the phase check and the bodies make them. -/
theorem orderOfChecks : Obligations.OrderOfChecks := by
  intro w s
  refine ⟨fun hq => present_busy w hq, fun hq => ⟨fun e hd => present_reserved hq hd, fun i hd => ?_⟩⟩
  rw [present_decoded hq hd]
  refine ⟨exec_wrongPhase (decode_isHost hd) hq, fun hp => ⟨fun hi => exec_badPin hi hq hp, ?config, ?memory⟩⟩
  case config =>
    rintro rfl hc
    exact exec_init_badConfig hq (eq_of_beq hp) hc
  case memory =>
    rintro rfl hc hm
    exact exec_init_starved hq (eq_of_beq hp) hc hm

/-- Settles O16: a word of no row does not decode, and a pin past 53 fails the pin check. -/
theorem reservedRequests : Obligations.ReservedRequests := by
  refine ⟨fun w s hq hrow => present_reserved hq (decode_reserved hrow), fun p m l s hq hp hlast => ?_⟩
  have hwf : decide (PinOk p) = false := decide_eq_false (Nat.not_lt.2 hlast)
  have hadmit : (s.phase != .fatal) = true := bne_iff_ne.2 hp
  exact ⟨exec_badPin (i := .pinf p m) hwf hq hadmit, exec_badPin (i := .pinw p l) hwf hq hadmit,
    exec_badPin (i := .pinr p) hwf hq hadmit⟩

/-- In Fatal every request is refused, and one that decodes for its phase (R158). -/
theorem present_fatal {s : State} (w : BitVec 16) (hq : s.queue = []) (hp : s.phase = .fatal) :
    ∃ why, present w s = turnAway why s ∧ ∀ i, decode (.request w) = .ok i → why = .wrongPhase := by
  cases hd : decode (.request w) with
  | error e => exact ⟨.reservedRequest, present_reserved hq hd, nofun⟩
  | ok i =>
    have hi := decode_isHost hd
    refine ⟨.wrongPhase, ?_, fun _ _ => rfl⟩
    rw [present_decoded hq hd, exec_wrongPhase hi hq (by rw [hp, admits_fatal hi])]

/-! ### The branches of a step (R4, R20, R56) -/

theorem step_frame {s : State} {f : Frame} (hw : s.wire = some f) : step s = takeFrame f { s with wire := none } := by
  simp only [step, hw]

theorem step_item {s : State} {a : Action} {rest : List Action} (hw : s.wire = none) (hq : s.queue = a :: rest) :
    step s = perform a { s with queue := rest } := by
  simp only [step, hw, hq]

theorem step_present {s : State} {w : BitVec 16} {rest : List (BitVec 16)} (h : Quiet s) (hh : s.host = w :: rest) :
    step s = present w { s with host := rest } := by
  simp only [step, h.2, h.1, hh]

theorem step_pause {s : State} (h : Quiet s) (hh : s.host = []) : step s = .next s := by
  simp only [step, h.2, h.1, hh]

/-- Settles O13: the branches of `step` and of `present`. -/
theorem stepRunsDecodedInstruction : Obligations.StepRunsDecodedInstruction := by
  refine ⟨fun s f i hw hd => ?row, fun s f hw hd => ?latch, fun s a rest hw hq => step_item hw hq,
    fun s w rest i hs hh hd => ?request, fun s w rest e hs hh hd => ?reserved, fun s => step_pause⟩
  case row => rw [step_frame hw, takeFrame, show decodeFrame _ f = some i from hd]
  case latch => rw [step_frame hw, takeFrame_eq]
  case request => rw [step_present hs hh, present_decoded (by exact hs.1) hd]
  case reserved => rw [step_present hs hh, present_reserved (by exact hs.1) hd, turnAway]

/-- Settles O17: the phase check of every host operation fails in Fatal, and a refusal changes the reply only. -/
theorem fatalIsPreciseAndAbsorbing : Obligations.FatalIsPreciseAndAbsorbing := by
  refine ⟨fun s => exec_init_starved, fun s w => present_fatal w, fun s hs hp => ?_⟩
  cases hh : s.host with
  | nil => exact ⟨s, step_pause hs hh, by rw [← hh]⟩
  | cons w rest =>
    obtain ⟨why, hx, -⟩ := present_fatal (s := { s with host := rest }) w hs.1 hp
    exact ⟨_, (step_present hs hh).trans hx, by rw [← hh]⟩

/-! ### What no step changes (R26) -/

/-- What every step keeps: the parameters, and that a display shift has been commanded. -/
def Fixed (s t : State) : Prop :=
  t.cfg = s.cfg ∧ t.par = s.par ∧ t.allocOk = s.allocOk ∧ (s.rx.shifted = true → t.rx.shifted = true)

theorem Kept.fixed {s t : State} (h : Kept s t) : Fixed s t := ⟨h.cfg, h.par, h.allocOk, h.shifted⟩

theorem receiveFrame_fixed (f : Frame) (s : State) : Fixed s (receiveFrame f s) := by
  have hrx : s.rx.shifted = true → (receiveFrame f s).rx.shifted = true := shifted_receiveFrame f
  rw [receiveFrame_eq] at hrx ⊢
  exact ⟨rfl, rfl, rfl, hrx⟩

theorem present_fixed {w : BitVec 16} {s t : State} (hq : s.queue = []) (h : present w s = .next t) : Fixed s t := by
  rcases present_idle_cases hq h with ⟨i, hd, hx⟩ | rfl
  · exact (kept_exec (decodeRequest_isHost hd) hq hx).fixed
  · exact ⟨rfl, rfl, rfl, id⟩

theorem step_fixed {s t : State} (h : step s = .next t) : Fixed s t := by
  cases hw : s.wire with
  | some f =>
    rw [step_frame hw, takeFrame_eq] at h
    cases h
    exact receiveFrame_fixed f { s with wire := none }
  | none =>
    cases hq : s.queue with
    | cons a rest =>
      rw [step_item hw hq] at h
      exact (kept_perform h).fixed
    | nil =>
      cases hh : s.host with
      | cons w rest =>
        rw [step_present ⟨hq, hw⟩ hh] at h
        exact present_fixed (s := { s with host := rest }) hq h
      | nil =>
        rw [step_pause ⟨hq, hw⟩ hh] at h
        cases h
        exact ⟨rfl, rfl, rfl, id⟩

/-- A shifted display shows nothing (R154; log 20). -/
theorem shown_of_shifted {s : State} (h : s.rx.shifted = true) (c r : Nat) : s.shown c r = none := by
  rw [State.shown]
  split
  · rfl
  · rw [if_neg (by simp [h])]

/-- Settles O5: no branch of a step changes them. -/
theorem stepKeepsParameters : Obligations.StepKeepsParameters := fun _ _ h =>
  have ⟨hcfg, hpar, halloc, _⟩ := step_fixed h
  ⟨hcfg, hpar, halloc⟩

/-- Settles O47: no branch of a step forgets the mark, and the view is hidden by it. -/
theorem shiftHidesForGood : Obligations.ShiftHidesForGood := fun _ _ h hs =>
  have ⟨_, _, _, hkeep⟩ := step_fixed h
  have ht := hkeep hs
  ⟨ht, shown_of_shifted ht⟩

/-! ### The invariant of idle states (R16, R17, R18) -/

/-- The driver's part of the invariant. -/
def DriverOk (s : State) : Prop :=
  s.phase = .ready → s.cfg.Admitted s.par.codes ∧ s.disp = some s.cfg ∧ s.cx < s.cfg.cols ∧ s.cy < s.cfg.rows

theorem inv_iff (s : State) : Inv s ↔ s.queue = [] ∧ DriverOk s ∧ s.rx.Wf := by
  constructor
  · intro h
    exact ⟨h.idle, fun hp => ⟨h.admitted hp, h.record hp, h.column hp, h.row hp⟩, h.receiver⟩
  · rintro ⟨hq, hd, hr⟩
    exact ⟨hq, fun hp => (hd hp).1, fun hp => (hd hp).2.1, fun hp => (hd hp).2.2.1, fun hp => (hd hp).2.2.2, hr⟩

theorem Inv.driverOk {s : State} (h : Inv s) : DriverOk s := ((inv_iff s).1 h).2.1

/-- The state goes on to one with the driver in order. -/
def GoesOn (o : Outcome) : Prop := ∃ t, o = .next t ∧ DriverOk t

theorem turnAway_goesOn {s : State} (h : DriverOk s) (why : Reason) : GoesOn (turnAway why s) := ⟨_, rfl, h⟩

theorem exec_display_goesOn {i : Instr} (hi : isReadyOp i = true) {s : State} (hq : s.queue = []) (hw : s.wire = none)
    (h : DriverOk s) (hp : s.phase = .ready) : GoesOn (exec i s) := by
  obtain ⟨hadm, hdisp, hcol, hrow⟩ := h hp
  obtain ⟨t, ht, hd⟩ := exec_display hi ⟨⟨⟨hq, hw⟩, hp, hadm⟩, hcol, hrow⟩
  obtain ⟨⟨-, -, hadm⟩, hcol, hrow⟩ := hd.grid
  exact ⟨t, ht, fun _ => ⟨hadm, by rw [hd.disp, hdisp, hd.cfg], hcol, hrow⟩⟩

theorem exec_init_goesOn {s : State} (hq : s.queue = []) (hw : s.wire = none) (hp : s.phase = .uninitialized) :
    GoesOn (exec .init s) := by
  by_cases hc : s.cfg.Admitted s.par.codes
  · cases hm : s.allocOk with
    | false => exact ⟨_, exec_init_starved hq hp hc hm, nofun⟩
    | true =>
      have ⟨_, hrows, hcols, _⟩ := hc
      exact ⟨_, exec_init_eq ⟨⟨hq, hw⟩, hp, hc, hm⟩, fun _ => ⟨hc, rfl, hcols.1, by show 0 < s.cfg.rows; omega⟩⟩
  · rw [exec_init_badConfig hq hp hc]
    exact turnAway_goesOn (fun h => by rw [hp] at h; cases h) _

theorem exec_pin_goesOn {p : BitVec 6} (hlt : p.toNat < 54) {s : State} (hs : PinReady s) (h : DriverOk s) :
    (∀ m, GoesOn (exec (.pinf p m) s)) ∧ (∀ l, GoesOn (exec (.pinw p l) s)) ∧ GoesOn (exec (.pinr p) s) := by
  have ⟨⟨hq, hw⟩, hp⟩ := hs
  refine ⟨fun m => ⟨_, execPinf_eq hq hw hp p m hlt, h⟩, fun l => ?_, _, execPinr_eq hq hw hp p hlt, h⟩
  obtain ⟨ins, hx, -⟩ := execPinw_sent hs p l hlt
  exact ⟨_, hx, h⟩

/-- From an idle state every host operation goes on (R165). -/
theorem exec_goesOn {i : Instr} (hi : isHost i = true) {s : State} (hq : s.queue = []) (hw : s.wire = none)
    (h : DriverOk s) : GoesOn (exec i s) := by
  cases hp : admits i s.phase with
  | false =>
    rw [exec_wrongPhase hi hq hp]
    exact turnAway_goesOn h _
  | true =>
    cases hf : i.wellFormed with
    | false =>
      rw [exec_badPin hf hq hp]
      exact turnAway_goesOn h _
    | true =>
      cases i with
      | init => exact exec_init_goesOn hq hw (eq_of_beq hp)
      | cmd _ | npair _ | nibc _ | putc _ | pos _ _ | clear | home | disp _ | curs _ | blink _ =>
        exact exec_display_goesOn rfl hq hw h (eq_of_beq hp)
      | pinf p m => exact (exec_pin_goesOn (of_decide_eq_true hf) ⟨⟨hq, hw⟩, bne_iff_ne.1 hp⟩ h).1 m
      | pinw p l => exact (exec_pin_goesOn (of_decide_eq_true hf) ⟨⟨hq, hw⟩, bne_iff_ne.1 hp⟩ h).2.1 l
      | pinr p => exact (exec_pin_goesOn (of_decide_eq_true hf) ⟨⟨hq, hw⟩, bne_iff_ne.1 hp⟩ h).2.2
      | lcdClear | lcdHome | lcdEntry _ _ | lcdCtrl _ _ _ | lcdCdshift _ _ | lcdFunc _ _ _ | lcdDdram _
      | lcdData _ | lcdFunc8Nibble | lcdFunc4Nibble => cases hi

/-- A host operation that goes on from an idle state leaves one. -/
theorem exec_inv {i : Instr} (hi : isHost i = true) {s : State} (hs : Inv s) (hw : s.wire = none) :
    ∃ t, exec i s = .next t ∧ Inv t := by
  obtain ⟨t, ht, hd⟩ := exec_goesOn hi hs.idle hw hs.driverOk
  have hk := kept_exec hi hs.idle ht
  exact ⟨t, ht, (inv_iff t).2 ⟨hk.queue.trans hs.idle, hd, hk.receiver hs.receiver⟩⟩

theorem present_inv (w : BitVec 16) {s : State} (hs : Inv s) (hw : s.wire = none) :
    ∃ t, present w s = .next t ∧ Inv t := by
  cases hd : decode (.request w) with
  | ok i =>
    rw [present_decoded hs.idle hd]
    exact exec_inv (decode_isHost hd) hs hw
  | error e => exact ⟨_, present_reserved hs.idle hd, (inv_iff _).2 ((inv_iff s).1 hs)⟩

theorem receiveFrame_inv (f : Frame) {s : State} (hs : Inv s) : Inv (receiveFrame f s) := by
  have hrx := wf_receiveFrame f hs.receiver
  rw [receiveFrame_eq] at hrx ⊢
  exact (inv_iff _).2 ⟨hs.idle, hs.driverOk, hrx⟩

/-- An idle state steps, and to an idle state: progress and preservation in one. -/
theorem step_inv {s : State} (hs : Inv s) : ∃ t, step s = .next t ∧ Inv t := by
  cases hw : s.wire with
  | some f =>
    refine ⟨_, (step_frame hw).trans (takeFrame_eq ..), receiveFrame_inv f ?_⟩
    exact (inv_iff _).2 ((inv_iff s).1 hs)
  | none =>
    cases hh : s.host with
    | nil => exact ⟨s, step_pause ⟨hs.idle, hw⟩ hh, hs⟩
    | cons w rest =>
      rw [step_present ⟨hs.idle, hw⟩ hh]
      exact present_inv w ((inv_iff _).2 ((inv_iff s).1 hs)) hw

/-- Settles O4: the next state of `step_inv`. -/
theorem idleStatesAlwaysStep : Obligations.IdleStatesAlwaysStep := fun _ hs =>
  have ⟨t, ht, _⟩ := step_inv hs
  ⟨t, ht⟩

/-- Settles O3: `step` is a function, so its next state is that of `step_inv`. -/
theorem stepKeepsInvariant : Obligations.StepKeepsInvariant := by
  intro s t hs h
  obtain ⟨u, hu, hinv⟩ := step_inv hs
  rw [h] at hu
  cases hu
  exact hinv

/-! ### A queue performed item by item (R20) -/

/-- No item reads or writes the queue. -/
theorem perform_with_queue {a : Action} {s t : State} (q : List Action) (h : perform a s = .next t) :
    perform a { s with queue := q } = .next { t with queue := q } := by
  cases a with
  | setFn p m =>
    have hp := pin_lt_of_guard h
    rw [perform, setPinFunction_eq _ _ _ hp] at h ⊢
    cases h
    rfl
  | writePin p l =>
    have hp := pin_lt_of_guard h
    rw [perform, writePinLevel_eq _ _ _ hp] at h ⊢
    cases h
    rfl
  | readPin p =>
    have hp := pin_lt_of_guard h
    rw [perform, readPinLevel_eq _ _ hp] at h ⊢
    cases h
    rfl
  | delay n | record | cursor x y | control c | phase ph | finish => cases h; rfl

/-- A pending byte is executed. -/
theorem settle_byte {s : State} {rs : Level} {v : Byte} (h : s.wire = some (.byte rs v)) :
    settle s = { s with rx := s.rx.takeByte s.par.codes rs v, wire := none } := by
  unfold settle
  simp only [h, receiveFrame]

/-- Nor does catching up. -/
theorem settle_with_queue (s : State) (q : List Action) : settle { s with queue := q } = { settle s with queue := q } := by
  obtain hw | ⟨f, hw⟩ := Option.eq_none_or_eq_some s.wire
  · rw [settle_quiet hw]
    exact settle_quiet hw
  · cases f with
    | latch rs n => rw [settle_latch hw]; exact settle_latch hw
    | garbled => rw [settle_garbled hw]; exact settle_garbled hw
    | byte rs v => rw [settle_byte hw]; exact settle_byte hw

/-- Some number of steps lead from `s` to `t`. -/
def Reaches (s t : State) : Prop := ∃ n, Host.Core.run core n s = .next t

theorem run_succ {s t : State} (h : step s = .next t) (n : Nat) :
    Host.Core.run core (n + 1) s = Host.Core.run core n t := by
  have hstep : core.step s = .next t := h
  simp only [Host.Core.run, hstep]

theorem Reaches.refl (s : State) : Reaches s s := ⟨0, rfl⟩

theorem Reaches.head {s t u : State} (h : step s = .next t) (hr : Reaches t u) : Reaches s u := by
  obtain ⟨n, hn⟩ := hr
  exact ⟨n + 1, (run_succ h n).trans hn⟩

/-- Catching up is one step for the pending frame and one for the byte it may complete (R143). -/
theorem reaches_of_settle {s u : State} (h : Reaches (settle s) u) : Reaches s u := by
  unfold settle at h
  split at h
  · exact h
  · rename_i f hf
    refine .head ((step_frame hf).trans (takeFrame_eq ..)) ?_
    dsimp only at h
    split at h
    · exact h
    · rename_i g hg
      exact .head ((step_frame hg).trans (takeFrame_eq ..)) h

/-- From any state with an empty queue, a pending frame or not, the list performed step by step reaches what the big step
reaches. -/
theorem reaches_drain {acts : List Action} {s t : State} (hq : s.queue = []) (h : drain acts s = .next t) :
    Reaches { s with queue := acts } t := by
  refine reaches_of_settle ?_
  rw [settle_with_queue]
  induction acts generalizing s with
  | nil =>
    cases h
    rw [← hq, ← settle_queue]
    exact .refl _
  | cons a rest ih =>
    obtain ⟨u, hu, h⟩ := andThen_eq_next h
    have hstep : step { settle s with queue := a :: rest } = .next { u with queue := rest } :=
      (step_item (s := { settle s with queue := a :: rest }) (settle_wire s) rfl).trans
        (perform_with_queue (s := settle s) rest hu)
    have huq : u.queue = [] := (kept_perform hu).queue.trans ((settle_queue s).trans hq)
    refine .head hstep (reaches_of_settle ?_)
    rw [settle_with_queue]
    exact ih huq h

/-- Settles O14: by induction on the list: one step per item, and one or two for the receiver to catch up. -/
theorem stepwiseAgreesWithBigStep : Obligations.StepwiseAgreesWithBigStep := fun _ _ _ hs h => reaches_drain hs.1 h

end Sys2Proof.Machine
end

section
/-! O18, O19, O20, O21, O23: registers by offset, `PINF`, and the strobe that `PINW` makes fall. Under the offsets of R9
an access by offset is the access to the register that stands there, whose reading and writing the model defines. -/

namespace Sys2Proof.Machine

open Sys2Proof.Spec

/-! ### Registers by offset (R40 to R44) -/

section
variable {s : State} (ho : s.par.offsets = Config.offsets)
include ho

theorem regRead_offset (r : Reg) (h : r.Exists) {w : Nat} (hw : r.wordOf Config.offsets = w)
    (k : Word → State → Outcome) : regRead w s k = readReg r s k := by
  rw [← hw, ← ho]
  exact regRead_wordOf h ho k

theorem regWrite_offset (r : Reg) (h : r.Exists) {w : Nat} (hw : r.wordOf Config.offsets = w) (v : Word) :
    regWrite w v s = writeReg r v s := by
  rw [← hw, ← ho]
  exact regWrite_wordOf h ho v

end

/-- A function word stands in its place (R21, R40). -/
theorem fsel_getElem? (s : State) {k : Nat} (h : k < 6) : s.fsel[k]? = some (s.fselWord k) := by
  simp [State.fselWord, h]

/-- Settles O18: each access by offset is the register's own; a level bit of an Output pin is its latch. -/
theorem functionAndLevelRegisters : Obligations.FunctionAndLevelRegisters := by
  intro s ho
  have hfsel (k : Nat) : Reg.wordOf Config.offsets (.fsel k) = k := Nat.zero_add k
  have hlev (b : Nat) : Reg.wordOf Config.offsets (.lev b) = 13 + b := rfl
  refine ⟨fun k next hk => ?read, fun k v hk => ?write, fun b next hb => ?level, fun b v hb => ?levelWrite⟩
  case read =>
    refine ⟨_, fsel_getElem? s hk, ?_⟩
    rw [regRead_offset ho (.fsel k) hk (hfsel k), readReg, ho, hfsel]
  case write =>
    refine ⟨_, regWrite_offset ho (.fsel k) hk (hfsel k) v, ?_, fun j hj => ?_, ?_⟩
    · simp [hk]
    · simp [hj.symm]
    · rw [ho, hfsel]
  case level =>
    refine ⟨s.levWord (Config.levelDraw s.draws) b, ?_, fun i hi hp hout => ?_⟩
    · rw [regRead_offset ho (.lev b) hb (hlev b), readReg, ho, hlev]
    · rw [State.levWord, getLsbD_bitsOf, decide_eq_true hi, Bool.true_and, level_output _ hp hout]
  case levelWrite => rw [regWrite_offset ho (.lev b) hb (hlev b), writeReg, ho, hlev]

/-- Write-one-to-set, latch by latch (R41). -/
theorem getLsbD_set {b p : Nat} (hb : b < 2) (hp : p < 54) (out : BitVec 54) (v : Word) :
    (out ||| bankBits b v).getLsbD p = if p / 32 = b ∧ v.getLsbD (p % 32) then true else out.getLsbD p := by
  rw [BitVec.getLsbD_or, getLsbD_bankBits b v p hb hp]
  by_cases hbank : p / 32 = b <;> cases hbit : v.getLsbD (p % 32) <;> simp [hbank]

/-- Write-one-to-clear, latch by latch (R42). -/
theorem getLsbD_clear {b p : Nat} (hb : b < 2) (hp : p < 54) (out : BitVec 54) (v : Word) :
    (out &&& ~~~bankBits b v).getLsbD p = if p / 32 = b ∧ v.getLsbD (p % 32) then false else out.getLsbD p := by
  rw [BitVec.getLsbD_and, BitVec.getLsbD_not, getLsbD_bankBits b v p hb hp]
  by_cases hbank : p / 32 = b <;> cases hbit : v.getLsbD (p % 32) <;> simp [hbank, hp]

/-- Settles O19: each access by offset is the register's own, and the latches are read off bit by bit. -/
theorem setAndClearRegisters : Obligations.SetAndClearRegisters := by
  intro b v s next hb ho
  have hset : Reg.wordOf Config.offsets (.set b) = 7 + b := rfl
  have hclr : Reg.wordOf Config.offsets (.clr b) = 10 + b := rfl
  refine ⟨⟨_, regWrite_offset ho (.set b) hb hset v, ?_, fun p hp => getLsbD_set hb hp s.out v⟩,
    ⟨_, regWrite_offset ho (.clr b) hb hclr v, ?_, fun p hp => getLsbD_clear hb hp s.out v⟩, ?_, ?_⟩
  · rw [ho, hset]
  · rw [ho, hclr]
  · rw [regRead_offset ho (.set b) hb hset, readReg, ho, hset]
  · rw [regRead_offset ho (.clr b) hb hclr, readReg, ho, hclr]

/-- Settles O20: no register stands at any other offset. -/
theorem noOtherRegisters : Obligations.NoOtherRegisters := by
  intro w v s next ho hw
  simp only [List.mem_cons, List.not_mem_nil, or_false, not_or] at hw
  have hnone : regAt s.par.offsets w = none := by
    simp only [ho, regAt, Config.offsets]
    split
    · rfl
    · rw [if_neg (by omega), if_neg (by omega), if_neg (by omega), if_neg (by omega)]
  exact ⟨by rw [regRead, hnone], by rw [regWrite, hnone]⟩

/-! ### `PINF` and the falling strobe (R81, R95, R193) -/

theorem decode_pinf_word (p : BitVec 6) (m : PinFn) :
    decode (.request (0xB000 ||| (match m with | .output => 0x100#16 | .input => 0#16) ||| p.zeroExtend 16)) =
      .ok (.pinf p m) := by
  revert p
  cases m <;> decide

/-- Only an LCD pin made Input marks the receiver (R193; log 18). -/
theorem loosen_rx (s : State) (p : Nat) (m : PinFn) :
    (s.loosen p m).rx = if m = .input ∧ p ∈ lcdPins s.cfg then { s.rx with loose := true } else s.rx := by
  have hmem : s.cfg.pins.contains p = true ↔ p ∈ lcdPins s.cfg := List.contains_iff_mem
  split
  next h =>
    rw [State.loosen, hmem.2 h.2, h.1]
    simp
  next h =>
    have hno : (m == .input && s.cfg.pins.contains p) = false :=
      Bool.eq_false_iff.2 fun hc => by
        rw [Bool.and_eq_true, hmem, beq_iff_eq] at hc
        exact h hc
    rw [State.loosen, hno, Bool.or_false]

/-- Settles O21: the next state of `PINF` field by field; only an LCD pin made Input marks the receiver. -/
theorem pinfResult : Obligations.PinfResult := by
  intro p m
  refine ⟨pinRequested_of_checks (decode_pinf_word p m) rfl, fun s hs hp => ?_⟩
  have hk : p.toNat / 10 < 6 := by omega
  have hnew (v : Word) : (s.fsel.setIfInBounds (p.toNat / 10) v)[p.toNat / 10]? = some v := by simp [hk]
  refine ⟨_, _, fsel_getElem? s hk, execPinf_eq hs.1.1 hs.1.2 hs.2 p m hp, ⟨?_, ?_⟩, fun k hk' => ?_⟩
  · cases m <;> exact hnew _
  · rw [loosen_rx]
    cases m <;> rfl
  · simp [hk'.symm]

theorem allDriven_iff (s : State) : s.allDriven = true ↔ ∀ q ∈ lcdPins s.cfg, s.isOutput q = true := List.all_eq_true

/-- Settles O23: the falling strobe hands the lines over as one latch, driven or not. -/
theorem strobeFallLatches : Obligations.StrobeFallLatches := by
  intro p s hs hp hstrb hhigh
  refine ⟨_, execPinw_fall hs.1.1 hs.1.2 hs.2 p hp hstrb hhigh, getLsbD_setLatchBit_same _ _ _ hp, hs.1.2, ?_⟩
  simp only [sent_rx, ← allDriven_iff, lineInput, sent_out]
  split <;> rfl

end Sys2Proof.Machine
end

section
/-! O45, O46, O48, O49, O50, O51, O52, O53: the receiver's own instructions. A command of a Synced receiver is one
update and 2000 us owed (R138); a latch either ends the handshake or arrives and is paired, and one that arrives at an
Unknown receiver, too early or over a loose pin, leaves it Unknown (R143, R153, R193). -/

namespace Sys2Proof.Machine

open Sys2Proof.Spec

variable {κ : Codes}

/-! ### Commands and data (R138, R146 to R151) -/

/-- A command of a Synced receiver, as the spec writes what it leaves. -/
theorem command_commanded {s : State} {y : Synced} (hy : s.rx.sync = some y) (f : Synced → Option Synced) :
    ({ s with rx := s.rx.command 2000 f } : State) = commanded (f y) s := by
  rw [command_synced _ _ hy, commanded]

/-- A command that may shift the display. -/
theorem shift_command_synced {r : Receiver} {y : Synced} (hy : r.sync = some y) (b : Bool) (k : Nat)
    (f : Synced → Option Synced) :
    (r.shift b).command k f = { r with sync := f y, due := k, shifted := r.shifted || b } := by
  have hsync : (r.shift b).sync = some y := hy
  rw [command_synced k f hsync, Receiver.shift, hy, Option.isSome_some, Bool.and_true]

/-- The view does not depend on the address counter and the entry mode (R154). -/
theorem shown_congr {s t : State} {y z : Synced} (hs : s.rx.sync = some y) (ht : t.rx.sync = some z)
    (hz : z = { y with ac := z.ac, inc := z.inc }) (hcfg : t.cfg = s.cfg) (hpar : t.par = s.par)
    (hshift : t.rx.shifted = s.rx.shifted) (c r : Nat) : t.shown c r = s.shown c r := by
  rw [State.shown, State.shown, hs, ht, hcfg, hpar, hshift, hz]

/-- A command that may shift the display, to a Synced receiver: the whole next state, and what is shown after it
(R148, R151, R154). -/
theorem shift_effect {s t : State} {y z : Synced} {b : Bool} {f : Synced → Option Synced} (hy : s.rx.sync = some y)
    (ht : t = { s with rx := (s.rx.shift b).command 2000 f }) (hf : f y = some z)
    (hz : z = { y with ac := z.ac, inc := z.inc }) :
    t = { commanded (some z) s with rx := t.rx } ∧
      t.rx = { (commanded (some z) s).rx with shifted := s.rx.shifted || b } ∧
      (b = true → ∀ c r, t.shown c r = none) ∧ (b = false → ∀ c r, t.shown c r = s.shown c r) := by
  rw [shift_command_synced hy, hf] at ht
  subst ht
  refine ⟨rfl, rfl, ?_, ?_⟩
  · rintro rfl
    exact shown_of_shifted (Bool.or_true _)
  · rintro rfl
    exact shown_congr hy rfl hz rfl rfl (Bool.or_false _)

/-- Settles O45: both are one command; the cells are those of `Memory.filled`. -/
theorem clearAndHomeEffect : Obligations.ClearAndHomeEffect := by
  intro s y hy
  refine ⟨⟨_, congrArg _ (command_commanded hy _), wf_filled _, fun a ha => ?_⟩, congrArg _ (command_commanded hy _)⟩
  rw [read_filled, if_pos ha, Config.rxBlank]

/-- Settles O46: both are one command that may shift the display. -/
theorem entryAndShiftEffect : Obligations.EntryAndShiftEffect := fun _ _ _ _ _ _ hy =>
  ⟨⟨_, rfl, shift_effect hy rfl rfl rfl⟩, ⟨_, rfl, shift_effect hy rfl rfl rfl⟩⟩

theorem getLsbD_ctlOfFlags (d c b : Bool) :
    (ctlOfFlags d c b).getLsbD 2 = d ∧ (ctlOfFlags d c b).getLsbD 1 = c ∧ (ctlOfFlags d c b).getLsbD 0 = b := by
  revert d c b
  decide

/-- Settles O48: each is one command, which for `DL` leaves nothing known. -/
theorem controlAndFunctionEffect : Obligations.ControlAndFunctionEffect := fun d c b _ _ _ _ hy =>
  ⟨⟨_, congrArg _ (command_commanded hy _), getLsbD_ctlOfFlags d c b⟩, congrArg _ (command_commanded hy _),
    congrArg _ (command_commanded hy _)⟩

/-- Settles O49: the address command, and the data byte with its cell, its counter and no wait owed. -/
theorem addressAndDataEffect : Obligations.AddressAndDataEffect := by
  intro a v s y hy
  have hdata : s.rx.data v = _ := command_synced 0 _ hy
  refine ⟨congrArg _ (command_commanded hy _), ?_⟩
  rw [exec, execLcdData, hdata]
  refine ⟨_, rfl, rfl, fun k hk x => ?stored, fun hk x => ?unknown, fun k hk hi => ?counts, fun h => ?stops⟩
  case stored => simp only [hk, read_write]
  case unknown => simp only [hk, read_unknown]
  case counts =>
    refine ⟨k + 1, by simp only [hi, if_true, hk, Option.map_some], ?_⟩
    exact BitVec.toNat_add k 1
  case stops =>
    obtain hk | hi := h
    · simp only [hk, Option.map_none, ite_self]
    · exact if_neg hi

/-! ### What a latch leaves (R143, R153, R155) -/

theorem counted_eq_three_iff (r : Receiver) : r.counted = 3 ↔ r.progress = 3 ∧ r.loose = false := by
  rw [Receiver.counted]
  cases r.loose <;> simp

/-- When the handshake ends, in the fields of the receiver (R155; log 16). -/
theorem handshakeEnds_iff_fields (r : Receiver) (rs : Level) (n : Nibble) :
    r.handshakeEnds rs n = true ↔ rs = false ∧ n = 0x2 ∧ r.progress = 3 ∧ r.loose = false ∧ 35000 ≤ r.elapsed := by
  rw [handshakeEnds_iff, counted_eq_three_iff, and_assoc, Config.tInitUs]

theorem takeLatch_ends {r : Receiver} {rs : Level} {n : Nibble} (h : r.handshakeEnds rs n = true) :
    r.takeLatch rs n = (r.synchronise, none) := if_pos h

/-- A latch that finds nothing known when it has arrived only keeps the books. -/
theorem takeLatch_lost {r : Receiver} {rs : Level} {n : Nibble} (he : r.handshakeEnds rs n = false)
    (h : r.elapsed < r.due ∨ r.loose = true ∨ r.sync = none) : r.takeLatch rs n = (r.arrive rs n, none) ∧
      (r.arrive rs n).sync = none := by
  have hlost : (r.arrive rs n).sync = none := by
    rw [Receiver.arrive]
    split
    · rfl
    · tauto
  rw [takeLatch_ordinary he, Receiver.pair, hlost]
  exact ⟨rfl, rfl⟩

/-- A latch in time, every pin driven, leaves what is known for the pairing. -/
theorem arrive_sync {r : Receiver} (rs : Level) (n : Nibble) (hd : r.due ≤ r.elapsed) (hl : r.loose = false) :
    (r.arrive rs n).sync = r.sync := if_neg (by simp [hl, hd])

section
variable {r : Receiver} {y : Synced} {rs : Level} (n : Nibble) (hy : r.sync = some y)
include hy

theorem pair_first (hh : y.half = none) :
    r.pair rs n = ({ r with sync := some { y with half := some (rs, n) } }, none) := by
  simp only [Receiver.pair, hy, hh]

theorem pair_second {m : Nibble} (hh : y.half = some (rs, m)) :
    r.pair rs n = ({ r with sync := some { y with half := none } }, some (rs, joinNibbles m n)) := by
  simp only [Receiver.pair, hy, hh, if_true]

theorem pair_mismatch {k : Level} {m : Nibble} (hh : y.half = some (k, m)) (hk : k ≠ rs) :
    r.pair rs n = (r.lose, none) := by
  simp only [Receiver.pair, hy, hh, if_neg hk]

end

theorem pair_due (r : Receiver) (rs : Level) (n : Nibble) : (r.pair rs n).1.due = r.due := by
  unfold Receiver.pair Receiver.lose
  split
  · rfl
  · split
    · rfl
    · split <;> rfl

/-- The books after a latch that does not end the handshake (R155, R186). -/
theorem takeLatch_book {r : Receiver} {rs : Level} {n : Nibble} (he : r.handshakeEnds rs n = false) :
    (r.takeLatch rs n).1.progress = r.nextProgress rs n ∧ (r.takeLatch rs n).1.elapsed = 0 ∧
      (r.takeLatch rs n).1.due = 0 ∧ (r.takeLatch rs n).1.loose = false := by
  obtain ⟨hprogress, helapsed, hloose⟩ := pair_book (r.arrive rs n) rs n
  rw [takeLatch_ordinary he]
  exact ⟨hprogress, helapsed, pair_due _ rs n, hloose⟩

/-- The count after a latch, in the fields of the receiver (log 16). -/
theorem nextProgress_eq (r : Receiver) (rs : Level) (n : Nibble) :
    r.nextProgress rs n = if rs = false ∧ n = 0x3 then
      if 0 < r.progress ∧ r.loose = false ∧ 35000 ≤ r.elapsed then min 3 (r.progress + 1) else 1
    else 0 := by
  cases hl : r.loose <;> simp [Receiver.nextProgress, Receiver.counted, hl, Config.tInitUs]

theorem step_latch {s : State} {rs : Level} {n : Nibble} (hw : s.wire = some (.latch rs n)) :
    step s = .next { s with
      rx := (s.rx.takeLatch rs n).1, wire := (s.rx.takeLatch rs n).2.map fun b => .byte b.1 b.2 } := by
  rw [step_frame hw, takeFrame_eq, receiveFrame]

/-! ### Unknown, and lost (R142, R143, R152, R153) -/

/-- A wire instruction that is a byte does nothing to an Unknown receiver. -/
theorem execute_unknown {r : Receiver} {i : Instr} (hi : isCommand i = true ∨ ∃ v, i = .lcdData v)
    (h : r.sync = none) : r.execute κ i = r := by
  have hcommand (k : Nat) (f : Synced → Option Synced) : r.command k f = r := command_unknown k f h
  have hshift (b : Bool) : r.shift b = r := by
    have hkeep : (r.shifted || (b && r.sync.isSome)) = r.shifted := by simp [h]
    rw [Receiver.shift, hkeep]
  obtain hi | ⟨v, rfl⟩ := hi
  · cases i with
    | lcdClear | lcdHome | lcdCtrl _ _ _ | lcdFunc _ _ _ | lcdDdram _ => exact hcommand _ _
    | lcdEntry _ sh => exact (congrArg (Receiver.command _ _) (hshift sh)).trans (hcommand _ _)
    | lcdCdshift sc _ => exact (congrArg (Receiver.command _ _) (hshift sc)).trans (hcommand _ _)
    | lcdData _ | lcdFunc8Nibble | lcdFunc4Nibble | init | cmd _ | npair _ | nibc _ | putc _ | pos _ _ | clear
    | home | disp _ | curs _ | blink _ | pinf _ _ | pinw _ _ | pinr _ => cases hi
  · exact hcommand _ _

theorem exec_byte {i : Instr} (hi : isCommand i = true ∨ ∃ v, i = .lcdData v) (s : State) :
    exec i s = .next { s with rx := s.rx.execute s.par.codes i } := by
  refine exec_command_rx i s ?_
  obtain hi | ⟨v, rfl⟩ := hi
  · cases i with
    | lcdClear | lcdHome | lcdEntry _ _ | lcdCtrl _ _ _ | lcdCdshift _ _ | lcdFunc _ _ _ | lcdDdram _ => rfl
    | lcdData _ | lcdFunc8Nibble | lcdFunc4Nibble | init | cmd _ | npair _ | nibc _ | putc _ | pos _ _ | clear
    | home | disp _ | curs _ | blink _ | pinf _ _ | pinw _ _ | pinr _ => cases hi
  · rfl

/-- Settles O50: a byte does nothing to an Unknown receiver, and a latch only keeps the books unless it ends the
handshake. -/
theorem unknownAbsorbs : Obligations.UnknownAbsorbs := by
  refine ⟨fun i s hi h => ?byte, fun rs n s hw h => ?latch, fun s hw => ?garbled⟩
  case byte => rw [exec_byte hi, execute_unknown hi h]
  case latch =>
    rw [← handshakeEnds_iff_fields]
    refine ⟨_, step_latch hw, ?_, shifted_takeLatch .., ?_⟩
    all_goals cases he : s.rx.handshakeEnds rs n with
      | true => simp [takeLatch_ends he, Receiver.synchronise]
      | false =>
        obtain ⟨htake, hsync⟩ := takeLatch_lost he (.inr (.inr h))
        simp [htake, hsync]
  case garbled => exact ⟨_, (step_frame hw).trans (takeFrame_eq ..), rfl, rfl, rfl⟩

/-- Settles O51: a latch in time that does not end the handshake is paired with what is known. -/
theorem latchesPairIntoBytes : Obligations.LatchesPairIntoBytes := by
  intro rs n s y hw hy hd hl hno
  have he : s.rx.handshakeEnds rs n = false := Bool.eq_false_iff.2 fun h => by
    rw [handshakeEnds_iff_fields] at h
    tauto
  have hsync : (s.rx.arrive rs n).sync = some y := (arrive_sync rs n hd hl).trans hy
  refine ⟨_, step_latch hw, rfl, shifted_takeLatch .., fun hh => ?first, fun m hh => ?second, fun k m hh hk => ?mismatch⟩
  all_goals rw [takeLatch_ordinary he]
  case first => rw [pair_first n hsync hh]; exact ⟨rfl, rfl⟩
  case second => rw [pair_second n hsync hh]; exact ⟨rfl, rfl⟩
  case mismatch => rw [pair_mismatch n hsync hh hk]; exact ⟨rfl, rfl⟩

/-- Settles O52: by the command table the byte decodes to nothing, and then the receiver is lost. -/
theorem reservedCommandLoses : Obligations.ReservedCommandLoses := by
  intro v s hw hcodes hv
  have hdec : decodeCommandWith s.par.codes v = none := by
    obtain ⟨-, -, -, -, -, -, -, hreserved⟩ := commandTable v
    have herr := hreserved.1 hv
    rw [decode, decodeWith] at herr
    rw [hcodes]
    cases hd : decodeCommandWith Config.codes v with
    | none => rfl
    | some i => rw [hd] at herr; cases herr
  rw [step_frame hw, takeFrame_eq, receiveFrame, Receiver.takeByte, if_neg Bool.false_ne_true]
  rw [show decodeCommandWith _ v = none from hdec]
  rfl

/-- Every command of a Synced receiver owes `T_CMD_US` (R187 O4, O5). -/
theorem execute_due {r : Receiver} {y : Synced} {i : Instr} (hi : isCommand i = true) (hy : r.sync = some y) :
    (r.execute κ i).due = 2000 := by
  have hdue {r : Receiver} (k : Nat) (f : Synced → Option Synced) (hy : r.sync = some y) : (r.command k f).due = k := by
    rw [command_synced k f hy]
  cases i with
  | lcdClear | lcdHome | lcdCtrl _ _ _ | lcdFunc _ _ _ | lcdDdram _ => exact hdue _ _ hy
  | lcdEntry _ sh => exact hdue (r := r.shift sh) _ _ hy
  | lcdCdshift sc _ => exact hdue (r := r.shift sc) _ _ hy
  | lcdData _ | lcdFunc8Nibble | lcdFunc4Nibble | init | cmd _ | npair _ | nibc _ | putc _ | pos _ _ | clear
  | home | disp _ | curs _ | blink _ | pinf _ _ | pinw _ _ | pinr _ => cases hi

/-- Settles O53: the books after each kind of latch and byte. -/
theorem settlingEnforced : Obligations.SettlingEnforced := by
  refine ⟨fun rs n s hw hearly hno => ?early, fun rs n s hw hno => ?books, fun i s y hi hy => ?command,
    fun v s y hy => ?data, fun s hp hl he => ?fourth⟩
  case early =>
    have he : s.rx.handshakeEnds rs n = false := Bool.eq_false_iff.2 fun h => by
      rw [handshakeEnds_iff_fields] at h
      tauto
    obtain ⟨htake, hsync⟩ := takeLatch_lost he (.inl hearly)
    refine ⟨_, step_latch hw, ?_⟩
    rw [htake]
    exact ⟨rfl, hsync⟩
  case books =>
    have he : s.rx.handshakeEnds rs n = false := Bool.eq_false_iff.2 fun h => hno ((handshakeEnds_iff_fields ..).1 h)
    obtain ⟨hprogress, helapsed, hdue, hloose⟩ := takeLatch_book he
    exact ⟨_, step_latch hw, helapsed, hdue, hloose, hprogress.trans (nextProgress_eq ..)⟩
  case command =>
    obtain ⟨-, helapsed, -⟩ := execute_book (κ := s.par.codes) s.rx i
    exact ⟨_, exec_byte (.inl hi) s, execute_due hi hy, helapsed⟩
  case data =>
    have hdata : s.rx.data v = _ := command_synced 0 _ hy
    rw [exec, execLcdData, hdata]
    exact ⟨_, rfl, rfl, rfl⟩
  case fourth =>
    have hends := takeLatch_ends ((handshakeEnds_iff_fields s.rx false 0x2).2 ⟨rfl, rfl, hp, hl, he⟩)
    refine ⟨_, rfl, ?_⟩
    rw [receiveFrame, hends]
    exact ⟨rfl, rfl⟩

end Sys2Proof.Machine
end

section
/-! O36, O37 and O54: the handshake (R155), what `INIT` leaves in the receiver, and the host's own pin operations. -/

namespace Sys2Proof.Machine

open Sys2Proof.Spec

variable {κ : Codes}

/-! ### Three latches (Low, 0x3), and the fourth (R155) -/

/-- The receiver after a latch (Low, 0x3). -/
def Receiver.three (r : Receiver) : Receiver := (r.takeLatch false 0x3).1

/-- Such a latch never ends the handshake, and its books say whether it counts on (log 16). -/
theorem three_book (r : Receiver) :
    r.three.progress = (if 0 < r.progress ∧ r.loose = false ∧ 35000 ≤ r.elapsed then min 3 (r.progress + 1) else 1) ∧
      r.three.elapsed = 0 ∧ r.three.loose = false ∧ r.three.shifted = r.shifted ∧ (r.sync = none → r.three.sync = none) := by
  have he : r.handshakeEnds false 0x3 = false := handshakeEnds_other (.inr (by decide))
  obtain ⟨hprogress, helapsed, -, hloose⟩ := takeLatch_book he
  rw [nextProgress_eq, if_pos ⟨rfl, rfl⟩] at hprogress
  refine ⟨hprogress, helapsed, hloose, shifted_takeLatch r false 0x3, fun h => ?_⟩
  obtain ⟨htake, hsync⟩ := takeLatch_lost he (.inr (.inr h))
  rw [Receiver.three, htake]
  exact hsync

theorem three_pos (r : Receiver) : 0 < r.three.progress := by
  rw [(three_book r).1]
  split <;> omega

/-- The next such latch counts on exactly if the time was kept (R155). -/
theorem three_wait_three (r : Receiver) (w : Nat) :
    (r.three.wait w).three.progress = if 35000 ≤ w then min 3 (r.three.progress + 1) else 1 := by
  obtain ⟨-, helapsed, hloose, -, -⟩ := three_book r
  have hwait : (r.three.wait w).elapsed = w := by rw [Receiver.wait, helapsed, Nat.zero_add]
  have hkept : (r.three.wait w).loose = false := hloose
  have hpos : 0 < (r.three.wait w).progress := three_pos r
  rw [(three_book _).1, hwait]
  simp only [hkept, hpos, true_and]
  rfl

/-- The receiver after three such latches with `w1` and `w2` between them. -/
def Receiver.threeTimes (w1 w2 : Nat) (r : Receiver) : Receiver := ((r.three.wait w1).three.wait w2).three

/-- Three latches count as three exactly if both times between them were kept. -/
theorem threeTimes_progress (w1 w2 : Nat) (r : Receiver) :
    (r.threeTimes w1 w2).progress = 3 ↔ 35000 ≤ w1 ∧ 35000 ≤ w2 := by
  have hpos := three_pos r
  rw [Receiver.threeTimes, three_wait_three, three_wait_three]
  split
  · split <;> omega
  · omega

theorem threeTimes_shifted (w1 w2 : Nat) (r : Receiver) : (r.threeTimes w1 w2).shifted = r.shifted :=
  calc (r.threeTimes w1 w2).shifted
    _ = (r.three.wait w1).three.shifted := shifted_takeLatch ..
    _ = r.three.shifted := shifted_takeLatch ..
    _ = r.shifted := shifted_takeLatch ..

theorem threeTimes_unknown (w1 w2 : Nat) {r : Receiver} (h : r.sync = none) : (r.threeTimes w1 w2).sync = none := by
  have hthree {r : Receiver} (h : r.sync = none) : r.three.sync = none := (three_book r).2.2.2.2 h
  exact hthree (r := (r.three.wait w1).three.wait w2) (hthree (r := r.three.wait w1) (hthree h))

/-- The three instructions with their waits, and what the receiver is after them. -/
theorem exec_three (s : State) (w1 w2 : Nat) : ∃ t1 t2 t3 wire,
    exec .lcdFunc8Nibble s = .next t1 ∧
    exec .lcdFunc8Nibble { t1 with rx := t1.rx.wait w1 } = .next t2 ∧
    exec .lcdFunc8Nibble { t2 with rx := t2.rx.wait w2 } = .next t3 ∧
    t3 = { s with rx := s.rx.threeTimes w1 w2, wire := wire } :=
  ⟨_, _, _, _, rfl, rfl, rfl, rfl⟩

/-- The fourth latch ends the handshake exactly if all three times were kept and no pin is loose (R155). -/
theorem fourth_ends_iff (w1 w2 w3 : Nat) (loose : Bool) (r : Receiver) :
    Receiver.handshakeEnds false 0x2 { (r.threeTimes w1 w2).wait w3 with loose := loose } = true ↔
      (35000 ≤ w1 ∧ 35000 ≤ w2) ∧ loose = false ∧ 35000 ≤ w3 := by
  have helapsed : (r.threeTimes w1 w2).elapsed = 0 := (three_book _).2.1
  rw [handshakeEnds_iff_fields]
  simp only [Receiver.wait, threeTimes_progress, helapsed, Nat.zero_add, true_and]

/-- Settles O37: the fourth latch ends the handshake only if all three times were kept and no pin is loose. -/
theorem shortHandshakeFails : Obligations.ShortHandshakeFails := by
  intro s w1 w2 w3 loose hs hshort
  obtain ⟨t1, t2, t3, wire, h1, h2, h3, rfl⟩ := exec_three s w1 w2
  refine ⟨t1, t2, _, _, h1, h2, h3, rfl, ?_⟩
  have he := mt (fourth_ends_iff w1 w2 w3 loose s.rx).1 fun ⟨⟨hw1, hw2⟩, hloose, hw3⟩ => by
    obtain h | h | h | h := hshort
    · omega
    · omega
    · omega
    · rw [h] at hloose
      cases hloose
  obtain ⟨htake, hsync⟩ := takeLatch_lost (Bool.eq_false_iff.2 he) (.inr (.inr (threeTimes_unknown w1 w2 hs)))
  rw [receiveFrame, htake]
  exact hsync

/-- With all three times kept the fourth latch ends the handshake (R155). -/
theorem handshake_synchronises (s : State) {w1 w2 w3 : Nat} (hw1 : 35000 ≤ w1) (hw2 : 35000 ≤ w2) (hw3 : 35000 ≤ w3) :
    ∃ t1 t2 t3 t4,
    exec .lcdFunc8Nibble s = .next t1 ∧
    exec .lcdFunc8Nibble { t1 with rx := t1.rx.wait w1 } = .next t2 ∧
    exec .lcdFunc8Nibble { t2 with rx := t2.rx.wait w2 } = .next t3 ∧
    exec .lcdFunc4Nibble { t3 with rx := t3.rx.wait w3 } = .next t4 ∧
    t4 = { s with rx := Receiver.mk (some Synced.fresh) 0 0 2000 false s.rx.shifted, wire := none } := by
  obtain ⟨t1, t2, t3, wire, h1, h2, h3, rfl⟩ := exec_three s w1 w2
  have hloose : (s.rx.threeTimes w1 w2).loose = false := (three_book _).2.2.1
  have hends := (fourth_ends_iff w1 w2 w3 false s.rx).2 ⟨⟨hw1, hw2⟩, rfl, hw3⟩
  have hr : ({ (s.rx.threeTimes w1 w2).wait w3 with loose := false } : Receiver) = (s.rx.threeTimes w1 w2).wait w3 := by
    rw [← hloose]; rfl
  rw [hr] at hends
  refine ⟨t1, t2, _, _, h1, h2, h3, rfl, ?_⟩
  rw [receiveFrame, takeLatch_ends hends, ← threeTimes_shifted w1 w2 s.rx]
  rfl

/-! ### Bytes one after the other (R143, R188) -/

/-- The receiver is Synced, between bytes, and can take the next one (R188). -/
structure Hears (r : Receiver) (y : Synced) : Prop where
  sync : r.sync = some y
  half : y.half = none
  settled : r.due ≤ r.elapsed + 50
  loose : r.loose = false

theorem Hears.wait {r : Receiver} {y : Synced} (h : Hears r y) (n : Nat) : Hears (r.wait n) y :=
  ⟨h.sync, h.half, Nat.le_trans h.settled (by simp [Receiver.wait]), h.loose⟩

/-- A command with its settling, the handshake not ending within it. -/
theorem Hears.command {r : Receiver} {y z : Synced} {b : Byte} {i : Instr} {f : Synced → Option Synced}
    (h : Hears r y) (he : (r.wait 50).handshakeEnds false (hiNibble b) = false) (hd : decodeCommandWith κ b = some i)
    (hx : ∀ r : Receiver, r.execute κ i = r.command 2000 f) (hf : f y = some z) (hz : z.half = none) :
    Hears (Receiver.feed κ (commandInputs true b) r) z := by
  obtain ⟨p, hp⟩ := feed_byte (κ := κ) false b h.sync h.half h.settled h.loose he
  rw [commandInputs, feed_append, hp, takeByte_command hd hx hf]
  exact ⟨rfl, hz, by simp [Receiver.wait, Config.tCmdUs], rfl⟩

/-- The same for a command whose high nibble cannot end a handshake. -/
theorem Hears.other {r : Receiver} {y z : Synced} {b : Byte} {i : Instr} {f : Synced → Option Synced}
    (h : Hears r y) (hb : hiNibble b ≠ 2) (hd : decodeCommandWith κ b = some i)
    (hx : ∀ r : Receiver, r.execute κ i = r.command 2000 f) (hf : f y = some z) (hz : z.half = none) :
    Hears (Receiver.feed κ (commandInputs true b) r) z :=
  h.command (handshakeEnds_other (.inr hb)) hd hx hf hz

theorem shift_false (r : Receiver) : r.shift false = r := by
  rw [Receiver.shift, Bool.false_and, Bool.or_false]

/-- A Display control command carries its mask (R68, R149), and its high nibble is 0. -/
theorem decode_controlByte (v : BitVec 3) :
    decodeCommandWith Config.codes (controlByte Config.codes v) =
      some (.lcdCtrl (v.getLsbD 2) (v.getLsbD 1) (v.getLsbD 0)) ∧
    ctlOfFlags (v.getLsbD 2) (v.getLsbD 1) (v.getLsbD 0) = v ∧ hiNibble (controlByte Config.codes v) ≠ 2 := by
  revert v
  decide

theorem Hears.control {r : Receiver} {y : Synced} (h : Hears r y) (v : BitVec 3) :
    Hears (Receiver.feed Config.codes (commandInputs true (controlByte Config.codes v)) r) { y with ctl := some v } := by
  obtain ⟨hd, hv, hb⟩ := decode_controlByte v
  refine h.other hb hd (fun _ => rfl) ?_ h.half
  rw [hv]

/-- What the receiver holds after parts 2 to 7 of `INIT` with two rows (R97 to R104). -/
def afterClear : Synced :=
  { half := none, ac := some 0, ddram := Memory.filled 0x20, inc := none, multi := some true, ctl := some 0b100 }

theorem initBytes_two_rows {c : Cfg} (h : c.rows = 2) (ctl : BitVec 3) : ∃ v1 v2 : BitVec 3,
    initBytes c Config.codes ctl = [0x28, controlByte Config.codes v1, controlByte Config.codes v2,
      controlByte Config.codes 0b100] := by
  have hlast : blinkOff Config.codes ctl = 0b100 := by revert ctl; decide
  refine ⟨displayOn Config.codes ctl, cursorOff Config.codes ctl, ?_⟩
  rw [initBytes, h, ← hlast]
  rfl

/-- `INIT` brings any receiver to `afterClear`, and then sends the tail (R155, R102 to R105). -/
theorem feed_init {c : Cfg} {par : Params} (hk : par.codes = Config.codes) (hrows : c.rows = 2) (ctl : BitVec 3)
    (out : BitVec 54) (r : Receiver) : ∃ r', Hears r' afterClear ∧
      Receiver.feed Config.codes (initInputs c par ctl out) r =
        Receiver.feed Config.codes (par.initTail.flatMap (commandInputs true)) r' := by
  obtain ⟨v1, v2, hbytes⟩ := initBytes_two_rows hrows ctl
  have hfirst : hiNibble (par.codes.func ||| par.codes.funcDl) = 0x3 := by rw [hk]; rfl
  have hlast : hiNibble par.codes.func = 0x2 := by rw [hk]; rfl
  obtain ⟨shifted, hshake⟩ := feed_handshake (κ := Config.codes) (Receiver.feed Config.codes (setUpInputs c out) r)
  rw [initInputs, hfirst, hlast, hk, hbytes]
  refine ⟨_, ?_, feed_append _ _ r⟩
  simp only [feed_append] at hshake
  simp only [List.flatMap_cons, List.flatMap_nil, List.append_nil, feed_append, hshake]
  have hfresh : Hears (Receiver.mk (some Synced.fresh) 0 35050 2000 false shifted) Synced.fresh :=
    ⟨rfl, rfl, Nat.le_add_right 2000 33100, rfl⟩
  have hmulti := hfresh.command (κ := Config.codes) (b := 0x28) (i := .lcdFunc false true false) rfl rfl
    (fun _ => rfl) rfl rfl
  have hctl := ((hmulti.control v1).control v2).control 0b100
  have hclear := hctl.other (κ := Config.codes) (b := 0x01) (i := .lcdClear) (by decide) rfl (fun _ => rfl) rfl rfl
  exact hclear.wait _

/-- `INIT` with a tail that begins with 0x06 (R105, R148): what the receiver takes after it is the rest of the tail. -/
theorem exec_init_entry {s : State} (hs : Startable s) (hk : s.par.codes = Config.codes) (hrows : s.cfg.rows = 2)
    {rest : List Byte} (htail : s.par.initTail = 0x06 :: rest) : ∃ t r, exec .init s = .next t ∧
      Hears r { afterClear with inc := some true } ∧
      t.rx = Receiver.feed Config.codes (rest.flatMap (commandInputs true)) r := by
  obtain ⟨r, hr, hfeed⟩ := feed_init hk hrows s.ctl s.out s.rx
  have hentry := hr.other (κ := Config.codes) (b := 0x06) (i := .lcdEntry true false) (by decide) rfl
    (fun r => congrArg (Receiver.command _ _) (shift_false r)) rfl rfl
  refine ⟨_, _, exec_init_eq hs, hentry, ?_⟩
  simp only [hk, hfeed, htail, List.flatMap_cons, feed_append]

/-- Settles O36: the handshake by counting, then the bytes of `INIT` one after the other. -/
theorem handshakeSynchronises : Obligations.HandshakeSynchronises := by
  have hread : ∀ a, a < 128 → (Memory.filled 0x20).read a = some 0x20 := fun a ha => by rw [read_filled, if_pos ha]
  refine ⟨fun s _ _ _ => handshake_synchronises s, fun s hs hk htail hrows => ?shift, fun s hs hk htail hrows => ?entry⟩
  all_goals obtain ⟨t, r, ht, hr, hrx⟩ := exec_init_entry hs hk hrows htail
  case shift =>
    have hshift := hr.other (κ := Config.codes) (b := 0x14) (i := .lcdCdshift false true) (by decide) rfl
      (fun r => congrArg (Receiver.command _ _) (shift_false r)) rfl rfl
    exact ⟨t, _, ht, (congrArg Receiver.sync hrx).trans hshift.sync, rfl, rfl, rfl, rfl, rfl, hread⟩
  case entry => exact ⟨t, _, ht, (congrArg Receiver.sync hrx).trans hr.sync, rfl, rfl, rfl, rfl, rfl, hread⟩

/-! ### The host's own pin operations on LCD pins (R193) -/

theorem latch_lost {r : Receiver} {rs : Level} {n : Nibble} (he : r.handshakeEnds rs n = false)
    (h : r.elapsed < r.due ∨ r.loose = true ∨ r.sync = none) :
    r.latch κ rs n = r.arrive rs n ∧ (r.arrive rs n).sync = none := by
  obtain ⟨htake, hsync⟩ := takeLatch_lost he h
  rw [Receiver.latch, htake]
  exact ⟨rfl, hsync⟩

/-- A byte over a loose pin leaves nothing known: the first latch is lost, and the second does not end a handshake. -/
theorem feed_byte_loose {r : Receiver} (h : r.loose = true) (rs : Level) (b : Byte) :
    (Receiver.feed κ (byteInputs true rs b) r).sync = none := by
  have hno {r : Receiver} {n : Nibble} (h : ¬ (r.progress = 3 ∧ r.loose = false)) : r.handshakeEnds rs n = false :=
    Bool.eq_false_iff.2 fun he => by
      rw [handshakeEnds_iff_fields] at he
      tauto
  obtain ⟨h1, hs1⟩ := latch_lost (κ := κ) (r := r.wait 50) (rs := rs) (n := hiNibble b) (hno (by simp [Receiver.wait, h]))
    (.inr (.inl h))
  have hp : (r.wait 50).nextProgress rs (hiNibble b) ≠ 3 := by
    simp only [nextProgress_eq, Receiver.wait, h, Bool.true_eq_false, false_and, and_false, if_false]
    split <;> decide
  obtain ⟨h2, hs2⟩ := latch_lost (κ := κ) (r := (((r.wait 50).arrive rs (hiNibble b)).wait 50).wait 50) (rs := rs)
    (n := loNibble b) (hno fun h => hp h.1) (.inr (.inr hs1))
  simp only [byteInputs, nibbleInputs, lineInput, if_true, List.cons_append, List.nil_append, feed_wait, feed_latch,
    feed_nil, Config.tStrobeUs]
  rw [h1, h2]
  exact hs2

/-- A command after a pin came loose leaves nothing known, whether the lines are driven again or not (log 18). -/
theorem feed_command_loose {r : Receiver} (h : r.loose = true) (driven : Bool) (b : Byte) :
    (Receiver.feed κ (commandInputs driven b) r).sync = none := by
  cases driven with
  | false => rfl
  | true =>
    rw [commandInputs, feed_append]
    exact feed_byte_loose h false b

/-- After `PINF` display operations still run, and the receiver is marked as `loosen` says (R81, R193). -/
theorem exec_pinf_operable {s : State} (h : Operable s) (p : BitVec 6) (m : PinFn) (hp : p.toNat < 54) :
    ∃ t, exec (.pinf p m) s = .next t ∧ Operable t ∧ t.rx = (s.loosen p.toNat m).rx :=
  ⟨_, execPinf_eq h.1.1 h.1.2 (by rw [h.2.1]; decide) p m hp, h, rfl⟩

theorem execAll_single {i : Instr} {s t : State} (h : exec i s = .next t) : execAll [i] s = .next t :=
  execAll_cons_next h []

theorem execAll_cmd_loose {s : State} (h : Operable s) (hl : s.rx.loose = true) (b : Byte) :
    ∃ t, execAll [.cmd b] s = .next t ∧ t.rx.sync = none :=
  ⟨_, execAll_single (exec_cmd_sent h b), feed_command_loose hl _ b⟩

/-- A strobe pulse of the host's own, with the lines driven and the last settling over, is the first latch of a byte. -/
theorem execAll_strobe_pulse {s : State} {y : Synced} (h : InStep s y) {p : BitVec 6} (hp : p.toNat = s.cfg.strb)
    (hd : s.rx.due ≤ s.rx.elapsed) (hno : s.rx.progress ≠ 3) :
    ∃ t, execAll [.pinw p true, .pinw p false] s = .next t ∧
      t.rx.sync = some { y with half := some (s.out.getLsbD s.cfg.rs, dataNibble s.cfg s.out) } := by
  obtain ⟨⟨⟨hq, hw⟩, hphase, hadm⟩, -, ⟨hdriven, -, hloose⟩, -, hy, hhalf⟩ := h
  have hpins : PinsOk s.cfg := Cfg.Admitted.pinsOk hadm
  have hlt : p.toNat < 54 := hp ▸ hpins.strb
  have hph : s.phase ≠ .fatal := by rw [hphase]; decide
  have hrise := execPinw_eq hq hw hph p true hlt (by simp [State.strobeFalls])
  have hfall := execPinw_fall (s := State.sent [.pin p.toNat true] (setLatchBit s.out p.toNat true) []
    { s with resp := some (.done none) }) hq hw hph p hlt hp (getLsbD_setLatchBit_same _ _ _ hlt)
  refine ⟨_, (execAll_cons_next (i := .pinw p true) hrise _).trans (execAll_single (i := .pinw p false) hfall), ?_⟩
  have he : s.rx.handshakeEnds (s.out.getLsbD s.cfg.rs) (dataNibble s.cfg s.out) = false :=
    Bool.eq_false_iff.2 fun he => hno ((handshakeEnds_iff_fields ..).1 he).2.2.1
  have hrs : (setLatchBit (setLatchBit s.out s.cfg.strb true) s.cfg.strb false).getLsbD s.cfg.rs =
      s.out.getLsbD s.cfg.rs := by
    rw [setLatchBit_again, getLsbD_setLatchBit_other _ _ _ _ hpins.distinct.1.1]
  have hdata : dataNibble s.cfg (setLatchBit (setLatchBit s.out s.cfg.strb true) s.cfg.strb false) =
      dataNibble s.cfg s.out := by
    rw [dataNibble_strobe hpins, dataNibble_strobe hpins]
  have hlatch := latch_first (κ := s.par.codes) hy hhalf hd hloose he
  show (Receiver.feed s.par.codes [lineInput s.allDriven
    ((setLatchBit (setLatchBit s.out p.toNat true) p.toNat false).getLsbD s.cfg.rs)
    (dataNibble s.cfg (setLatchBit (setLatchBit s.out p.toNat true) p.toNat false))] s.rx).sync = _
  rw [hdriven, hp, hrs, hdata, lineInput, if_pos rfl, feed_latch, feed_nil, hlatch]

/-- Settles O54: a loose pin loses the next command's first latch, and a strobe pulse is a first latch. -/
theorem pinOperationsOnLcdPins : Obligations.PinOperationsOnLcdPins := by
  refine ⟨fun p b s hs hp => ?loose, fun p s y h hp hd hno => execAll_strobe_pulse h hp hd hno⟩
  have hlt : p.toNat < 54 := hs.2.2.2.2.2.2.2 p.toNat hp
  obtain ⟨t, ht, hst, hrx⟩ := exec_pinf_operable hs p .input hlt
  obtain ⟨u, hu, hsu, hrxu⟩ := exec_pinf_operable hst p .output hlt
  have hloose : t.rx.loose = true := by rw [hrx, loosen_rx, if_pos ⟨rfl, hp⟩]
  have hstill : u.rx.loose = true := by rw [hrxu, loosen_rx, if_neg nofun, hloose]
  rw [execAll_cons_next ht, execAll_cons_next ht, execAll_cons_next hu]
  exact ⟨execAll_cmd_loose hst hloose b, execAll_cmd_loose hsu hstill b⟩

end Sys2Proof.Machine
end

section
/-! O56, O57 and O58: the receiver follows the driver. A command of the codes of R8 leaves a receiver in step in step
(R93, R143), with the address counter where `POS`, `CLEAR` and `HOME` put the cursor; a character keeps the two
together, past a wrap too (R109, R129). -/

namespace Sys2Proof.Machine

open Sys2Proof.Spec

/-! ### Addresses under the codes of R8 (R53, R67) -/

/-- The address of a position of the grid. -/
def address (x y : Nat) : Nat := 0x40 * y + x

theorem ddramAddr_standard (x y : Nat) : ddramAddr Config.codes x y = address x y := by
  simp only [ddramAddr, address, Config.codes]
  omega

theorem address_lt {k : Codes} {c : Cfg} (h : c.Admitted k) {x y : Nat} (hx : x < c.cols) (hy : y < c.rows) :
    address x y < 128 := by
  obtain ⟨-, hrows, ⟨-, hcols⟩, -, -, -⟩ := h
  rw [address]
  omega

/-- A Set DDRAM address command carries its address, and its high nibble has the top bit (R67). -/
theorem decode_addressByte {x y : Nat} (h : address x y < 128) :
    decodeCommandWith Config.codes (addressByte Config.codes x y) = some (.lcdDdram (BitVec.ofNat 7 (address x y))) ∧
      hiNibble (addressByte Config.codes x y) ≠ 2 := by
  have hall : ∀ a : Fin 128, decodeCommandWith Config.codes (0x80 ||| BitVec.ofNat 8 a) =
      some (.lcdDdram (BitVec.ofNat 7 a)) ∧ hiNibble (0x80 ||| BitVec.ofNat 8 a) ≠ 2 := by decide
  have hbyte : addressByte Config.codes x y = 0x80 ||| BitVec.ofNat 8 (address x y) := by
    rw [← ddramAddr_standard]
    rfl
  rw [hbyte]
  exact hall ⟨_, h⟩

/-! ### Commands to a receiver in step -/

/-- A command of the codes of R8, its settling and a further delay keep a receiver in step. -/
theorem inStep_sent {s : State} {y z : Synced} (h : InStep s y) {b : Byte} {i : Instr} {f : Synced → Option Synced}
    (hb : hiNibble b ≠ 2) (hd : decodeCommandWith Config.codes b = some i)
    (hx : ∀ r : Receiver, r.execute Config.codes i = r.command 2000 f) (hf : f y = some z) (hz : z.half = none)
    (evs : List Event) (w : Nat) (cx cy : Nat) (ctl : BitVec 3) {t : State}
    (ht : t = done (State.sent evs (commandLines s.cfg (b.extractLsb' 0 4) s.out)
      (commandInputs s.allDriven b ++ [.wait w]) { s with cx := cx, cy := cy, ctl := ctl })) :
    InStep t z ∧ t.rx.shifted = s.rx.shifted := by
  have hk : Standard s := h.2.1
  rw [← hk] at hd hx
  subst ht
  exact inStep_command h hb hd hx hf hz rfl rfl rfl rfl rfl rfl ⟨_, rfl⟩ rfl

theorem inStep_commandLeaves {s : State} {y z : Synced} (h : InStep s y) {b : Byte} {i : Instr}
    {f : Synced → Option Synced} (hb : hiNibble b ≠ 2) (hd : decodeCommandWith Config.codes b = some i)
    (hx : ∀ r : Receiver, r.execute Config.codes i = r.command 2000 f) (hf : f y = some z) (hz : z.half = none)
    (cx cy : Nat) (ctl : BitVec 3) :
    InStep (commandLeaves b cx cy ctl s) z ∧ (commandLeaves b cx cy ctl s).rx.shifted = s.rx.shifted := by
  refine inStep_sent h hb hd hx hf hz (commandEvents s.cfg b) 0 cx cy ctl ?_
  simp only [commandLeaves, State.sent, feed_append]
  rfl

/-- The operation runs and leaves the receiver in step with fields `z`, the cursor at (`cx`, `cy`) and the
display-shift mark as it was. -/
def LeavesInStep (i : Instr) (s : State) (z : Synced) (cx cy : Nat) : Prop :=
  ∃ t, exec i s = .next t ∧ InStep t z ∧ t.rx.shifted = s.rx.shifted ∧ t.cx = cx ∧ t.cy = cy

/-- A Set DDRAM address command of a position of the grid (R139). -/
theorem inStep_position {s : State} {y : Synced} (h : InStep s y) {cx cy : Nat} (hx : cx < s.cfg.cols)
    (hy : cy < s.cfg.rows) : InStep (commandLeaves (addressByte s.par.codes cx cy) cx cy s.ctl s)
        { y with ac := some (BitVec.ofNat 7 (address cx cy)) } ∧
      (commandLeaves (addressByte s.par.codes cx cy) cx cy s.ctl s).rx.shifted = s.rx.shifted := by
  obtain ⟨hs, hk, -, -, -, hhalf⟩ := id h
  obtain ⟨hd, hb⟩ := decode_addressByte (address_lt hs.2.2 hx hy)
  rw [hk]
  exact inStep_commandLeaves h hb hd (fun _ => rfl) rfl hhalf cx cy s.ctl

theorem pos_leavesInStep {s : State} {y : Synced} (h : InStep s y) (c : Byte) (r : BitVec 4)
    (hc : c.toNat < s.cfg.cols) (hr : r.toNat < s.cfg.rows) :
    LeavesInStep (.pos c r) s { y with ac := some (BitVec.ofNat 7 (address c.toNat r.toNat)) } c.toNat r.toNat := by
  have hin : outOfBounds s.cfg c.toNat r.toNat = false :=
    Bool.eq_false_iff.2 fun h => by rw [outOfBounds_iff] at h; omega
  obtain ⟨hstep, hshift⟩ := inStep_position h hc hr
  exact ⟨_, exec_pos_sent h.1 c r hin, hstep, hshift, rfl, rfl⟩

theorem clear_leavesInStep {s : State} {y : Synced} (h : InStep s y) :
    LeavesInStep .clear s { y with ac := some 0, ddram := Memory.filled 0x20 } 0 0 := by
  obtain ⟨hs, hk, -, -, -, hhalf⟩ := id h
  have ht := exec_clear_sent hs
  rw [hk] at ht
  obtain ⟨hstep, hshift⟩ :=
    inStep_sent h (b := 0x01) (i := .lcdClear) (by decide) rfl (fun _ => rfl) rfl hhalf _ _ 0 0 s.ctl rfl
  exact ⟨_, ht, hstep, hshift, rfl, rfl⟩

theorem home_leavesInStep {s : State} {y : Synced} (h : InStep s y) :
    LeavesInStep .home s { y with ac := some 0 } 0 0 := by
  obtain ⟨hs, hk, -, -, -, hhalf⟩ := id h
  have ht := exec_home_sent hs
  rw [hk] at ht
  obtain ⟨hstep, hshift⟩ :=
    inStep_sent h (b := 0x02) (i := .lcdHome) (by decide) rfl (fun _ => rfl) rfl hhalf _ _ 0 0 s.ctl rfl
  exact ⟨_, ht, hstep, hshift, rfl, rfl⟩

/-- A Display control command brings the driver's `CTL` to the receiver (R123, R149). -/
theorem inStep_control {s : State} {y : Synced} (h : InStep s y) (cx cy : Nat) (v : BitVec 3) :
    InStep (commandLeaves (controlByte s.par.codes v) cx cy v s) { y with ctl := some v } ∧
      (commandLeaves (controlByte s.par.codes v) cx cy v s).rx.shifted = s.rx.shifted := by
  obtain ⟨-, hk, -, -, -, hhalf⟩ := id h
  obtain ⟨hd, hv, hb⟩ := decode_controlByte v
  rw [hk]
  exact inStep_commandLeaves (z := { y with ctl := some v }) h hb hd (fun _ => rfl) (by rw [hv]) hhalf cx cy v

/-- Settles O56: one command each, of the codes of R8, to a receiver in step. -/
theorem commandsReachReceiver : Obligations.CommandsReachReceiver := by
  intro s y h
  have hs : Operable s := h.1
  refine ⟨fun c r hc hr => ?pos, ?clear, ?home, fun e => ⟨?disp, ?curs, ?blink⟩⟩
  case pos =>
    obtain ⟨t, ht, hstep, hshift, -⟩ := pos_leavesInStep h c r hc hr
    exact ⟨t, _, ht, hstep, hshift, rfl, rfl⟩
  case clear =>
    obtain ⟨t, ht, hstep, hshift, -⟩ := clear_leavesInStep h
    have hsync : t.rx.sync = some _ := hstep.2.2.2.2.1
    refine ⟨t, _, ht, hstep, hshift, rfl, fun a ha => ?_⟩
    rw [State.cell, hsync]
    exact (read_filled _ _).trans (if_pos ha)
  case home =>
    obtain ⟨t, ht, hstep, hshift, -⟩ := home_leavesInStep h
    exact ⟨t, ht, hstep, hshift⟩
  case disp => exact ⟨_, exec_disp_sent hs e, inStep_control h _ _ _⟩
  case curs => exact ⟨_, exec_curs_sent hs e, inStep_control h _ _ _⟩
  case blink => exact ⟨_, exec_blink_sent hs e, inStep_control h _ _ _⟩

/-! ### Agreement of cursor and address counter (R129, R190) -/

/-- Driver and receiver agree when they are in step and the address counter is the cursor's address. -/
theorem agrees_of_inStep {t : State} {z : Synced} (h : InStep t z) (hi : z.inc = some true)
    (hac : z.ac = some (BitVec.ofNat 7 (address t.cx t.cy))) : Agrees t := by
  obtain ⟨-, hk, -, hsettled, hsync, hhalf⟩ := h
  rw [← ddramAddr_standard, ← hk] at hac
  exact ⟨hsettled, z, hsync, hhalf, hi, hac⟩

theorem LeavesInStep.agrees {i : Instr} {s : State} {z : Synced} {cx cy : Nat} (h : LeavesInStep i s z cx cy)
    (hi : z.inc = some true) (hac : z.ac = some (BitVec.ofNat 7 (address cx cy))) :
    ∃ t, exec i s = .next t ∧ Agrees t := by
  obtain ⟨t, ht, hstep, -, rfl, rfl⟩ := h
  exact ⟨t, ht, agrees_of_inStep hstep hi hac⟩

/-- Settles O57: each of the three sets the address counter to the address of the cursor it leaves. -/
theorem agreementRestored : Obligations.AgreementRestored := fun _ _ h hi =>
  ⟨fun c r hc hr => (pos_leavesInStep h c r hc hr).agrees hi rfl, (clear_leavesInStep h).agrees hi rfl,
    (home_leavesInStep h).agrees hi rfl⟩

/-! ### A character (R109, R140) -/

/-- After a data byte the receiver is in step, with the byte stored and the address counter one on. -/
theorem inStep_written {s : State} {y : Synced} (h : InStep s y) (hi : y.inc = some true) {a : BitVec 7}
    (ha : y.ac = some a) (b : Byte) :
    InStep (s.written b) { y with ddram := y.ddram.write a.toNat b, ac := some (a + 1) } ∧
      (s.written b).rx.shifted = s.rx.shifted := by
  obtain ⟨hs, hk, ⟨hdriven, -, hloose⟩, hsettled, hsync, hhalf⟩ := h
  obtain ⟨p, hrx⟩ := feed_character (κ := s.par.codes) hloose hsettled hsync hhalf hi ha b
  have hrx : (s.written b).rx = _ :=
    (congrArg (fun d => Receiver.feed s.par.codes (byteInputs d true b) s.rx) hdriven).trans hrx
  have hstrb : (s.written b).out.getLsbD s.cfg.strb = false := strb_nibbleLines (operable_pins hs) _ _
  refine ⟨⟨hs, hk, ⟨hdriven, hstrb, ?_⟩, ?_, ?_, hhalf⟩, ?_⟩
  all_goals rw [hrx]
  simp [Settled]

/-- What `PUTC` leaves in a receiver that agrees with the driver: the character in the cursor's cell, and the address
counter at the new cursor. -/
def Synced.typed (a : Nat) (b : Byte) (t : State) (y : Synced) : Synced :=
  { y with ddram := y.ddram.write a b, ac := some (BitVec.ofNat 7 (address t.cx t.cy)) }

/-- The character lands at the cursor, and the address counter follows the cursor, past a wrap too. -/
theorem exec_putc_inStep {s : State} {y : Synced} (hs : InGrid s) (h : InStep s y) (hi : y.inc = some true)
    (ha : y.ac = some (BitVec.ofNat 7 (address s.cx s.cy))) (b : Byte) :
    ∃ t, exec (.putc b) s = .next t ∧ InStep t (y.typed (address s.cx s.cy) b t) ∧ t.rx.shifted = s.rx.shifted := by
  obtain ⟨hop, hcol, hrow⟩ := hs
  have haddr : (BitVec.ofNat 7 (address s.cx s.cy)).toNat = address s.cx s.cy :=
    Nat.mod_eq_of_lt (address_lt hop.2.2 hcol hrow)
  by_cases hx : s.cx + 1 = s.cfg.cols
  · have hrow' : (if s.cy + 1 = s.cfg.rows then 0 else s.cy + 1) < s.cfg.rows := by split <;> omega
    obtain ⟨hmid, hmidShift⟩ := inStep_written (s := { s with
      cx := 0, cy := if s.cy + 1 = s.cfg.rows then 0 else s.cy + 1, resp := some (.done none) }) h hi ha b
    obtain ⟨hstep, hshift⟩ := inStep_position hmid (Nat.zero_lt_of_lt hcol) hrow'
    rw [haddr] at hstep
    exact ⟨_, execPutc_wrap hop b hx hrow, hstep, hshift.trans hmidShift⟩
  · obtain ⟨hstep, hshift⟩ := inStep_written (s := { s with cx := s.cx + 1, resp := some (.done none) }) h hi ha b
    have hnext : BitVec.ofNat 7 (address s.cx s.cy) + 1 = BitVec.ofNat 7 (address (s.cx + 1) s.cy) :=
      (BitVec.ofNat_add _ _).symm
    rw [haddr, hnext] at hstep
    exact ⟨_, execPutc_plain hop b hx, hstep, hshift⟩

/-- The cells of a Synced receiver. -/
theorem cell_synced {s : State} {y : Synced} (h : s.rx.sync = some y) (a : Nat) : s.cell a = y.ddram.read a := by
  rw [State.cell, h]

/-- A Synced receiver with the number of rows known, the display on and never shifted shows its cells (R154). -/
theorem shown_synced {s : State} {y : Synced} (h : s.rx.sync = some y) {c r : Nat} {v : BitVec 3}
    (hc : c < s.cfg.cols) (hr : r < s.cfg.rows) (hm : y.multi = some (decide (1 < s.cfg.rows))) (hv : y.ctl = some v)
    (hon : v.getLsbD 2 = true) (hs : s.rx.shifted = false) : s.shown c r = s.cell (ddramAddr s.par.codes c r) := by
  have hlit : y.ctl.map (·.getLsbD 2) = some true := by rw [hv, Option.map_some, hon]
  rw [cell_synced h, State.shown, h]
  exact if_pos ⟨hc, hr, hm, hlit, hs⟩

/-- Settles O58: the store is at the cursor's address, and the address counter keeps up with the cursor. -/
theorem characterLandsAtCursor : Obligations.CharacterLandsAtCursor := by
  intro b s hs hl hk ⟨hsettled, y, hsync, hhalf, hi, hac⟩
  rw [hk, ddramAddr_standard] at hac
  obtain ⟨t, ht, hstep, hshift⟩ := exec_putc_inStep hs ⟨hs.1, hk, hl, hsettled, hsync, hhalf⟩ hi hac b
  obtain ⟨t', ht', hd⟩ := exec_display (i := .putc b) rfl hs
  obtain rfl : t = t' := Host.Outcome.next.inj (ht.symm.trans ht')
  have hagrees : Agrees t := agrees_of_inStep hstep hi rfl
  obtain ⟨-, hkt, hlt, -, hsynct, -⟩ := hstep
  have hcell : t.cell (address s.cx s.cy) = some b := (cell_synced hsynct _).trans (read_write_same ..)
  refine ⟨t, ht, hd.grid, hlt, hkt, hagrees, hshift, hcell, fun a ha => ?others, fun y' v hy' hm hv hon hsh => ?shown⟩
  case others => exact (cell_synced hsynct a).trans ((read_write_other _ _ _ _ ha).trans (cell_synced hsync a).symm)
  case shown =>
    obtain rfl : y = y' := Option.some.inj (hsync.symm.trans hy')
    obtain ⟨-, hcol, hrow⟩ := hs
    rw [← hd.cfg] at hm hcol hrow
    rw [shown_synced hsynct hcol hrow hm hv hon (hshift.trans hsh), hkt, ddramAddr_standard, hcell]

end Sys2Proof.Machine
end

section
/-! O59: every trace of `INIT` and display operations meets the protocol (R187, R188). Along a walk over the trace the
latches so far are in order, and the last one's settling is over but for what the next transfer itself waits; a
transfer keeps this, and after the four latches of the handshake every operation sends whole bytes. -/

namespace Sys2Proof.Machine

open Sys2Proof.Spec

variable {κ : Codes} {c : Cfg}

/-! ### One more latch at the end of a list (R187) -/

/-- What the last of the latches owes. -/
def owedBy (κ : Codes) (k due : Nat) (before : Nibble) : List Latch → Nat
  | [] => due
  | x :: rest => owedBy κ (k + 1) (owedAfter κ k before x) x.nib rest

theorem owedBy_snoc (ls : List Latch) (x : Latch) (k due : Nat) (before : Nibble) :
    ∃ first, owedBy κ k due before (ls ++ [x]) = owedAfter κ (k + ls.length) first x := by
  induction ls generalizing k due before with
  | nil => exact ⟨before, rfl⟩
  | cons y ls ih =>
    obtain ⟨first, h⟩ := ih (k + 1) (owedAfter κ k before y) y.nib
    refine ⟨first, h.trans ?_⟩
    rw [List.length_cons, Nat.add_right_comm, Nat.add_assoc]

theorem gapsMet_snoc {ls : List Latch} {x : Latch} {k due : Nat} {before : Nibble}
    (h : gapsMet κ k due before ls = true) (hx : owedBy κ k due before ls ≤ x.gap) :
    gapsMet κ k due before (ls ++ [x]) = true := by
  induction ls generalizing k due before with
  | nil => exact Bool.and_eq_true_iff.2 ⟨decide_eq_true hx, rfl⟩
  | cons y ls ih =>
    obtain ⟨hy, hrest⟩ := Bool.and_eq_true_iff.1 h
    exact Bool.and_eq_true_iff.2 ⟨hy, ih hrest hx⟩

theorem pulsesMet_snoc {ls : List Latch} {x : Latch} (h : pulsesMet ls = true) (hhigh : 50 ≤ x.high)
    (hlow : ls = [] ∨ 50 ≤ x.low) : pulsesMet (ls ++ [x]) = true := by
  cases ls with
  | nil => exact Bool.and_eq_true_iff.2 ⟨decide_eq_true hhigh, rfl⟩
  | cons y ls =>
    obtain ⟨hy, hrest⟩ := Bool.and_eq_true_iff.1 h
    refine Bool.and_eq_true_iff.2 ⟨hy, ?_⟩
    have hx : 50 ≤ x.low := hlow.resolve_left nofun
    have hlast : ([x].all fun y => decide (50 ≤ y.high) && decide (50 ≤ y.low)) = true := by simp [hhigh, hx]
    exact List.all_append.trans (Bool.and_eq_true_iff.2 ⟨hrest, hlast⟩)

/-! ### Along a walk (R188) -/

/-- The walk has met the protocol with `k` latches, RS is at `l` and the strobe Low, and after a further `DELAY` of `d`
the next transfer comes late enough. -/
structure Met (κ : Codes) (c : Cfg) (k : Nat) (l : Level) (d : Nat) (w : Walk) : Prop where
  low : w.high = false
  rs : w.lines.getLsbD c.rs = l
  count : w.latches.length = k
  pulses : pulsesMet w.latches = true
  gaps : gapsMet κ 0 0 0 w.latches = true
  owed : owedBy κ 0 0 0 w.latches ≤ w.gap + 50 + d
  rested : w.latches = [] ∨ 50 ≤ w.since

theorem met_start (out : BitVec 54) : Met κ c 0 (out.getLsbD c.rs) 0 (Walk.start out) :=
  ⟨rfl, rfl, rfl, rfl, rfl, Nat.zero_le _, .inl rfl⟩

section
variable {k d : Nat} {l : Level} {w : Walk}

theorem Met.delay {n : Nat} (h : Met κ c k l (d + n) w) : Met κ c k l d (w.run c [.delay n]) := by
  obtain ⟨hlow, hrs, hcount, hpulses, hgaps, howed, hrested⟩ := h
  refine ⟨hlow, hrs, hcount, hpulses, hgaps, ?_, hrested.imp_right fun h => Nat.le_add_right_of_le h⟩
  show owedBy κ 0 0 0 w.latches ≤ w.gap + n + 50 + d
  omega

/-- A walk that keeps all but the lines. -/
theorem Met.lines (h : Met κ c k l d w) {lines : BitVec 54} {l' : Level} (hl : lines.getLsbD c.rs = l') :
    Met κ c k l' d { w with lines := lines } :=
  ⟨h.low, hl, h.count, h.pulses, h.gaps, h.owed, h.rested⟩

/-- Writing RS makes no latch. -/
theorem Met.select (hp : PinsOk c) (h : Met κ c k l d w) (l' : Level) : Met κ c k l' d (w.run c [.pin c.rs l']) := by
  rw [Walk.run, List.foldl_cons, List.foldl_nil, next_line hp.distinct.1.1]
  exact h.lines (getLsbD_setLatchBit_same _ _ _ hp.rs)

/-- A transfer whose latch owes no more than its own two strobe times and a `DELAY` of `d`. -/
theorem Met.nibble (hp : PinsOk c) (h : Met κ c k l 0 w) (n : Nibble)
    (hd : ∀ first x, x.rs = l → owedAfter κ k first x ≤ 100 + d) :
    Met κ c (k + 1) l d (w.run c (nibbleEvents c n)) := by
  obtain ⟨hlow, rfl, rfl, hpulses, hgaps, howed, hrested⟩ := h
  rw [run_nibble hp n hlow]
  refine ⟨rfl, rs_nibbleLines hp n w.lines, List.length_append, pulsesMet_snoc hpulses (Nat.le_refl 50) hrested,
    gapsMet_snoc hgaps howed, ?_, .inr (Nat.le_refl 50)⟩
  obtain ⟨first, hfirst⟩ := owedBy_snoc (κ := κ) w.latches
    { rs := w.lines.getLsbD c.rs, nib := n, gap := w.gap + 50, high := 50, low := w.since } 0 0 0
  rw [hfirst, Nat.zero_add]
  exact hd first _ rfl

theorem Met.protocol (h : Met κ c k l d w) : meetsProtocol κ w.latches = true :=
  Bool.and_eq_true_iff.2 ⟨h.pulses, h.gaps⟩

end

/-! ### The handshake (R99 to R101) -/

theorem owedAfter_handshake {k : Nat} (hk : k < 4) (first : Nibble) (x : Latch) : owedAfter κ k first x ≤ 35000 := by
  rw [owedAfter]
  split
  · exact Nat.le_refl _
  · rw [if_pos (by omega)]
    decide

theorem Met.handshake (hp : PinsOk c) {k : Nat} {l : Level} {w : Walk} (h : Met κ c k l 0 w) (hk : k < 4)
    (n : Nibble) :
    Met κ c (k + 1) false 0 (w.run c (handshakeEvents c n)) := by
  rw [handshakeEvents, nibbleCommandEvents, ← List.singleton_append, run_append, run_append]
  exact ((h.select hp false).nibble hp n fun first x _ => Nat.le_add_left_of_le (owedAfter_handshake hk first x)).delay

/-- With the strobe and RS Low, writing any pin Low makes no latch. -/
theorem Met.lows {k d : Nat} {w : Walk} (h : Met κ c k false d w) (ps : List Nat) :
    Met κ c k false d (w.run c (ps.map fun p => .pin p false)) := by
  induction ps generalizing w with
  | nil => exact h
  | cons p ps ih =>
    have hnext : w.next c (.pin p false) = { w with lines := setLatchBit w.lines p false } := by
      by_cases hp : p = c.strb
      · simp [Walk.next, hp, h.low]
      · exact next_line hp w false
    refine ih (w := w.next c (.pin p false)) (hnext ▸ h.lines ?_)
    rw [getLsbD_setLatchBit]
    split
    · rfl
    · exact h.rs

/-- Making pins Output is no event of the walk (R95). -/
theorem run_fsels (ps : List Nat) (w : Walk) : w.run c (ps.map fun p => .fsel p .output) = w := by
  induction ps with
  | nil => rfl
  | cons p ps ih => exact ih

/-! ### Whole bytes -/

theorem commandSettle_le (b : Byte) : commandSettle κ b ≤ 2000 := by
  rw [commandSettle]
  split <;> decide

/-- The first latch of a byte owes nothing. -/
theorem owedAfter_first {k : Nat} (hk : 4 ≤ k) (h2 : k % 2 = 0) (first : Nibble) (x : Latch) :
    owedAfter κ k first x = 0 := by
  rw [owedAfter, if_neg (by omega), if_neg (by omega), if_pos h2]

/-- The second owes its command's settling at most, nothing for data. -/
theorem owedAfter_second {k : Nat} (hk : 4 ≤ k) (h2 : k % 2 = 0) (first : Nibble) (x : Latch) :
    owedAfter κ (k + 1) first x ≤ if x.rs then 0 else 2000 := by
  rw [owedAfter, if_neg (by omega), if_neg (by omega), if_neg (by omega)]
  split
  · exact Nat.le_refl 0
  · exact commandSettle_le _

/-- A byte with RS at `l`, and the `DELAY` it still wants. -/
theorem Met.byte (hp : PinsOk c) {k : Nat} {l : Level} {w : Walk} (h : Met κ c k l 0 w) (hk : 4 ≤ k) (h2 : k % 2 = 0)
    (b : Byte) {d : Nat} (hd : (if l then 0 else 2000) ≤ d) : Met κ c (k + 2) l d (w.run c (byteEvents c b)) := by
  rw [byteEvents, run_append]
  have hfirst : Met κ c (k + 1) l 0 (w.run c (nibbleEvents c (b.extractLsb' 4 4))) :=
    h.nibble hp _ fun first x _ => by rw [owedAfter_first hk h2]; exact Nat.zero_le _
  refine hfirst.nibble hp _ fun first x hx => ?_
  calc owedAfter κ (k + 1) first x
    _ ≤ if x.rs then 0 else 2000 := owedAfter_second hk h2 first x
    _ ≤ 100 + d := by rw [hx]; exact Nat.le_add_left_of_le hd

/-- The walk is between two bytes after the handshake. -/
def BetweenBytes (κ : Codes) (c : Cfg) (w : Walk) : Prop := ∃ k l, 4 ≤ k ∧ k % 2 = 0 ∧ Met κ c k l 0 w

/-- Whatever walk is between two bytes is so again after the events. -/
def WholeBytes (κ : Codes) (c : Cfg) (evs : List Event) : Prop :=
  ∀ w, BetweenBytes κ c w → BetweenBytes κ c (w.run c evs)

theorem wholeBytes_nil : WholeBytes κ c [] := fun _ hw => hw

theorem wholeBytes_append {as bs : List Event} (ha : WholeBytes κ c as) (hb : WholeBytes κ c bs) :
    WholeBytes κ c (as ++ bs) := fun w hw => by
  rw [run_append]
  exact hb _ (ha w hw)

theorem wholeBytes_flatMap {f : Byte → List Event} (h : ∀ b, WholeBytes κ c (f b)) (bs : List Byte) :
    WholeBytes κ c (bs.flatMap f) := by
  induction bs with
  | nil => exact wholeBytes_nil
  | cons b bs ih => exact wholeBytes_append (h b) ih

theorem wholeBytes_delay (n : Nat) : WholeBytes κ c [.delay n] := fun _ ⟨k, l, hk, h2, h⟩ =>
  ⟨k, l, hk, h2, Met.delay { h with owed := Nat.le_trans h.owed (Nat.add_le_add_left (Nat.zero_le _) _) }⟩

theorem wholeBytes_data (hp : PinsOk c) (b : Byte) : WholeBytes κ c (dataEvents c b) := fun w ⟨k, _, hk, h2, h⟩ => by
  rw [dataEvents, ← List.singleton_append, run_append]
  exact ⟨k + 2, true, by omega, by omega, (h.select hp true).byte hp hk h2 b (Nat.le_refl 0)⟩

theorem wholeBytes_command (hp : PinsOk c) (b : Byte) : WholeBytes κ c (commandEvents c b) :=
  fun w ⟨k, _, hk, h2, h⟩ => by
  rw [commandEvents, ← List.singleton_append, run_append, run_append]
  exact ⟨k + 2, false, by omega, by omega, ((h.select hp false).byte hp hk h2 b (d := 0 + 2000) (by decide)).delay⟩

/-- A display operation sends whole bytes (R91, R93, R109, R118). -/
theorem wholeBytes_display {i : Instr} (hi : isDisplay i = true) {s : State} (hp : PinsOk s.cfg) :
    WholeBytes κ s.cfg (displayEvents s i) := by
  have hcommand := wholeBytes_command (κ := κ) hp
  cases i with
  | cmd b => exact hcommand b
  | putc b =>
    rw [displayEvents]
    split
    · exact wholeBytes_append (wholeBytes_data hp b) (hcommand _)
    · exact wholeBytes_data hp b
  | pos x y =>
    rw [displayEvents]
    split
    · exact wholeBytes_nil
    · exact hcommand _
  | clear | home => exact wholeBytes_append (hcommand _) (wholeBytes_delay _)
  | disp e | curs e | blink e => exact hcommand _
  | npair _ | nibc _ | init | pinf _ _ | pinw _ _ | pinr _ | lcdClear | lcdHome | lcdEntry _ _ | lcdCtrl _ _ _
  | lcdCdshift _ _ | lcdFunc _ _ _ | lcdDdram _ | lcdData _ | lcdFunc8Nibble | lcdFunc4Nibble => cases hi

/-- `INIT` sends the four latches of the handshake and then whole bytes (R97 to R105). -/
theorem betweenBytes_init (hp : PinsOk c) (par : Params) (ctl : BitVec 3) (out : BitVec 54) :
    BetweenBytes κ c ((Walk.start out).run c (initTrace c par ctl)) := by
  have hlows : Met κ c 0 false 0 ((Walk.start out).run c ((lcdPins c).map fun p => .pin p false)) :=
    ((met_start out).select hp false).lows [c.strb, c.d0, c.d1, c.d2, c.d3]
  have hshake := fun n1 n2 n3 n4 =>
    (((hlows.handshake hp (by decide) n1).handshake hp (by decide) n2).handshake hp (by decide) n3).handshake hp
      (by decide) n4
  have hcommand := wholeBytes_command (κ := κ) hp
  simp only [initTrace, initEvents, run_append, run_fsels]
  exact wholeBytes_flatMap hcommand _ _ (wholeBytes_delay _ _ (hcommand _ _ (wholeBytes_flatMap hcommand _ _
    ⟨4, false, by decide, by decide, hshake _ _ _ _⟩)))

/-! ### The result -/

/-- Display operations from a state with the cursor in the grid all complete and send whole bytes. -/
theorem execAll_display {ops : List Instr} (hops : ∀ i ∈ ops, isDisplay i = true) {s : State} (h : InGrid s) :
    ∃ t evs, execAll ops s = .next t ∧ t.trace = s.trace ++ evs ∧ WholeBytes κ s.cfg evs := by
  induction ops generalizing s with
  | nil => exact ⟨s, [], rfl, (List.append_nil _).symm, wholeBytes_nil⟩
  | cons i ops ih =>
    obtain ⟨hi, hops⟩ := List.forall_mem_cons.1 hops
    obtain ⟨t, ht, hd⟩ := exec_display (isReadyOp_of_isDisplay hi) h
    obtain ⟨u, evs, hu, htrace, hevs⟩ := ih hops hd.grid
    rw [hd.cfg] at hevs
    refine ⟨u, _, (execAll_cons_next ht ops).trans hu, ?_,
      wholeBytes_append (wholeBytes_display hi (operable_pins h.1)) hevs⟩
    rw [htrace, hd.trace, List.append_assoc]

/-- `INIT` leaves a Ready state with the cursor in the grid, and has sent its trace (R97). -/
theorem exec_init_inGrid {s : State} (h : Startable s) : ∃ t, exec .init s = .next t ∧ InGrid t ∧ t.cfg = s.cfg ∧
    t.trace = s.trace ++ initTrace s.cfg s.par s.ctl := by
  refine ⟨_, exec_init_eq h, ?grid, rfl, List.append_assoc ..⟩
  obtain ⟨hquiet, -, hadm, -⟩ := h
  obtain ⟨-, hrows, ⟨hcols, -⟩, -⟩ := id hadm
  exact ⟨⟨hquiet, rfl, hadm⟩, hcols, by show 0 < s.cfg.rows; omega⟩

/-- Settles O59: `INIT` leaves the walk between two bytes, and every display operation keeps it there. -/
theorem protocolMet : Obligations.ProtocolMet := by
  intro ops s hs hops
  obtain ⟨t, ht, hgrid, hcfg, htrace⟩ := exec_init_inGrid hs
  obtain ⟨u, evs, hu, htrace', hevs⟩ := execAll_display (κ := s.par.codes) hops hgrid
  rw [hcfg] at hevs
  refine ⟨u, initTrace s.cfg s.par s.ctl ++ evs, (execAll_cons_next ht ops).trans hu, ?_, ?_⟩
  · rw [htrace', htrace, List.append_assoc]
  · obtain ⟨k, l, -, -, hmet⟩ := hevs _ (betweenBytes_init (startable_pins hs) s.par s.ctl s.out)
    rw [latches, run_append]
    exact hmet.protocol

end Sys2Proof.Machine
end
